-- ==== Sys2Proof/Word.lean ====
section
/-!
DEFINITION. Word.lean: the word types of the block (rules R7, R52, R70, R73 of spec/) and the names of a LED's
three channels. Every quantity is unsigned (R7).
-/

namespace Sys2Proof

/-- One brightness value, "an 8-bit unsigned magnitude" (R70); also the width of every Light Buffer access (R52). -/
abbrev Byte := BitVec 8

/-- A 4-bit field of a command word: `op` or `idx` (R74). -/
abbrev Nibble := BitVec 4

/-- A command word: "Every command is exactly 32 bits" (R73). -/
abbrev CommandWord := BitVec 32

/-- One colour of one LED (R70). -/
inductive Channel where
  | red
  | green
  | blue
  deriving DecidableEq, Repr, Inhabited

/-- "where a number is needed the spec uses red = 0, green = 1, blue = 2" (R70). -/
def Channel.number : Channel → Fin 3
  | .red => 0
  | .green => 1
  | .blue => 2

end Sys2Proof
end

