-- ==== Sys2Proof/Config.lean ====
section
/-!
DEFINITION. Config.lean: what an implementation fixes. The constants of rule R5, the open parameters of rule R6 as
constants without a body (no proof can see their value), and the one value reset leaves unspecified (R38, U11).
-/

namespace Sys2Proof

/-- A logical LED, index 0..12 (`N_LED = 13`, R5). -/
abbrev Led := Fin 13

/-- A row of the matrix, 0..3 (`N_ROW = 4`, R5), in the Scan Cursor's own two bits (R25). -/
abbrev Row := BitVec 2

/-- A column, which is also the compare channel id, 0..11 (`N_COL = 12`, R5, R70). -/
abbrev Column := Fin 12

/-- A Light Buffer index, 0..47 (`LB_SIZE = 48`, R5, R50). -/
abbrev BufferIndex := Fin 48

/-- The parameter `SETLED_ORDER` of R6: a permutation of (R, G, B). -/
inductive ChannelOrder where
  | rgb
  | rbg
  | grb
  | gbr
  | brg
  | bgr
  deriving DecidableEq, Repr, Inhabited

/-- The channel written first. -/
def ChannelOrder.first : ChannelOrder → Channel
  | .rgb => .red
  | .rbg => .red
  | .grb => .green
  | .gbr => .green
  | .brg => .blue
  | .bgr => .blue

/-- The channel written second. -/
def ChannelOrder.second : ChannelOrder → Channel
  | .rgb => .green
  | .rbg => .blue
  | .grb => .red
  | .gbr => .blue
  | .brg => .red
  | .bgr => .green

/-- The channel written third. -/
def ChannelOrder.third : ChannelOrder → Channel
  | .rgb => .blue
  | .rbg => .green
  | .grb => .blue
  | .gbr => .red
  | .brg => .green
  | .bgr => .red

/-- The parameter `ROW_ACTIVE_LOW` of R6: which level asserts a row line's pin (R28, U2). -/
inductive RowPolarity where
  | activeLow
  | activeHigh
  deriving DecidableEq, Repr, Inhabited

namespace Config

/-- `BLANK_RELOAD = 4` (R5): what the Blanking Counter is reset to by a load tick. -/
def blankReload : BitVec 3 := 4

/-- `TICKS_PER_MS = 2` (R5): ticks counted per millisecond by WAIT. -/
def ticksPerMs : BitVec 16 := 2

/-- `PASS_DELAY_MS = 2` (R5): the WAIT between fade passes (R162). -/
def passDelayMs : Byte := 2

/-- `WASH_REPS = 5` (R5): repetitions of the wash phase (R184). -/
def washReps : Nat := 5

/-- `WASH_HOLD_MS = 200` (R5): the hold after each LED of the wash phase (R184). -/
def washHoldMs : Byte := 200

/-- `N_DRIVERS = 8` (R5): the peripherals one START stands for (R180). -/
def nDrivers : Nat := 8

/-- The open parameters of R6, taken as one argument ("A model takes each as an argument"). `TICK_HZ`, on which nothing but
the figures of Machine/Timing.lean depends, is the argument `TickRate` there. -/
structure Params where
  /-- `TOPO` -/
  topo : Led → Channel → BufferIndex
  /-- `SETLED_ORDER` -/
  setLedOrder : ChannelOrder
  /-- `ROW_ACTIVE_LOW` -/
  rowPolarity : RowPolarity
  /-- `CHASE_PASSES` -/
  chasePasses : Nat
  /-- `PWM_PERIODS_PER_TICK` -/
  pwmPeriodsPerTick : ℕ+

/-- The table `T0(i) = (3i, 3i+1, 3i+2)` of R6, the test vectors' stand-in for the real wiring. -/
def tableT0 (i : Led) (ch : Channel) : BufferIndex :=
  ⟨3 * i.val + ch.number.val, by have := i.isLt; have := ch.number.isLt; omega⟩

/-- The defaults of R6, used by the vectors of 95_test_vectors.md; no claim about the original hardware. -/
def reference : Params where
  topo := tableT0
  setLedOrder := .rgb
  rowPolarity := .activeLow
  chasePasses := 1024
  pwmPeriodsPerTick := 1

/-- The open wiring. A well-formed `TOPO` is 39 pairwise distinct indices below 48 (R6), and every such table is a
permutation of the 48 indices read at the 39 places of `T0` (`Laws/Topology.lean` proves it); so an unknown permutation is
an unknown well-formed table and nothing else. DESIGN CHOICE of the form, assumption 3. -/
opaque wiring : Equiv.Perm BufferIndex

/-- The Topology Table `TOPO(i, ch)` (R23): constant, well formed, otherwise unknown. -/
def topo (i : Led) (ch : Channel) : BufferIndex := wiring (tableT0 i ch)

/-- `SETLED_ORDER` (R6, R130): unknown. -/
opaque setLedOrder : ChannelOrder

/-- `ROW_ACTIVE_LOW` (R6, R28, U2): unknown. -/
opaque rowPolarity : RowPolarity

/-- `CHASE_PASSES` (R6, R163): unknown. -/
opaque chasePasses : Nat

/-- `PWM_PERIODS_PER_TICK`, a positive natural number (R6, R37, R109): unknown. -/
opaque pwmPeriodsPerTick : ℕ+

/-- How far `TICK_HZ` lies above 2000, the least rate that R6 admits (`TICK_HZ / 4` at least 500, `TICK_HZ / 16` at least
60): unknown. -/
opaque tickHzAbove2000 : NNReal

/-- What `PWMCNT` holds after reset: "unspecified, any value 0..255" (R38, D11, U11). A free value, assumption 5. -/
opaque pwmcntAtReset : Byte

/-- The parameters of the machine itself. -/
def params : Params := ⟨topo, setLedOrder, rowPolarity, chasePasses, pwmPeriodsPerTick⟩

end Config

end Sys2Proof
end

