-- ==== Sys2Proof/Machine/State.lean ====
section
/-!
DEFINITION. Machine/State.lean: the complete state of the block (R20), the foreground's progress through the current
command (R36: `FGQ`), the inputs from outside (the trace of R86), the ways a step can stop, and the state after reset (R38).
-/

namespace Sys2Proof.Machine

/-- The codes of the Fade State Table (R24, R71). The names are the source's labels; what a state does is R153 to R155. -/
inductive FadeState where
  | idle
  | blueToRed
  | redToGreen
  | greenToBlue
  deriving DecidableEq, Repr

/-- The 2-bit code of R71. -/
def FadeState.code : FadeState → BitVec 2
  | .idle => 0
  | .blueToRed => 1
  | .redToGreen => 2
  | .greenToBlue => 3

/-- The values of the sticky register `FAULT` (R32); 3 is never written, so there is no such value (U14). -/
inductive FaultCode where
  | noFault
  | indexFault
  | reservedEncoding
  deriving DecidableEq, Repr

/-- The 2-bit code the host reads (R32). -/
def FaultCode.code : FaultCode → BitVec 2
  | .noFault => 0
  | .indexFault => 1
  | .reservedEncoding => 2

/-- The arguments of the procedure `fade(i, dec, inc, next, propagate)` (R152). -/
structure FadeArgs where
  led : Led
  dec : Channel
  inc : Channel
  nextState : FadeState
  propagate : Bool
  deriving DecidableEq, Repr

/-- One micro-operation of the foreground: one labelled line of an operation rule (R9), with at most one byte access
(R55). The temporaries `v` and `w` of a fade step (R33) are arguments of the lines that use them. -/
inductive MicroOp where
  /-- START m1: `RUN <- 1` (R180). -/
  | setRun
  /-- `MemWrite(TOPO(led, ch), 1, v)` (R130 to R133, R152 f7 to f9). -/
  | write (led : Led) (ch : Channel) (v : Byte)
  /-- `RDATA <- MemRead(TOPO(led, ch), 1)` (R134 to R136). -/
  | read (led : Led) (ch : Channel)
  /-- WAIT m1: `WAITCTR <- ms * TICKS_PER_MS` (R181). -/
  | loadWait (ms : Byte)
  /-- FINIT m1: every `FS[i] <- 0` (R150). -/
  | clearFade
  /-- FINIT m2: `FS[0] <- 1` (R150). -/
  | seedFirst
  /-- FSTEP m1: `s <- FS[led]` and the case split on it (R151). -/
  | fadeSelect (led : Led)
  /-- f1: `v <- dec8(MemRead(TOPO(i, dec), 1))` (R152). -/
  | fadeF1 (f : FadeArgs)
  /-- f2: `if v < 255 then MemWrite(TOPO(i, dec), 1, v)` (R152). -/
  | fadeF2 (f : FadeArgs) (v : Byte)
  /-- f3: `w <- inc8(MemRead(TOPO(i, inc), 1))` (R152). -/
  | fadeF3 (f : FadeArgs)
  /-- f4: `MemWrite(TOPO(i, inc), 1, w)` (R152). -/
  | fadeF4 (f : FadeArgs) (w : Byte)
  /-- f5: `if w = 0 then FS[i] <- next` (R152). -/
  | fadeF5 (f : FadeArgs) (w : Byte)
  /-- f6: the propagation test and `FS[i+1] <- 1` (R152). -/
  | fadeF6 (f : FadeArgs)
  deriving DecidableEq, Repr

/-- One entry of the input trace (R86, R34, R55): what happens next outside the block, in order. -/
inductive TraceItem where
  /-- the timer fires once: the trace word 0xF0000000 (R86). -/
  | tick
  /-- one PWM clock (R37, R201). -/
  | pwmClock
  /-- the host presents a word on the command port (R73). With `cut = some n` the items that follow come after the first
  `n` micro-operations of the command (`@n`, 95_test_vectors.md part 3); with `none` after the whole command. -/
  | command (w : CommandWord) (cut : Option Nat)
  /-- an interrupted foreground goes on for `n` micro-operations, or to the end of its command (R55, R197). -/
  | foreground (cut : Option Nat)
  deriving DecidableEq, Repr

/-- Why a step has no successor. Both are the spec's own "no enabled step". -/
inductive Fault where
  /-- Raised by the step (`Machine/Schedule.lean`) when a WAIT holds the foreground and `RUN = 0`, so no tick can lift the
  hold: "stuck for ever" (R183, U4). `FAULT` stays 0. Safe: the model stops where the hardware hangs. -/
  | hungWait
  /-- Raised by the step (`Machine/Schedule.lean`) when `FAULT` is not 0, `RUN = 0` and no input is left: the foreground is
  halted for good (R190) and no tick is enabled (R194). Safe: the model stops where nothing can happen. -/
  | haltedByFault
  deriving DecidableEq, Repr

/-- What the model gives no meaning. -/
inductive Refusal where
  /-- Raised by an arm of `exec` whose instruction has no meaning yet; no arm is one now. Safe: it stops. -/
  | notModelled (mnemonic : String)
  /-- Raised by START while `RUN = 1`: "The model defines no step for START while `RUN = 1`" (U5, R180, D12). Safe: it
  stops where the spec gives no effect. -/
  | startWhileRunning
  deriving DecidableEq, Repr

/-- The complete state (R20), with the micro-operations in progress (R36), the inputs from outside and the progress
through the tick interval (R109). -/
structure State where
  /-- Light Buffer `LB` (R22): the listed indices, rising, each with a nonzero value; an unlisted index reads 0. -/
  lb : List Host.Cell
  /-- Fade State Table `FS` (R24). -/
  fs : Vector FadeState 13
  /-- Scan Cursor `SC` (R25): the row the next load tick lights. -/
  sc : Row
  /-- Blanking Counter `BC` (R26). -/
  bc : BitVec 3
  /-- Compare registers `CMP` (R27). -/
  cmp : Vector Byte 12
  /-- Row enable `ROWEN` (R28), bit `r` for row `r`. -/
  rowen : BitVec 4
  /-- Wait counter `WAITCTR` (R29). -/
  waitctr : BitVec 16
  /-- Started flag `RUN` (R30). -/
  run : Bool
  /-- Read-data latch `RDATA` (R31). -/
  rdata : Byte
  /-- Fault code `FAULT` (R32). -/
  fault : FaultCode
  /-- PWM phase counter `PWMCNT` (R37). -/
  pwmcnt : Byte
  /-- `FGQ` (R36): the micro-operations the current command still has to perform, next one first. -/
  fgq : List MicroOp
  /-- The model's own: the inputs still to come, next one first (assumption 1). -/
  trace : List TraceItem
  /-- The model's own: after how many micro-operations the next input interrupts the command being issued (assumption 1). -/
  preempt : Option Nat
  /-- The model's own: how many PWM clocks the current tick interval still has (R37, R109, D26); `none` before the first TICK,
  when no interval has begun and the phase is unspecified (U11; assumption 5). -/
  pwmLeft : Option Nat
  deriving DecidableEq, Repr

/-- The launch state (R38, R220): every value the spec gives; `PWMCNT` free (U11); no command in progress, no input, no
tick interval begun. -/
def State.reset : State where
  lb := []
  fs := Vector.replicate 13 .idle
  sc := 0
  bc := 0
  cmp := Vector.replicate 12 0
  rowen := 0
  waitctr := 0
  run := false
  rdata := 0
  fault := .noFault
  pwmcnt := Config.pwmcntAtReset
  fgq := []
  trace := []
  preempt := none
  pwmLeft := none

end Sys2Proof.Machine
end

