-- ==== Sys2Proof/Machine/Flags.lean ====
section
/-!
DEFINITION. Machine/Flags.lean: the byte arithmetic of a brightness value and the two tests of a fade step. The block
keeps no status flag (R35): both tests are computed and consumed inside one FSTEP (R152). Also the counters' decrements.
-/

namespace Sys2Proof.Machine

/-- `inc8(a) = (a + 1) mod 256` (R8). -/
def inc8 (a : Byte) : Byte := a + 1

/-- `dec8(a) = (a - 1) mod 256` (R8). -/
def dec8 (a : Byte) : Byte := a - 1

/-- The guard of f2: the post-decrement value is below 255, so the subtraction did not wrap (R152, R157). -/
def belowWrap (v : Byte) : Bool := v.ult 255

/-- The transition test of f5: the incremented value wrapped to 0 (R152, R158). -/
def wrappedToZero (w : Byte) : Bool := w == 0

/-- A counter "decremented only when nonzero" (R8): the Blanking Counter and the wait counter. -/
def decNonzero {n : Nat} (x : BitVec n) : BitVec n := if x = 0 then x else x - 1

end Sys2Proof.Machine
end

