-- ==== Sys2Proof/Machine/Operands.lean ====
section
/-!
DEFINITION. Machine/Operands.lean: the operand forms and address computations. The one operand that needs a check is the
LED index (R82); the one addressing mode of the foreground is `TOPO(idx, ch)` (R51, R138); the tick's is `row * 12 + column`
(R51); a row pattern is one-hot or all-off (R72).
-/

namespace Sys2Proof.Machine

/-- The legal LED indices: 0..12 give a LED, 13, 14 and 15 give none (R76, R82). -/
def ledOfIdx (idx : Nibble) : Option Led :=
  if h : idx.toNat < 13 then some ⟨idx.toNat, h⟩ else none

/-- "the address of column `c` of row `r` is `r * 12 + c`" (R51). -/
def columnAddr (r : Row) (c : Column) : BufferIndex :=
  ⟨r.toNat * 12 + c.val, by have := r.isLt; have := c.isLt; omega⟩

/-- The row of a Light Buffer entry: `k div 12` (R22). -/
def rowOf (k : BufferIndex) : Row := BitVec.ofNat 2 (k.val / 12)

/-- The column of a Light Buffer entry: `k mod 12` (R22). -/
def columnOf (k : BufferIndex) : Column := ⟨k.val % 12, Nat.mod_lt _ (by decide)⟩

/-- `onehot(r)`: bit `r` set and the others clear (R7). -/
def onehot (r : Row) : BitVec 4 := 1#4 <<< r.toNat

/-- "`0b0000` all off" (R72). -/
def allRowsOff : BitVec 4 := 0

/-- The five patterns `set_source` may be given (R72, R101). -/
def legalRowPattern (m : BitVec 4) : Bool :=
  m == 0b0000#4 || m == 0b0001#4 || m == 0b0010#4 || m == 0b0100#4 || m == 0b1000#4

/-- The twelve columns in ascending order: "`for c in 0..11` runs in ascending order" (R9). -/
def columns : List Column := [0, 1, 2, 3, 4, 5, 6, 7, 8, 9, 10, 11]

/-- The value of a colour's channel among the operands `r, g, b` of SET_LED (R76). -/
def colourOf (r g b : Byte) : Channel → Byte
  | .red => r
  | .green => g
  | .blue => b

/-- The LED after `i` in the topology list, for `i < 12` (R152 f6). -/
def nextLed (i : Led) : Option Led :=
  if h : i.val + 1 < 13 then some ⟨i.val + 1, h⟩ else none

/-- `ms * TICKS_PER_MS` (R181): the field is taken as an unsigned number and scaled when `WAITCTR` is loaded (R76). -/
def waitTicks (ms : Byte) : BitVec 16 := ms.setWidth 16 * Config.ticksPerMs

end Sys2Proof.Machine
end

