-- ==== Sys2Proof/Machine/Ops.lean ====
section
/-!
DEFINITION. Machine/Ops.lean: the named operations over the state. The Light Buffer's byte accesses (R52), the two output
services (R100, R101), the micro-operations of the foreground (R9, R55, R152), how a command is issued (R73, R82) and how a
fault is raised (R190). There is no return from a fault ("no handler, no vector, no saved state and no recovery", R190) and
none from a tick: TICK runs to completion and the foreground resumes at its next micro-operation (R197, R198).
-/

namespace Sys2Proof.Machine

/-- What an index that is not listed reads as: the reset contents of the Light Buffer (R38). -/
def unlisted : Byte := 0

/-- The byte at an index: `MemRead(k, 1)` (R9, R52). A read changes nothing (R57). -/
def Memory.read : List Host.Cell → Nat → Byte
  | [], _ => unlisted
  | (k, v) :: rest, a => if k = a then v else Memory.read rest a

/-- The cells at other indices than `a`. -/
def Memory.erase (m : List Host.Cell) (a : Nat) : List Host.Cell := m.filter (fun c => decide (c.1 ≠ a))

/-- Lists a cell before the first one with a greater index. -/
def Memory.insert (a : Nat) (v : Byte) : List Host.Cell → List Host.Cell
  | [] => [(a, v)]
  | (k, b) :: rest => if a < k then (a, v) :: (k, b) :: rest else (k, b) :: Memory.insert a v rest

/-- `MemWrite(k, 1, v)` (R9, R52): one byte, nothing else (R57). -/
def Memory.write (m : List Host.Cell) (a : Nat) (v : Byte) : List Host.Cell :=
  if v = unlisted then Memory.erase m a else Memory.insert a v (Memory.erase m a)

/-- The canonical form: indices strictly rising and in the buffer (R50), no cell equal to what an unlisted index reads as. -/
def Memory.wf (m : List Host.Cell) : Bool :=
  decide (m.Pairwise (fun c d => c.1 < d.1)) && m.all (fun c => decide (c.1 < 48) && c.2 != unlisted)

/-- `LB[k]` (R9). -/
def State.readLB (s : State) (k : BufferIndex) : Byte := Memory.read s.lb k.val

/-- `LB[k] <- v` (R9). -/
def State.writeLB (s : State) (k : BufferIndex) (v : Byte) : State := { s with lb := Memory.write s.lb k.val v }

/-- `FS[i] <- x` (R9). -/
def State.writeFS (s : State) (i : Led) (x : FadeState) : State := { s with fs := s.fs.set i.val x }

/-- `set_compare(c, v)`: `CMP[c] <- v` (R100). -/
def State.setCompare (s : State) (c : Column) (v : Byte) : State := { s with cmp := s.cmp.set c.val v }

/-- `set_source(m)`: `ROWEN <- m` (R101). -/
def State.setSource (s : State) (m : BitVec 4) : State := { s with rowen := m }

/-- `RUN <- 1` (R180). -/
def State.setRun (s : State) : State := { s with run := true }

/-- `RDATA <- v` (R31). -/
def State.latch (s : State) (v : Byte) : State := { s with rdata := v }

/-- `WAITCTR <- n` (R29). -/
def State.setWait (s : State) (n : BitVec 16) : State := { s with waitctr := n }

/-- Every `FS[i] <- x`. -/
def State.fillFS (s : State) (x : FadeState) : State := { s with fs := Vector.replicate 13 x }

/-- `BC <- n` (R26). -/
def State.setBlank (s : State) (n : BitVec 3) : State := { s with bc := n }

/-- `SC <- r` (R25). -/
def State.setCursor (s : State) (r : Row) : State := { s with sc := r }

/-- The micro-operations still to perform become these (R36). -/
def State.setQueue (s : State) (q : List MicroOp) : State := { s with fgq := q }

/-- No input interrupts the foreground at a point already passed. -/
def State.uncut (s : State) : State := { s with preempt := none }

/-- Micro-operations the current one puts in front of the rest of the command. -/
def State.proceed (s : State) (ops : List MicroOp) : State := s.setQueue (ops ++ s.fgq)

/-- The arguments FSTEP gives `fade` in each state; idle does nothing (R151, R153 to R156). -/
def fadeArgs (i : Led) : FadeState → Option FadeArgs
  | .idle => none
  | .blueToRed => some ⟨i, .blue, .red, .redToGreen, true⟩
  | .redToGreen => some ⟨i, .red, .green, .greenToBlue, false⟩
  | .greenToBlue => some ⟨i, .green, .blue, .blueToRed, false⟩

/-- The three writes of `SET_LED i, r, g, b` in `SETLED_ORDER` (R130), one per micro-operation. -/
def setLedOps (order : ChannelOrder) (i : Led) (r g b : Byte) : List MicroOp :=
  [.write i order.first (colourOf r g b order.first),
   .write i order.second (colourOf r g b order.second),
   .write i order.third (colourOf r g b order.third)]

/-- f6 of R152: the LED that `f` seeds, if any: `propagate`, `i < 12` and `FS[i+1] = 0`. -/
def seededLed (f : FadeArgs) (s : State) : Option Led :=
  match nextLed f.led with
  | some j => if f.propagate = true ∧ s.fs[j.val] = .idle then some j else none
  | none => none

/-- Performs one micro-operation (R9); the rest of the command is in `fgq`. -/
def perform (p : Config.Params) (op : MicroOp) (s : State) : State :=
  match op with
  | .setRun => s.setRun
  | .write i ch v => s.writeLB (p.topo i ch) v
  | .read i ch => s.latch (s.readLB (p.topo i ch))
  | .loadWait ms => s.setWait (waitTicks ms)
  | .clearFade => s.fillFS .idle
  | .seedFirst => s.writeFS 0 .blueToRed
  | .fadeSelect i =>
    match fadeArgs i s.fs[i.val] with
    | none => s
    | some f => s.proceed [.fadeF1 f]
  | .fadeF1 f => s.proceed [.fadeF2 f (dec8 (s.readLB (p.topo f.led f.dec)))]
  | .fadeF2 f v => (if belowWrap v then s.writeLB (p.topo f.led f.dec) v else s).proceed [.fadeF3 f]
  | .fadeF3 f => s.proceed [.fadeF4 f (inc8 (s.readLB (p.topo f.led f.inc)))]
  | .fadeF4 f w => (s.writeLB (p.topo f.led f.inc) w).proceed [.fadeF5 f w]
  | .fadeF5 f w => if wrappedToZero w then (s.writeFS f.led f.nextState).proceed [.fadeF6 f] else s
  | .fadeF6 f =>
    match seededLed f s with
    | none => s
    | some j => (s.writeFS j .blueToRed).proceed (setLedOps p.setLedOrder j 0 0 0)

/-- The most micro-operations a queued one can still lead to, itself included (R152: m1, f1 to f9). -/
def MicroOp.work : MicroOp → Nat
  | .setRun => 1
  | .write _ _ _ => 1
  | .read _ _ => 1
  | .loadWait _ => 1
  | .clearFade => 1
  | .seedFirst => 1
  | .fadeSelect _ => 10
  | .fadeF1 _ => 9
  | .fadeF2 _ _ => 8
  | .fadeF3 _ => 7
  | .fadeF4 _ _ => 6
  | .fadeF5 _ _ => 5
  | .fadeF6 _ => 4

/-- The most micro-operations a queue can still lead to. -/
def queueWork : List MicroOp → Nat
  | [] => 0
  | op :: rest => op.work + queueWork rest

/-- The foreground performs its next micro-operation, if it has one (R55(a)). -/
def foregroundStep (p : Config.Params) (s : State) : State :=
  match s.fgq with
  | [] => s
  | op :: rest => perform p op (s.setQueue rest)

/-- The foreground performs its next `n` micro-operations, or as many as the command has left. -/
def drain (p : Config.Params) : Nat → State → State
  | 0, s => s
  | n + 1, s =>
    match s.fgq with
    | [] => s
    | _ :: _ => drain p n (foregroundStep p s)

/-- The foreground runs until the next event interrupts it (`preempt`), or to the end of its command (R55(c), R197). -/
def runForeground (p : Config.Params) (s : State) : State :=
  match s.preempt with
  | none => (drain p (queueWork s.fgq) s).uncut
  | some n => (drain p n s).uncut

/-- "A command is accepted only when the previous command has completed (its micro-operations are all done and, for
WAIT, `WAITCTR` has reached 0)" (R73), and never once a fault has been raised (R190). -/
def State.accepting (s : State) : Bool := s.fault == .noFault && s.fgq.isEmpty && s.waitctr == 0

/-- `raise F` (R190): the code is recorded if none was, and the command is abandoned with no other effect. -/
def raiseFault (f : FaultCode) (s : State) : State :=
  { s with fault := if s.fault = .noFault then f else s.fault, preempt := none }

/-- Issues a command without an index. One that is not accepted is turned away with no effect (R73, R190). -/
def issue (p : Config.Params) (ops : List MicroOp) (s : State) : Host.Outcome State Fault Refusal :=
  if s.accepting then .next (runForeground p (s.setQueue ops)) else .next s.uncut

/-- Issues a command with an index: `m0`, "if idx > 12 then raise IndexFault", before any micro-operation (R82, R138). -/
def issueIndexed (p : Config.Params) (idx : Nibble) (ops : Led → List MicroOp) (s : State) :
    Host.Outcome State Fault Refusal :=
  if s.accepting then
    match ledOfIdx idx with
    | some i => .next (runForeground p (s.setQueue (ops i)))
    | none => .next (raiseFault .indexFault s)
  else .next s.uncut

end Sys2Proof.Machine
end

