-- ==== Sys2Proof/Machine/Accessors.lean ====
section
/-!
DEFINITION. Machine/Accessors.lean: the seven accessors of the Light Buffer (R130 to R138). Each checks its index first
and then performs one byte access per micro-operation at `TOPO(idx, ch)`.
-/

namespace Sys2Proof.Machine

/-- SET_LED (R130): three one-byte writes in `SETLED_ORDER`. -/
def execSetLed (idx : Nibble) (r g b : Byte) (s : State) : Host.Outcome State Fault Refusal :=
  issueIndexed Config.params idx (fun i => setLedOps Config.params.setLedOrder i r g b) s

/-- SET_RED (R131). -/
def execSetRed (idx : Nibble) (v : Byte) (s : State) : Host.Outcome State Fault Refusal :=
  issueIndexed Config.params idx (fun i => [.write i .red v]) s

/-- SET_GREEN (R132). -/
def execSetGreen (idx : Nibble) (v : Byte) (s : State) : Host.Outcome State Fault Refusal :=
  issueIndexed Config.params idx (fun i => [.write i .green v]) s

/-- SET_BLUE (R133). -/
def execSetBlue (idx : Nibble) (v : Byte) (s : State) : Host.Outcome State Fault Refusal :=
  issueIndexed Config.params idx (fun i => [.write i .blue v]) s

/-- GET_RED (R134): the result is latched in `RDATA` (R31). -/
def execGetRed (idx : Nibble) (s : State) : Host.Outcome State Fault Refusal :=
  issueIndexed Config.params idx (fun i => [.read i .red]) s

/-- GET_GREEN (R135). -/
def execGetGreen (idx : Nibble) (s : State) : Host.Outcome State Fault Refusal :=
  issueIndexed Config.params idx (fun i => [.read i .green]) s

/-- GET_BLUE (R136). -/
def execGetBlue (idx : Nibble) (s : State) : Host.Outcome State Fault Refusal :=
  issueIndexed Config.params idx (fun i => [.read i .blue]) s

end Sys2Proof.Machine
end

