-- ==== Sys2Proof/Machine/Fade.lean ====
section
/-!
DEFINITION. Machine/Fade.lean: the fade state machine's two commands (R150, R151). The lines f1 to f9 of R152 are
micro-operations of `perform` (Machine/Ops.lean).
-/

namespace Sys2Proof.Machine

/-- FINIT (R150): m1 makes every LED idle, m2 seeds LED 0; the Light Buffer is not touched. -/
def execFinit (s : State) : Host.Outcome State Fault Refusal := issue Config.params [.clearFade, .seedFirst] s

/-- FSTEP (R151): m1 reads the LED's state and starts `fade` with that state's arguments. -/
def execFstep (idx : Nibble) (s : State) : Host.Outcome State Fault Refusal :=
  issueIndexed Config.params idx (fun i => [.fadeSelect i]) s

end Sys2Proof.Machine
end

