-- ==== Sys2Proof/Machine/Scan.lean ====
section
/-!
DEFINITION. Machine/Scan.lean: TICK, the scan operation of the interrupt context (R103). It is one atomic step for the
foreground (R55); its own steps t0 to t3e are kept apart so that the instants inside a tick can be spoken of (R106).
-/

namespace Sys2Proof.Machine

/-- One step inside a TICK, in the labels of R103; the two loops are one step per column. -/
inductive TickStep where
  /-- t0 -/
  | decWait
  /-- t1 -/
  | decBlank
  /-- t2, one column: `set_compare(c, 0)` -/
  | blank (c : Column)
  /-- t3a -/
  | reload
  /-- t3b -/
  | rowsOff
  /-- t3c, one column: `set_compare(c, MemRead(SC * 12 + c, 1))` -/
  | load (c : Column)
  /-- t3d -/
  | rowOn
  /-- t3e -/
  | advance
  deriving DecidableEq, Repr

/-- What each step does (R103). -/
def performTick (t : TickStep) (s : State) : State :=
  match t with
  | .decWait => s.setWait (decNonzero s.waitctr)
  | .decBlank => s.setBlank (decNonzero s.bc)
  | .blank c => s.setCompare c 0
  | .reload => s.setBlank Config.blankReload
  | .rowsOff => s.setSource allRowsOff
  | .load c => s.setCompare c (s.readLB (columnAddr s.sc c))
  | .rowOn => s.setSource (onehot s.sc)
  | .advance => s.setCursor (s.sc + 1)

/-- "The test of step 2 uses the value of `BC` after step 1" (R103): a tick that finds `BC` at 0 or 1 is a load tick. -/
def State.loadsNext (s : State) : Bool := decNonzero s.bc == 0

/-- The steps of a blank tick: t0, t1, t2. -/
def blankTickSteps : List TickStep := [.decWait, .decBlank] ++ columns.map .blank

/-- The steps of a load tick: t0, t1, t3a to t3e. -/
def loadTickSteps : List TickStep :=
  [.decWait, .decBlank, .reload, .rowsOff] ++ columns.map .load ++ [.rowOn, .advance]

/-- The steps the next TICK takes, in order (R103). -/
def tickSteps (s : State) : List TickStep := if s.loadsNext then loadTickSteps else blankTickSteps

/-- One TICK from its first step to its last (R103). -/
def tick (s : State) : State := (tickSteps s).foldl (fun t x => performTick x t) s

/-- The states a TICK passes through, from the one it starts in to the one it ends in (R106). -/
def tickInstants (s : State) : List State := (tickSteps s).scanl (fun t x => performTick x t) s

/-- `n` TICKs one after the other. -/
def ticks : Nat → State → State
  | 0, s => s
  | n + 1, s => ticks n (tick s)

/-- The TICK event (R103): enabled exactly while `RUN = 1` (R194); while `RUN = 0` "no TICK occurs", so nothing changes. -/
def execTick (s : State) : Host.Outcome State Fault Refusal := if s.run then .next (tick s) else .next s

end Sys2Proof.Machine
end

