-- ==== Sys2Proof/Machine/System.lean ====
section
/-!
DEFINITION. Machine/System.lean: START (R180) and WAIT (R181).
-/

namespace Sys2Proof.Machine

/-- START m1: `RUN <- 1` (R180). "The model defines no step for START while `RUN = 1`" (U5). -/
def execStart (s : State) : Host.Outcome State Fault Refusal :=
  if s.accepting && s.run then .refused .startWhileRunning else issue Config.params [.setRun] s

/-- WAIT: m1 loads the counter; m2 "is a hold, not a step" (R181), kept by `accepting` and by the step. -/
def execWait (ms : Byte) (s : State) : Host.Outcome State Fault Refusal := issue Config.params [.loadWait ms] s

end Sys2Proof.Machine
end

