-- ==== Sys2Proof/Syntax.lean ====
section
/-!
DEFINITION. Syntax.lean: the instruction set, one constructor per row of spec/opcode_table.json: 11 commands and the
TICK event (R80). Operands are the fields of the command word as rule R76 takes them: unsigned immediates. `idx` is the
4-bit field, so that 13, 14 and 15 exist and fault (R82).
-/

namespace Sys2Proof

inductive Instr where
  /-- START (R180). -/
  | start
  /-- SET_LED idx, r, g, b (R130). -/
  | setLed (idx : Nibble) (r g b : Byte)
  /-- SET_RED idx, v (R131). -/
  | setRed (idx : Nibble) (v : Byte)
  /-- SET_GREEN idx, v (R132). -/
  | setGreen (idx : Nibble) (v : Byte)
  /-- SET_BLUE idx, v (R133). -/
  | setBlue (idx : Nibble) (v : Byte)
  /-- GET_RED idx (R134). -/
  | getRed (idx : Nibble)
  /-- GET_GREEN idx (R135). -/
  | getGreen (idx : Nibble)
  /-- GET_BLUE idx (R136). -/
  | getBlue (idx : Nibble)
  /-- WAIT ms (R181). -/
  | wait (ms : Byte)
  /-- FINIT (R150). -/
  | finit
  /-- FSTEP idx (R151). -/
  | fstep (idx : Nibble)
  /-- TICK, an event code and not a command (R86, R103). -/
  | tick
  deriving DecidableEq, Repr

end Sys2Proof
end

