-- ==== Sys2Proof/Machine/Dispatch.lean ====
section
/-!
DEFINITION. Machine/Dispatch.lean: one arm per instruction (R80), each one call of its meaning.
-/

namespace Sys2Proof.Machine

open Host

def exec (i : Instr) (s : State) : Host.Outcome State Fault Refusal :=
  match i with
  | .start => Sys2Proof.Machine.execStart s
  | .setLed idx r g b => Sys2Proof.Machine.execSetLed idx r g b s
  | .setRed idx v => Sys2Proof.Machine.execSetRed idx v s
  | .setGreen idx v => Sys2Proof.Machine.execSetGreen idx v s
  | .setBlue idx v => Sys2Proof.Machine.execSetBlue idx v s
  | .getRed idx => Sys2Proof.Machine.execGetRed idx s
  | .getGreen idx => Sys2Proof.Machine.execGetGreen idx s
  | .getBlue idx => Sys2Proof.Machine.execGetBlue idx s
  | .wait ms => Sys2Proof.Machine.execWait ms s
  | .finit => Sys2Proof.Machine.execFinit s
  | .fstep idx => Sys2Proof.Machine.execFstep idx s
  | .tick => Sys2Proof.Machine.execTick s

end Sys2Proof.Machine
end

