-- ==== Sys2Proof/Decode.lean ====
section
/-!
DEFINITION. Decode.lean: the command word (R73, R74, R76), the opcode map (R80), the reserved encodings (R81), the
byte form a harness stores words in (R53), and the encoder. `decode` reads the opcode map, where 0xF0000000 is TICK's
event code; `decodePort` reads a word the foreground presents on the command port, where that word is reserved (R86).
-/

namespace Sys2Proof

/-- Why a word selects no operation (R81). -/
inductive DecodeError where
  /-- `op` is 0x0, 0xC, 0xD or 0xE. -/
  | reservedOpcode (op : Nibble)
  /-- a field the word's format says must be 0 is not 0. -/
  | nonzeroField
  /-- TICK's event code on the command port. -/
  | tickOnPort
  deriving DecidableEq, Repr

/-- `op = word[31:28]` (R74). -/
def CommandWord.op (w : CommandWord) : Nibble := w.extractLsb' 28 4
/-- `idx = word[27:24]` (R74). -/
def CommandWord.idx (w : CommandWord) : Nibble := w.extractLsb' 24 4
/-- `a = word[23:16]` (R74). -/
def CommandWord.a (w : CommandWord) : Byte := w.extractLsb' 16 8
/-- `b = word[15:8]` (R74). -/
def CommandWord.b (w : CommandWord) : Byte := w.extractLsb' 8 8
/-- `c = word[7:0]` (R74). -/
def CommandWord.c (w : CommandWord) : Byte := w.extractLsb' 0 8

/-- Format Z (R74): `idx`, `a`, `b`, `c` must all be 0. -/
def decodeZ (w : CommandWord) (i : Instr) : Except DecodeError Instr :=
  if CommandWord.idx w = 0 ∧ CommandWord.a w = 0 ∧ CommandWord.b w = 0 ∧ CommandWord.c w = 0 then .ok i
  else .error .nonzeroField

/-- Format I (R74): `a`, `b`, `c` must be 0. -/
def decodeI (w : CommandWord) (i : Nibble → Instr) : Except DecodeError Instr :=
  if CommandWord.a w = 0 ∧ CommandWord.b w = 0 ∧ CommandWord.c w = 0 then .ok (i (CommandWord.idx w))
  else .error .nonzeroField

/-- Format IV (R74): `b`, `c` must be 0. -/
def decodeIV (w : CommandWord) (i : Nibble → Byte → Instr) : Except DecodeError Instr :=
  if CommandWord.b w = 0 ∧ CommandWord.c w = 0 then .ok (i (CommandWord.idx w) (CommandWord.a w))
  else .error .nonzeroField

/-- Format IRGB (R74): no field must be 0. -/
def decodeIRGB (w : CommandWord) (i : Nibble → Byte → Byte → Byte → Instr) : Except DecodeError Instr :=
  .ok (i (CommandWord.idx w) (CommandWord.a w) (CommandWord.b w) (CommandWord.c w))

/-- Format M (R74): `idx`, `b`, `c` must be 0. -/
def decodeM (w : CommandWord) (i : Byte → Instr) : Except DecodeError Instr :=
  if CommandWord.idx w = 0 ∧ CommandWord.b w = 0 ∧ CommandWord.c w = 0 then .ok (i (CommandWord.a w))
  else .error .nonzeroField

/-- The opcode map, all 16 values of `op` (R80, R81). -/
def decode (w : CommandWord) : Except DecodeError Instr :=
  match (CommandWord.op w).toNat with
  | 0x1 => decodeZ w .start
  | 0x2 => decodeIRGB w .setLed
  | 0x3 => decodeIV w .setRed
  | 0x4 => decodeIV w .setGreen
  | 0x5 => decodeIV w .setBlue
  | 0x6 => decodeI w .getRed
  | 0x7 => decodeI w .getGreen
  | 0x8 => decodeI w .getBlue
  | 0x9 => decodeM w .wait
  | 0xA => decodeZ w .finit
  | 0xB => decodeI w .fstep
  | 0xF => decodeZ w .tick
  | _ => .error (.reservedOpcode (CommandWord.op w))

/-- A word on the command port: "A TICK word presented on the command port by the foreground is a `ReservedEncoding`
fault like any other word that selects no command" (R86). -/
def decodePort (w : CommandWord) : Except DecodeError Instr :=
  match decode w with
  | .ok .tick => .error .tickOnPort
  | r => r

/-- One word from its five fields (R74). -/
def packWord (op idx : Nibble) (a b c : Byte) : CommandWord := op ++ idx ++ a ++ b ++ c

/-- The word of an instruction (R74, R76, R80). -/
def encode : Instr → CommandWord
  | .start => packWord 0x1 0 0 0 0
  | .setLed idx r g b => packWord 0x2 idx r g b
  | .setRed idx v => packWord 0x3 idx v 0 0
  | .setGreen idx v => packWord 0x4 idx v 0 0
  | .setBlue idx v => packWord 0x5 idx v 0 0
  | .getRed idx => packWord 0x6 idx 0 0 0
  | .getGreen idx => packWord 0x7 idx 0 0 0
  | .getBlue idx => packWord 0x8 idx 0 0 0
  | .wait ms => packWord 0x9 0 ms 0 0
  | .finit => packWord 0xA 0 0 0 0
  | .fstep idx => packWord 0xB idx 0 0 0
  | .tick => packWord 0xF 0 0 0 0

/-- One row of the opcode map as rule R80 prints it: a word selects the row when `w AND mask = pattern`. -/
structure OpcodeRow where
  mnemonic : String
  pattern : CommandWord
  mask : CommandWord
  deriving DecidableEq, Repr

/-- `w AND mask = match` (R80). -/
def OpcodeRow.selects (row : OpcodeRow) (w : CommandWord) : Bool := w &&& row.mask == row.pattern

/-- The twelve rows of R80, in the order of spec/opcode_table.json. -/
def opcodeRows : List OpcodeRow :=
  [⟨"START", 0x10000000, 0xFFFFFFFF⟩,
   ⟨"SET_LED", 0x20000000, 0xF0000000⟩,
   ⟨"SET_RED", 0x30000000, 0xF000FFFF⟩,
   ⟨"SET_GREEN", 0x40000000, 0xF000FFFF⟩,
   ⟨"SET_BLUE", 0x50000000, 0xF000FFFF⟩,
   ⟨"GET_RED", 0x60000000, 0xF0FFFFFF⟩,
   ⟨"GET_GREEN", 0x70000000, 0xF0FFFFFF⟩,
   ⟨"GET_BLUE", 0x80000000, 0xF0FFFFFF⟩,
   ⟨"WAIT", 0x90000000, 0xFF00FFFF⟩,
   ⟨"FINIT", 0xA0000000, 0xFFFFFFFF⟩,
   ⟨"FSTEP", 0xB0000000, 0xF0FFFFFF⟩,
   ⟨"TICK", 0xF0000000, 0xFFFFFFFF⟩]

/-- The row of R80 an instruction belongs to. -/
def Instr.row : Instr → OpcodeRow
  | .start => ⟨"START", 0x10000000, 0xFFFFFFFF⟩
  | .setLed _ _ _ _ => ⟨"SET_LED", 0x20000000, 0xF0000000⟩
  | .setRed _ _ => ⟨"SET_RED", 0x30000000, 0xF000FFFF⟩
  | .setGreen _ _ => ⟨"SET_GREEN", 0x40000000, 0xF000FFFF⟩
  | .setBlue _ _ => ⟨"SET_BLUE", 0x50000000, 0xF000FFFF⟩
  | .getRed _ => ⟨"GET_RED", 0x60000000, 0xF0FFFFFF⟩
  | .getGreen _ => ⟨"GET_GREEN", 0x70000000, 0xF0FFFFFF⟩
  | .getBlue _ => ⟨"GET_BLUE", 0x80000000, 0xF0FFFFFF⟩
  | .wait _ => ⟨"WAIT", 0x90000000, 0xFF00FFFF⟩
  | .finit => ⟨"FINIT", 0xA0000000, 0xFFFFFFFF⟩
  | .fstep _ => ⟨"FSTEP", 0xB0000000, 0xF0FFFFFF⟩
  | .tick => ⟨"TICK", 0xF0000000, 0xFFFFFFFF⟩

/-- The four bytes of a stored command word, "most significant byte first" (R53). -/
def bytesOfWord (w : CommandWord) : List Byte :=
  [w.extractLsb' 24 8, w.extractLsb' 16 8, w.extractLsb' 8 8, w.extractLsb' 0 8]

/-- Reads one stored command word off a byte list and gives the rest; `none` when fewer than four bytes are left. -/
def wordOfBytes : List Byte → Option (CommandWord × List Byte)
  | b3 :: b2 :: b1 :: b0 :: rest => some (b3 ++ b2 ++ b1 ++ b0, rest)
  | _ => none

/-- Decodes one stored word from the front of any byte list (R53, R80). -/
def decodeBytes (bytes : List Byte) : Option (Except DecodeError Instr × List Byte) :=
  match wordOfBytes bytes with
  | some (w, rest) => some (decode w, rest)
  | none => none

/-- The instruction the decoder reads from a table row's bits: the word is stored as its four bytes, most significant
first (R53), and read back by `decodeBytes`. A number that does not fit in one command word is no instruction. -/
def decodeTableWord (nbits w : Nat) : Option Instr :=
  if w % 2 ^ nbits < 2 ^ 32 then
    match decodeBytes (bytesOfWord (BitVec.ofNat 32 (w % 2 ^ nbits))) with
    | some (.ok i, _) => some i
    | _ => none
  else none

end Sys2Proof
end

