-- ==== Sys2Proof/Machine/Display.lean ====
section
/-!
DEFINITION. Machine/Display.lean: what the outputs do with the state. The PWM clock (R37, R201), the comparators (R107),
what lights a LED (R108), the pins (R28, R72) and the drive record of a tick interval (R109). None of it is written back:
the comparators "change no stored state" (R10).
-/

namespace Sys2Proof.Machine

/-- One PWM clock: the free-running counter counts 0 to 255 and wraps (R37, R107). It is one of the clocks of the current
tick interval, if one has begun. -/
def pwmClock (s : State) : State := { s with pwmcnt := s.pwmcnt + 1, pwmLeft := s.pwmLeft.map (· - 1) }

/-- `n` PWM clocks. -/
def pwmClocks : Nat → State → State
  | 0, s => s
  | n + 1, s => pwmClocks n (pwmClock s)

/-- PWM clocks in one tick interval: it is a whole number `PWM_PERIODS_PER_TICK` of PWM periods of 256 counts (R37, R109,
D26). -/
def pwmClocksPerTick (p : Config.Params) : Nat := 256 * (p.pwmPeriodsPerTick : Nat)

/-- A TICK is due: the current tick interval has had all its PWM clocks, so the tick comes before the next one (R37, R109). -/
def State.tickDue (s : State) : Bool := s.run && s.pwmLeft == some 0

/-- A tick interval ends and the next one begins, while the tick runs (R194): the PWM clocks that the interval still has
elapse, and the new one has `PWM_PERIODS_PER_TICK` periods of them (R37, R109, D26). The first TICK has no interval before
it to end (U11; assumption 5). -/
def endInterval (s : State) : State :=
  if s.run then
    { s with
      pwmcnt := s.pwmcnt + BitVec.ofNat 8 (s.pwmLeft.getD 0)
      pwmLeft := some (pwmClocksPerTick Config.params) }
  else s

/-- The comparator: "column output `COL[c]` is asserted exactly while `PWMCNT < CMP[c]` (unsigned)" (R107). -/
def State.columnOn (s : State) (c : Column) : Bool := s.pwmcnt.ult s.cmp[c.val]

/-- Row `r`'s source line is asserted: bit `r` of `ROWEN` (R28). -/
def State.rowOnLine (s : State) (r : Row) : Bool := s.rowen.getLsbD r.toNat

/-- Matrix position `(r, c)` conducts: "exactly when `ROWEN[r] = 1` and `COL[c]` is asserted" (R108). -/
def State.conducts (s : State) (r : Row) (c : Column) : Bool := s.rowOnLine r && s.columnOn c

/-- Channel `ch` of LED `i` conducts: its row and column are `TOPO(i, ch) div 12` and `mod 12` (R108). -/
def State.channelConducts (p : Config.Params) (s : State) (i : Led) (ch : Channel) : Bool :=
  s.conducts (rowOf (p.topo i ch)) (columnOf (p.topo i ch))

/-- The pin pattern: the complement of `ROWEN` when the lines are active low, else `ROWEN` (R28, R72). -/
def rowPins (polarity : RowPolarity) (s : State) : BitVec 4 :=
  match polarity with
  | .activeLow => s.rowen ^^^ 0b1111#4
  | .activeHigh => s.rowen

/-- The pins, by the parameter `ROW_ACTIVE_LOW` (R6). -/
def State.pins (p : Config.Params) (s : State) : BitVec 4 := rowPins p.rowPolarity s

/-- The drive record of a tick interval (R109). -/
structure DriveRecord where
  rowen : BitVec 4
  cmp : Vector Byte 12
  deriving DecidableEq, Repr

/-- `(ROWEN, CMP[0..11])`, what the host watches (R109, R237). -/
def State.driveRecord (s : State) : DriveRecord := ⟨s.rowen, s.cmp⟩

/-- The brightness delivered to `(r, c)` over one tick interval, in units of 1/256 of it (R109). -/
def State.delivered (s : State) (r : Row) (c : Column) : Nat := if s.rowOnLine r then (s.cmp[c.val]).toNat else 0

end Sys2Proof.Machine
end

