-- ==== Sys2Proof/Machine/Schedule.lean ====
section
/-!
DEFINITION. Machine/Schedule.lean: which of the agents moves next (R55, R196, R197). The order of commands, ticks and PWM
clocks is input data (`trace`, R86). Where only one agent has an enabled step, that step is taken whether the trace names it
or not: an interrupted foreground goes on (R197), and a tick lifts a WAIT's hold (R181). The PWM clock is tied to the tick: a
tick interval has `PWM_PERIODS_PER_TICK` periods of PWM clocks, no more and no fewer (R37, R109, D26). Machine/Step.lean only
calls this.
-/

namespace Sys2Proof.Machine

/-- What the block does next. -/
inductive Event where
  /-- an instruction is executed in the state given. -/
  | instr (i : Instr) (s : State)
  /-- the tick event, in the state given: the tick interval ends and TICK is executed. -/
  | tick (s : State)
  /-- one PWM clock, in the state given. -/
  | clock (s : State)
  /-- a step that is no instruction leads to the state given. -/
  | move (s : State)
  /-- no agent has an enabled step. -/
  | stuck (f : Fault)
  deriving DecidableEq, Repr

/-- The foreground waits: WAIT's hold "m2: hold until WAITCTR = 0" (R181). Only a TICK is enabled; without RUN none is, and
the block hangs (R183, U4). -/
def holdEvent (s : State) : Event := if s.run then .tick s else .stuck .hungWait

/-- The host's word is at the command port (R73). It is taken when the previous command has completed; a word that selects
no command raises `ReservedEncoding` (R81, R82, R192). -/
def portEvent (w : CommandWord) (cut : Option Nat) (rest : List TraceItem) (s : State) : Event :=
  if s.fgq.isEmpty = false then .move (runForeground Config.params s.uncut)
  else if s.waitctr ≠ 0 then holdEvent s
  else match decodePort w with
    | .ok i => .instr i { s with trace := rest, preempt := cut }
    | .error _ => .move (raiseFault .reservedEncoding { s with trace := rest })

/-- No input is left: a command in progress goes on, and "The tick never stops" (R236). With `RUN = 0` a WAIT hangs (R183),
a faulted block is halted (R190), and in an idle block only the PWM clock goes on (R37). -/
def idleEvent (s : State) : Event :=
  if s.fgq.isEmpty = false then .move (runForeground Config.params s.uncut)
  else if s.run then .tick s
  else if s.waitctr ≠ 0 then .stuck .hungWait
  else if s.fault ≠ .noFault then .stuck .haltedByFault
  else .clock s

/-- The next input is a PWM clock. When a TICK is due it comes first, and the clock stays where it is (R37, R109). -/
def clockEvent (rest : List TraceItem) (s : State) : Event :=
  if s.tickDue then .tick s else .clock { s with trace := rest }

/-- What happens next in a state. -/
def nextEvent (s : State) : Event :=
  match s.trace with
  | [] => idleEvent s
  | .tick :: rest => .tick { s with trace := rest }
  | .pwmClock :: rest => clockEvent rest s
  | .foreground cut :: rest => .move (runForeground Config.params { s with trace := rest, preempt := cut })
  | .command w cut :: rest => portEvent w cut rest s

/-- A tick and the tick interval it ends, while `RUN = 1` (R103, R109). -/
def tickInterval (s : State) : State := tick (endInterval s)

/-- `n` ticks, each with the tick interval it ends. -/
def intervals : Nat → State → State
  | 0, s => s
  | n + 1, s => intervals n (tickInterval s)

/-- One word of a trace as the spec writes it: TICK's event code is a tick, any other word a command (R86). -/
def TraceItem.ofWord (w : CommandWord) : TraceItem :=
  match decode w with
  | .ok .tick => .tick
  | _ => .command w none

/-- A trace written as the spec writes it, one word per command or tick (R86). -/
def traceOfWords (ws : List CommandWord) : List TraceItem := ws.map TraceItem.ofWord

/-- The state in which the very next step takes this word: the word is the next input. A command is taken only when the
previous one has completed (R73), a TICK only while `RUN = 1` (R194); that is set and nothing else (assumption 2). -/
def placeWord (s : State) (w : CommandWord) : State :=
  match TraceItem.ofWord w with
  | .tick => { s with trace := .tick :: s.trace, run := true }
  | item => { s with trace := item :: s.trace, fgq := [], waitctr := 0 }

end Sys2Proof.Machine
end

