-- ==== Sys2Proof/Machine/Step.lean ====
section
/-!
DEFINITION. Machine/Step.lean: one step of the machine, and how the host places an instruction.
-/

namespace Sys2Proof.Machine

/-- One step: what `nextEvent` says happens next. -/
def step (s : State) : Host.Outcome State Fault Refusal :=
  match nextEvent s with
  | .instr i t => exec i t
  | .tick t => exec .tick (endInterval t)
  | .clock t => .next (pwmClock t)
  | .move t => .next t
  | .stuck f => .fault f

/-- `s` with one word of a trace as its next input. The table numbers a word's bits as R7 does, so `w` is the word. -/
def State.withFetchWord (s : State) (nbits w : Nat) : State := placeWord s (BitVec.ofNat 32 (w % 2 ^ nbits))

end Sys2Proof.Machine
end

