-- ==== Sys2Proof/Safety.lean ====
section
/-!
DEFINITION. Safety.lean: the terms claims are stated in. The invariants of R39 and of the rules around it, the launch
premises of R238, the end of a run (R236), and the two fairness assumptions (R232).
-/

namespace Sys2Proof.Safety

open Sys2Proof.Machine

/-- A Light Buffer index that `TOPO` names for some LED and channel (R23). -/
def mapped (p : Config.Params) (k : BufferIndex) : Prop := ∃ (i : Led) (ch : Channel), p.topo i ch = k

/-- `WellFormedTopo` (R238, R6): the 39 values are pairwise distinct (that each is below 48 is their type). -/
def WellFormedTopo (p : Config.Params) : Prop :=
  ∀ (i j : Led) (ch dh : Channel), p.topo i ch = p.topo j dh → i = j ∧ ch = dh

/-- `ResetState`: "every element as `10_state.md` rule R38" (R238). `PWMCNT` is any value there (U11); the queue, which
`NothingInFlight` speaks of, and the model's inputs are no elements of R38, so a program may be listed. No tick interval has
begun. -/
def ResetState (s : State) : Prop :=
  s = { State.reset with pwmcnt := s.pwmcnt, fgq := s.fgq, trace := s.trace, preempt := s.preempt }

/-- `ResetState` "in the conservative reading, `LB`, `SC`, `BC` free within their ranges" (R238). -/
def ResetStateConservative (s : State) : Prop :=
  Memory.wf s.lb = true ∧ s.bc.toNat ≤ 4 ∧
    s = { State.reset with
      lb := s.lb, sc := s.sc, bc := s.bc, pwmcnt := s.pwmcnt, fgq := s.fgq, trace := s.trace, preempt := s.preempt }

/-- `NoFault` (R238). -/
def NoFault (s : State) : Prop := s.fault = .noFault

/-- `NothingInFlight` (R238): `FGQ` empty and `WAITCTR = 0`. -/
def NothingInFlight (s : State) : Prop := s.fgq = [] ∧ s.waitctr = 0

/-- A command is accepted now (R73, R190), and no input interrupts it before its end: the premise of a statement about one
whole command. -/
structure Ready (s : State) : Prop where
  noFault : s.fault = .noFault
  queue : s.fgq = []
  wait : s.waitctr = 0
  whole : s.preempt = none

/-- The commands the host has still to issue: the trace without its ticks, PWM clocks and interruption points (R86). -/
def commandsLeft : List TraceItem → List CommandWord
  | [] => []
  | .command w _ :: rest => w :: commandsLeft rest
  | .tick :: rest => commandsLeft rest
  | .pwmClock :: rest => commandsLeft rest
  | .foreground _ :: rest => commandsLeft rest

/-- Every command has completed: "the list is exhausted, `FGQ` is empty, `WAITCTR = 0` and `FAULT = 0`" (R236). The list is
that of the commands: ticks and PWM clocks may go on. -/
def Finished (s : State) : Prop := commandsLeft s.trace = [] ∧ s.fgq = [] ∧ s.waitctr = 0 ∧ s.fault = .noFault

/-- A run ends at its "first state in which every command has completed" (R236). -/
def EndsAt (r : Nat → State) (n : Nat) : Prop := Finished (r n) ∧ ∀ m, m < n → ¬ Finished (r m)

/-- An infinite run of the machine: each state's step is the next one. -/
def Run (r : Nat → State) : Prop := ∀ n, step (r n) = .next (r (n + 1))

/-- The step at a state is a TICK that takes place (R194). -/
def tickHappens (s : State) : Prop := ∃ t : State, nextEvent s = .tick t ∧ t.run = true

/-- How many PWM clocks elapse in the step at a state: those its tick interval still has when it ends, or the one that is its
input (R37, R109). -/
def pwmClocksAt (s : State) : Nat :=
  match nextEvent s with
  | .tick t => if t.run then t.pwmLeft.getD 0 else 0
  | .clock _ => 1
  | .instr _ _ => 0
  | .move _ => 0
  | .stuck _ => 0

/-- `TickFair` (R232(a), R238): while `RUN = 1` the tick fires again and again. -/
def TickFair (r : Nat → State) : Prop :=
  ∀ n, (∀ m, n ≤ m → (r m).run = true) → ∃ m, n ≤ m ∧ tickHappens (r m)

/-- `ForegroundFair` (R232(b), R238): a micro-operation that is enabled is eventually performed. -/
def ForegroundFair (r : Nat → State) : Prop :=
  ∀ n, (r n).fgq ≠ [] → ∃ m, n ≤ m ∧ (r (m + 1)).fgq ≠ (r m).fgq

/-- The arguments of `fade` that a queued micro-operation carries. -/
def carriedArgs : MicroOp → Option FadeArgs
  | .fadeF1 f => some f
  | .fadeF2 f _ => some f
  | .fadeF3 f => some f
  | .fadeF4 f _ => some f
  | .fadeF5 f _ => some f
  | .fadeF6 f => some f
  | _ => none

/-- Every fade step in progress has the arguments FSTEP gives it in some state (R151): 2, 3 or 1 as the next state, and
propagation out of state 1 only. -/
def QueueFromFstep (s : State) : Prop :=
  ∀ op ∈ s.fgq, ∀ f, carriedArgs op = some f → ∃ x, fadeArgs f.led x = some f

/-- `f6` to `f9` of a fade step can reach this LED (R159). -/
def mayReach (f : FadeArgs) (j : Led) : Prop := f.propagate = true ∧ nextLed f.led = some j

/-- A queued micro-operation, or one it still leads to, can store to this index (R130 to R133, R152). -/
def mayStore (p : Config.Params) (op : MicroOp) (k : BufferIndex) : Prop :=
  match op with
  | .write i ch _ => k = p.topo i ch
  | .fadeSelect i => (∃ ch, k = p.topo i ch) ∨ ∃ j ch, nextLed i = some j ∧ k = p.topo j ch
  | .fadeF1 f => k = p.topo f.led f.dec ∨ k = p.topo f.led f.inc ∨ ∃ j ch, mayReach f j ∧ k = p.topo j ch
  | .fadeF2 f _ => k = p.topo f.led f.dec ∨ k = p.topo f.led f.inc ∨ ∃ j ch, mayReach f j ∧ k = p.topo j ch
  | .fadeF3 f => k = p.topo f.led f.inc ∨ ∃ j ch, mayReach f j ∧ k = p.topo j ch
  | .fadeF4 f _ => k = p.topo f.led f.inc ∨ ∃ j ch, mayReach f j ∧ k = p.topo j ch
  | .fadeF5 f _ => ∃ j ch, mayReach f j ∧ k = p.topo j ch
  | .fadeF6 f => ∃ j ch, mayReach f j ∧ k = p.topo j ch
  | _ => False

/-- A queued micro-operation, or one it still leads to, can write the fade state of this LED (R150, R152). -/
def mayMove (op : MicroOp) (j : Led) : Prop :=
  match op with
  | .clearFade => True
  | .seedFirst => j = 0
  | .fadeSelect i => j = i ∨ nextLed i = some j
  | .fadeF1 f => j = f.led ∨ mayReach f j
  | .fadeF2 f _ => j = f.led ∨ mayReach f j
  | .fadeF3 f => j = f.led ∨ mayReach f j
  | .fadeF4 f _ => j = f.led ∨ mayReach f j
  | .fadeF5 f _ => j = f.led ∨ mayReach f j
  | .fadeF6 f => mayReach f j
  | _ => False

/-- What every step keeps (R39 and the rules it is derived from). -/
structure Inv (s : State) : Prop where
  /-- the Light Buffer is in canonical form. -/
  memory : Memory.wf s.lb = true
  /-- "Light Buffer entries outside the image of `TOPO` keep their reset value" (R39). -/
  unmapped : ∀ k : BufferIndex, ¬ mapped Config.params k → s.readLB k = unlisted
  /-- "`BC` in 0..4" (R39). -/
  blanking : s.bc.toNat ≤ 4
  /-- "at most one row source line is asserted" (R39, R106). -/
  rows : legalRowPattern s.rowen = true
  /-- the lit row is the one before the cursor (R25), once a load tick has happened. -/
  lit : s.rowen = allRowsOff ∨ s.rowen = onehot (s.sc - 1)
  /-- before START nothing is driven and no tick has happened (R194, R222, V-S9). -/
  dark : s.run = false →
    s.rowen = allRowsOff ∧ s.cmp = Vector.replicate 12 0 ∧ s.sc = 0 ∧ s.bc = 0 ∧ s.pwmLeft = none
  /-- a tick interval has no more PWM clocks left than it began with (R37, R109). -/
  interval : ∀ n, s.pwmLeft = some n → n ≤ pwmClocksPerTick Config.params
  /-- a WAIT loads at most 510 (R181). -/
  waiting : s.waitctr.toNat ≤ 510
  /-- a fade step in progress was begun by FSTEP (R151, R36). -/
  queue : QueueFromFstep s
  /-- a command in progress was accepted with `WAITCTR` at 0 and no fault, and nothing has changed either since (R59, R73,
  R190): so a WAIT loads the counter only while it is 0. -/
  inProgress : s.fgq ≠ [] → s.waitctr = 0 ∧ s.fault = .noFault
  /-- the load of a WAIT is all that is left of its command (R181). -/
  holdLast : ∀ ms, .loadWait ms ∈ s.fgq → s.fgq = [.loadWait ms]
  /-- the model's own: an interruption point is consumed by the command it belongs to. -/
  uncut : s.preempt = none

/-- The `idx` field that names a LED (R76): every legal operand is one of these thirteen. -/
def idxOf (i : Led) : Nibble := BitVec.ofNat 4 i.val

/-- The SET command of a channel (R131 to R133); used to speak of the three at once. -/
def setInstr : Channel → Nibble → Byte → Instr
  | .red => .setRed
  | .green => .setGreen
  | .blue => .setBlue

/-- The GET command of a channel (R134 to R136). -/
def getInstr : Channel → Nibble → Instr
  | .red => .getRed
  | .green => .getGreen
  | .blue => .getBlue

/-- The seven accessors (R138). -/
def isAccessor : Instr → Bool
  | .setLed _ _ _ _ => true
  | .setRed _ _ => true
  | .setGreen _ _ => true
  | .setBlue _ _ => true
  | .getRed _ => true
  | .getGreen _ => true
  | .getBlue _ => true
  | _ => false

/-- "`max(old - 1, 0)`" (R157): down by one unless it is 0. -/
def dimmed (b : Byte) : Byte := if b = 0 then 0 else b - 1

/-- The state a started LED goes to when its incrementing channel wraps: 1, 2, 3, 1, … (R161). -/
def nextFade : FadeState → FadeState
  | .idle => .idle
  | .blueToRed => .redToGreen
  | .redToGreen => .greenToBlue
  | .greenToBlue => .blueToRed

/-- The premises of propagation (R159): a FSTEP of LED `i` seeds LED `j`. -/
def Seeds (s : State) (i j : Led) : Prop :=
  s.fs[i.val] = .blueToRed ∧ s.readLB (Config.topo i .red) = 255 ∧ nextLed i = some j ∧ s.fs[j.val] = .idle

/-- LED `i` shows the colour `(r, g, b)` (95_test_vectors.md). -/
def shows (s : State) (i : Led) (r g b : Byte) : Prop :=
  s.readLB (Config.topo i .red) = r ∧ s.readLB (Config.topo i .green) = g ∧ s.readLB (Config.topo i .blue) = b

/-- One instruction executed `n` times, each in the state the one before left. -/
def repeatExec (i : Instr) : Nat → State → Host.Outcome State Fault Refusal
  | 0, s => .next s
  | n + 1, s =>
    match exec i s with
    | .next t => repeatExec i n t
    | o => o

/-- Everything the foreground's operations read and write but the wait counter, which the tick writes too (R200). -/
structure ForegroundView where
  lb : List Host.Cell
  fs : Vector FadeState 13
  run : Bool
  rdata : Byte
  fault : FaultCode
  fgq : List MicroOp
  deriving DecidableEq, Repr

/-- The foreground's view of a state. -/
def foregroundView (s : State) : ForegroundView := ⟨s.lb, s.fs, s.run, s.rdata, s.fault, s.fgq⟩

end Sys2Proof.Safety
end

