-- ==== Sys2Proof/WellFormed.lean ====
section
/-!
DEFINITION. WellFormed.lean: the one operand that can be illegal is `idx` (R82): 0..12 are legal, 13..15 are not. An
ill-formed instruction still decodes (V-X1) and then raises `IndexFault` (R191).
-/

namespace Sys2Proof

/-- The `idx` field of the formats I, IV and IRGB (R74); the other formats have none. -/
def Instr.idx? : Instr → Option Nibble
  | .setLed idx _ _ _ => some idx
  | .setRed idx _ => some idx
  | .setGreen idx _ => some idx
  | .setBlue idx _ => some idx
  | .getRed idx => some idx
  | .getGreen idx => some idx
  | .getBlue idx => some idx
  | .fstep idx => some idx
  | .start => none
  | .wait _ => none
  | .finit => none
  | .tick => none

/-- Every operand is in its legal range: "`idx` = word[27:24] (0..15, of which 0..12 are legal)" (R76). -/
def Instr.wellFormed (i : Instr) : Bool :=
  match i.idx? with
  | some idx => decide (idx.toNat ≤ 12)
  | none => true

/-- The eleven operations the foreground can issue; TICK is not one of them (R86). -/
def Instr.isCommand : Instr → Bool
  | .start => true
  | .setLed _ _ _ _ => true
  | .setRed _ _ => true
  | .setGreen _ _ => true
  | .setBlue _ _ => true
  | .getRed _ => true
  | .getGreen _ => true
  | .getBlue _ => true
  | .wait _ => true
  | .finit => true
  | .fstep _ => true
  | .tick => false

end Sys2Proof
end

