-- ==== Sys2Proof/Certificates/Slice0/Obligations.lean ====
section
/-!
DEFINITION. Certificates/Slice0/Obligations.lean: the statements for the provers, from the numbered rules of spec/.
`Ready s` says a command is accepted and no input interrupts it before its end (R73, R190).
-/

open Sys2Proof Sys2Proof.Machine Sys2Proof.Safety

/-! ## Encoding -/

/-- Decoding an instruction's word gives the instruction back, at every value of every operand (R74, R76, R80; the
encoding is the spec's decision D3). -/
def Obligations.EncodedInstructionDecodesToItself : Prop := ∀ i : Instr, decode (encode i) = .ok i

/-- No word has a second meaning and no bit of a legal word is dropped: it is the word of what it decodes to ("the decoder
is a bijection between legal words and (mnemonic, operands)", the spec's decisions D3, D4). -/
def Obligations.DecodedWordIsTheInstructionsWord : Prop :=
  ∀ (w : CommandWord) (i : Instr), decode w = .ok i → encode i = w

/-- A word is decoded exactly when a row of the opcode map selects it, to an instruction of that row; no two rows
select one word (R80, R81; the spec's decisions D3, D4). -/
def Obligations.DecoderAcceptsExactlyTheOpcodeMap : Prop :=
  ∀ w : CommandWord,
    ((∃ i, decode w = .ok i) ↔ ∃ row ∈ opcodeRows, row.selects w = true) ∧
      (∀ i, decode w = .ok i → i.row.selects w = true) ∧
      ∀ row ∈ opcodeRows, ∀ other ∈ opcodeRows, row.selects w = true → other.selects w = true → row = other

/-- Words of 30_encoding.md section 5 decode to what stands beside them, and reserved words of V-X2 to nothing (the spec's
decisions D3, D4, D29). -/
def Obligations.WorkedEncodingsDecode : Prop :=
  decode 0x10000000 = .ok .start ∧ decode 0x24010203 = .ok (.setLed 4 1 2 3) ∧ decode 0x30FE0000 = .ok (.setRed 0 254) ∧
    decode 0x5C070000 = .ok (.setBlue 12 7) ∧ decode 0x75000000 = .ok (.getGreen 5) ∧
    decode 0x90C80000 = .ok (.wait 200) ∧ decode 0xA0000000 = .ok .finit ∧ decode 0xBC000000 = .ok (.fstep 12) ∧
    decode 0xF0000000 = .ok .tick ∧ decodePort 0xF0000000 = .error .tickOnPort ∧
    decode 0x30FE0001 = .error .nonzeroField ∧ decode 0x00000000 = .error (.reservedOpcode 0)

/-! ## The step -/

/-- A step runs the decoded instruction: a command at the port when the previous one has completed, a tick of the
trace, and a word placed by `withFetchWord`. Around `exec`, the input is taken off the trace and its interruption
point noted, and a tick interval ends before its tick (R73, R86, R109; the trace and the way the interval's PWM clocks
elapse are the model's choice, assumptions 1, 2 and 5). -/
def Obligations.StepRunsTheDecodedInstruction : Prop :=
  (∀ (s : State) (w : CommandWord) (cut : Option Nat) (rest : List TraceItem) (i : Instr),
      s.trace = .command w cut :: rest → s.fgq = [] → s.waitctr = 0 → decode w = .ok i → i ≠ .tick →
        step s = exec i { s with trace := rest, preempt := cut }) ∧
    (∀ (s : State) (rest : List TraceItem), s.trace = .tick :: rest →
      step s = exec .tick (endInterval { s with trace := rest })) ∧
    ∀ (s : State) (w : Nat) (i : Instr), w < 2 ^ 32 → decodeTableWord 32 w = some i →
      step (s.withFetchWord 32 w) =
        exec i (if i = .tick then endInterval { s with run := true } else { s with fgq := [], waitctr := 0, preempt := none })

/-- A word on the port that selects no command, TICK's code among them, raises `ReservedEncoding` and changes nothing
else; a code already recorded stays (R81, R86, R190, R192; decisions D4, D5, D29). -/
def Obligations.ReservedWordFaultsAndChangesNothingElse : Prop :=
  ∀ (s : State) (w : CommandWord) (cut : Option Nat) (rest : List TraceItem),
    s.trace = .command w cut :: rest → s.fgq = [] → s.waitctr = 0 →
      ((∃ e, decode w = .error e) ∨ decode w = .ok .tick) →
        step s = .next { s with
          trace := rest
          fault := if s.fault = .noFault then .reservedEncoding else s.fault
          preempt := none }

/-- While a WAIT holds the foreground, the host's next word is not taken: with `RUN = 1` the next step is a TICK, with
`RUN = 0` there is none, and `FAULT` plays no part (R73, R181, R183; D13, D28). That a TICK is taken which the trace does
not name, that the PWM clocks of its interval elapse with it, and that a state with no enabled step answers `hungWait`, are
the model's (assumptions 10, 5 and 6). -/
def Obligations.WaitHoldsTheForeground : Prop :=
  ∀ s : State, s.fgq = [] → s.waitctr ≠ 0 →
    (s.trace = [] ∨ ∃ w cut rest, s.trace = .command w cut :: rest) →
      (s.run = true → step s = .next (tickInterval s)) ∧ (s.run = false → step s = .fault .hungWait)

/-- An interrupted command resumes "at the micro-operation it was about to perform" (R197, D24). When no input comes
in between, a step performs all its remaining micro-operations, and the host's next word stays where it is (R73). A
`.foreground` input performs the next `n` of them, or all. Performing is in the queue's order, one at a time. That the
step is taken although the trace does not name it, and the two forms of input, are the model's (assumptions 10 and 1).
-/
def Obligations.InterruptedCommandIsCompleted : Prop :=
  (∀ s : State, s.fgq ≠ [] → (s.trace = [] ∨ ∃ w cut rest, s.trace = .command w cut :: rest) →
    step s = .next (runForeground Config.params s.uncut)) ∧
  (∀ (s : State) (cut : Option Nat) (rest : List TraceItem), s.trace = .foreground cut :: rest →
    step s = .next (runForeground Config.params { s with trace := rest, preempt := cut })) ∧
  (∀ s : State, s.preempt = none →
    ∃ n, runForeground Config.params s = drain Config.params n s ∧ (drain Config.params n s).fgq = []) ∧
  (∀ (s : State) (n : Nat), s.preempt = some n →
    runForeground Config.params s = (drain Config.params n s).uncut) ∧
  (∀ (s : State) (n : Nat) (op : MicroOp) (rest : List MicroOp), s.fgq = op :: rest →
    drain Config.params (n + 1) s = drain Config.params n (perform Config.params op (s.setQueue rest))) ∧
  ∀ (s : State) (n : Nat), s.fgq = [] → drain Config.params n s = s

/-- With no input left and nothing in progress: the tick goes on while `RUN = 1`; with `RUN = 0` only the
free-running PWM clock goes on, and a faulted block has no step (R37, R190, R194, R236; that the idle step is a PWM clock and
that the PWM clocks of an interval elapse with its tick are the model's choice, assumptions 2 and 5; that the faulted block
answers `haltedByFault` is assumption 6). -/
def Obligations.NothingLeftToIssue : Prop :=
  ∀ s : State, s.trace = [] → s.fgq = [] →
    (s.run = true → step s = .next (tickInterval s)) ∧
      (s.run = false → s.waitctr = 0 → s.fault = .noFault → step s = .next (pwmClock s)) ∧
      (s.run = false → s.waitctr = 0 → s.fault ≠ .noFault → step s = .fault .haltedByFault)

/-- A PWM clock advances `PWMCNT` by one modulo 256 and touches nothing else of the block; it is one of the clocks of its
tick interval. When the interval has had all of them and the tick runs, the tick comes first and the clock waits (R37, R109,
R201; D11, D26; that a due tick comes although the trace does not name it is the model's, assumption 5). -/
def Obligations.PwmClockAdvancesTheCounterAlone : Prop :=
  ∀ (s : State) (rest : List TraceItem), s.trace = .pwmClock :: rest →
    (s.run = false ∨ s.pwmLeft ≠ some 0 →
      step s = .next { s with
        trace := rest
        pwmcnt := BitVec.ofNat 8 (s.pwmcnt.toNat + 1)
        pwmLeft := s.pwmLeft.map fun n => n - 1 }) ∧
      (s.run = true → s.pwmLeft = some 0 → step s = .next (tickInterval s))

/-! ## START and WAIT -/

/-- START sets `RUN` and changes no other state; while `RUN = 1` the model refuses it (R180, U5; D12). -/
def Obligations.StartSetsRun : Prop :=
  ∀ s : State, Ready s →
    (s.run = false → exec .start s = .next { s with run := true }) ∧
      (s.run = true → exec .start s = .refused .startWhileRunning)

/-- WAIT loads `WAITCTR` with `ms * 2`, at most 510, and touches nothing else (R181; D7, D13). -/
def Obligations.WaitLoadsTwiceTheMilliseconds : Prop :=
  ∀ (s : State) (ms : Byte), Ready s →
    exec (.wait ms) s = .next { s with waitctr := BitVec.ofNat 16 (2 * ms.toNat) }

/-- A hold takes exactly its ticks: with `RUN = 1`, nothing in progress and no input before the host's next word, as many
steps as `WAITCTR` counts, each a TICK, lead to `WAITCTR = 0`, and not one fewer does (R181; D13). The spec makes the end
of a hold depend on the fairness assumption `TickFair` (R183, R232); that the step takes ticks the trace does not name, so
that `TickFair` holds of it by construction, is the model's (assumption 10), and so is that the PWM clocks of each interval
elapse with its tick (assumption 5). -/
def Obligations.WaitEndsAfterExactlyItsTicks : Prop :=
  ∀ s : State, s.run = true → s.fgq = [] → (s.trace = [] ∨ ∃ w cut rest, s.trace = .command w cut :: rest) →
    Host.Core.run core s.waitctr.toNat s = .next (intervals s.waitctr.toNat s) ∧
      ∀ n, (intervals n s).waitctr = 0 ↔ s.waitctr.toNat ≤ n

/-! ## Accessors -/

/-- SET_RED, SET_GREEN, SET_BLUE (R131, R132, R133): format IV with opcode 3, 4, 5; one byte write at `TOPO(idx, ch)` and
nothing else; one micro-operation, so a tick comes before it or after it; `IndexFault` when `idx > 12`. The format is the
spec's decision D3, the fault D5, and `preempt`, the point where an input interrupts, is the model's (assumption 1). -/
def Obligations.SetChannelWritesItsByte : Prop :=
  ∀ (ch : Channel) (s : State) (v : Byte), Ready s →
    (∀ i : Led,
      exec (setInstr ch (idxOf i) v) s = .next { s with lb := Memory.write s.lb (Config.topo i ch).val v } ∧
        (s.writeLB (Config.topo i ch) v).readLB (Config.topo i ch) = v ∧
        (∀ k, k ≠ Config.topo i ch → (s.writeLB (Config.topo i ch) v).readLB k = s.readLB k) ∧
        ∀ n, exec (setInstr ch (idxOf i) v) { s with preempt := some n } =
          .next (if n = 0 then { s with fgq := [.write i ch v] }
            else { s with lb := Memory.write s.lb (Config.topo i ch).val v })) ∧
    ∀ idx : Nibble,
      (12 < idx.toNat → exec (setInstr ch idx v) s = .next { s with fault := .indexFault }) ∧
        encode (setInstr ch idx v) = packWord (BitVec.ofNat 4 (3 + ch.number.val)) idx v 0 0

/-- GET_RED, GET_GREEN, GET_BLUE (R134, R135, R136): format I with opcode 6, 7, 8; the byte at `TOPO(idx, ch)` is
latched in `RDATA` and nothing else changes; `IndexFault` when `idx > 12`, and then `RDATA` is unchanged (that a
result goes to `RDATA` is the spec's decision D21). -/
def Obligations.GetChannelLatchesItsByte : Prop :=
  ∀ (ch : Channel) (s : State), Ready s →
    (∀ i : Led, exec (getInstr ch (idxOf i)) s = .next { s with rdata := Memory.read s.lb (Config.topo i ch).val }) ∧
    ∀ idx : Nibble,
      (12 < idx.toNat → exec (getInstr ch idx) s = .next { s with fault := .indexFault }) ∧
        encode (getInstr ch idx) = packWord (BitVec.ofNat 4 (6 + ch.number.val)) idx 0 0 0

/-- SET_LED (R130): after the command the LED's three entries hold `r`, `g`, `b`, every other entry what it held, and
nothing else has changed, whatever `SETLED_ORDER` is (the order of the writes is decision D15). -/
def Obligations.SetLedWritesItsThreeBytes : Prop :=
  ∀ (s : State) (i : Led) (r g b : Byte), Ready s →
    ∃ t, exec (.setLed (idxOf i) r g b) s = .next t ∧ t = { s with lb := t.lb } ∧ shows t i r g b ∧
      ∀ k, (∀ ch, k ≠ Config.topo i ch) → t.readLB k = s.readLB k

/-- SET_LED interrupted after its `n`-th byte write: the first `n` writes have happened, in `SETLED_ORDER`, the others are
still queued, and nothing else has changed (R55, R56, R130; D15, U6). -/
def Obligations.InterruptedSetLedHasWrittenAPrefix : Prop :=
  ∀ (s : State) (i : Led) (r g b : Byte) (n : Nat), Ready s → n ≤ 3 →
    ∃ t, exec (.setLed (idxOf i) r g b) { s with preempt := some n } = .next t ∧ t = { s with lb := t.lb, fgq := t.fgq } ∧
      t.fgq = (setLedOps Config.setLedOrder i r g b).drop n ∧
      ∀ k, t.readLB k =
        if 1 ≤ n ∧ k = Config.topo i Config.setLedOrder.first then colourOf r g b Config.setLedOrder.first
        else if 2 ≤ n ∧ k = Config.topo i Config.setLedOrder.second then colourOf r g b Config.setLedOrder.second
        else if 3 ≤ n ∧ k = Config.topo i Config.setLedOrder.third then colourOf r g b Config.setLedOrder.third
        else s.readLB k

/-- "the end state does not depend on `SETLED_ORDER`" (R130): for any well-formed table, two orders leave the same Light
Buffer. The premise on the memory is the invariant `Inv.memory`. -/
def Obligations.SetLedOrderLeavesNoTrace : Prop :=
  ∀ (p q : Config.Params) (s : State) (i : Led) (r g b : Byte),
    WellFormedTopo p → q.topo = p.topo → Memory.wf s.lb = true → s.preempt = none →
      runForeground p { s with fgq := setLedOps p.setLedOrder i r g b } =
        runForeground q { s with fgq := setLedOps q.setLedOrder i r g b }

/-- The round trip (R137), for any `TOPO`: after SET_ch `i, v`, any number of ticks leaves the entry alone, and GET_ch `i`
in any state that accepts it and whose entry nobody has written since leaves `RDATA = v`. -/
def Obligations.RoundTripThroughTheTopologyTable : Prop :=
  (∀ (p : Config.Params) (s : State) (i : Led) (ch : Channel) (v : Byte), Ready s →
    ∃ t, issueIndexed p (idxOf i) (fun j => [.write j ch v]) s = .next t ∧
      (∀ n, (ticks n t).readLB (p.topo i ch) = t.readLB (p.topo i ch)) ∧
      ∀ u : State, Ready u → u.readLB (p.topo i ch) = t.readLB (p.topo i ch) →
        ∃ x, issueIndexed p (idxOf i) (fun j => [.read j ch]) u = .next x ∧ x.rdata = v) ∧
  ∀ (ch : Channel) (s : State) (idx : Nibble) (v : Byte),
    exec (setInstr ch idx v) s = issueIndexed Config.params idx (fun j => [.write j ch v]) s ∧
      exec (getInstr ch idx) s = issueIndexed Config.params idx (fun j => [.read j ch]) s

/-- Independence (R139, derived by the spec from R130 to R133 and R6): a SET_ch changes what no other (LED, channel)
pair reads, a SET_LED what no other LED reads. -/
def Obligations.AccessorsAreIndependent : Prop :=
  ∀ (s t : State) (i j : Led) (ch dh : Channel),
    (∀ v, (i, ch) ≠ (j, dh) → exec (setInstr ch (idxOf i) v) s = .next t →
        t.readLB (Config.topo j dh) = s.readLB (Config.topo j dh)) ∧
      ∀ r g b, i ≠ j → exec (.setLed (idxOf i) r g b) s = .next t →
        t.readLB (Config.topo j dh) = s.readLB (Config.topo j dh)

/-! ## The fade state machine -/

/-- FINIT: every LED idle but LED 0, which is in state 1; the Light Buffer and all else untouched (R150; the spec's
decision D17). -/
def Obligations.FinitSeedsLedZero : Prop :=
  ∀ s : State, Ready s →
    ∃ t, exec .finit s = .next t ∧ t = { s with fs := t.fs } ∧ t.fs[0] = .blueToRed ∧
      ∀ i : Led, i ≠ 0 → t.fs[i.val] = .idle

/-- FSTEP on an idle LED changes nothing, and a LED leaves state 0 only by FINIT (LED 0) or by the propagation of R153
(R156). -/
def Obligations.IdleLedStaysIdle : Prop :=
  (∀ (s : State) (i : Led), Ready s → s.fs[i.val] = .idle → exec (.fstep (idxOf i)) s = .next s) ∧
    ∀ (s t : State) (instr : Instr) (k : Led), exec instr s = .next t → s.fs[k.val] = .idle → t.fs[k.val] ≠ .idle →
      (instr = .finit ∧ k = 0) ∨ ∃ i, instr = .fstep (idxOf i) ∧ Seeds s i k

/-- FSTEP in state 1 (R153): blue down by one unless it is 0, red up by one modulo 256, green alone. When red was 255 the
LED enters state 2 and, if it is not the last and the next is idle, the next LED enters state 1 and becomes black; a next
LED that is not idle is left alone. Nothing else changes. It is the only state whose exit propagates. -/
def Obligations.FadeStepInStateOne : Prop :=
  (∀ (s : State) (i : Led), Ready s → s.fs[i.val] = .blueToRed →
    ∃ t, exec (.fstep (idxOf i)) s = .next t ∧ t = { s with lb := t.lb, fs := t.fs } ∧
      shows t i (s.readLB (Config.topo i .red) + 1) (s.readLB (Config.topo i .green))
        (dimmed (s.readLB (Config.topo i .blue))) ∧
      (s.readLB (Config.topo i .red) ≠ 255 → t.fs = s.fs) ∧
      (s.readLB (Config.topo i .red) = 255 → (∀ j, ¬ Seeds s i j) → t.fs = s.fs.set i.val .redToGreen) ∧
      (∀ j, Seeds s i j → t.fs = (s.fs.set i.val .redToGreen).set j.val .blueToRed ∧ shows t j 0 0 0) ∧
      ∀ k, (∀ ch, k ≠ Config.topo i ch) → (∀ j ch, Seeds s i j → k ≠ Config.topo j ch) → t.readLB k = s.readLB k) ∧
  ∀ (s t : State) (i j : Led), exec (.fstep (idxOf i)) s = .next t → j ≠ i → t.fs[j.val] ≠ s.fs[j.val] →
    s.fs[i.val] = .blueToRed

/-- FSTEP in state 2 (R154; that the wrap of green, the incrementing channel, ends the state is the spec's choice, C5 and
decision D16): red down by one unless it is 0, green up by one modulo 256, blue alone; when green was 255
the LED enters state 3; no propagation; nothing else changes. -/
def Obligations.FadeStepInStateTwo : Prop :=
  ∀ (s : State) (i : Led), Ready s → s.fs[i.val] = .redToGreen →
    ∃ t, exec (.fstep (idxOf i)) s = .next t ∧ t = { s with lb := t.lb, fs := t.fs } ∧
      shows t i (dimmed (s.readLB (Config.topo i .red))) (s.readLB (Config.topo i .green) + 1)
        (s.readLB (Config.topo i .blue)) ∧
      t.fs = (if s.readLB (Config.topo i .green) = 255 then s.fs.set i.val .greenToBlue else s.fs) ∧
      ∀ k, (∀ ch, k ≠ Config.topo i ch) → t.readLB k = s.readLB k

/-- FSTEP in state 3 (R155; that the wrap of blue, the incrementing channel, ends the state is the spec's choice, C5 and
decision D16): green down by one unless it is 0, blue up by one modulo 256, red alone; when blue was 255
the LED enters state 1 again and seeds nothing; nothing else changes. -/
def Obligations.FadeStepInStateThree : Prop :=
  ∀ (s : State) (i : Led), Ready s → s.fs[i.val] = .greenToBlue →
    ∃ t, exec (.fstep (idxOf i)) s = .next t ∧ t = { s with lb := t.lb, fs := t.fs } ∧
      shows t i (s.readLB (Config.topo i .red)) (dimmed (s.readLB (Config.topo i .green)))
        (s.readLB (Config.topo i .blue) + 1) ∧
      t.fs = (if s.readLB (Config.topo i .blue) = 255 then s.fs.set i.val .blueToRed else s.fs) ∧
      ∀ k, (∀ ch, k ≠ Config.topo i ch) → t.readLB k = s.readLB k

/-- A FSTEP changes another LED, in state or colour, only when all four premises of propagation hold, and then only
the next LED, which becomes state 1 and black; since it was idle before and is not after, and only FINIT makes a LED
idle again, it is seeded at most once between two FINITs (R159). Also when the FSTEP is interrupted. -/
def Obligations.PropagationReachesOnlyTheNextLed : Prop :=
  (∀ (s t : State) (i j : Led), exec (.fstep (idxOf i)) s = .next t → j ≠ i →
    (t.fs[j.val] ≠ s.fs[j.val] ∨ ∃ ch, t.readLB (Config.topo j ch) ≠ s.readLB (Config.topo j ch)) → Seeds s i j) ∧
  (∀ (s : State) (i j : Led), Ready s → Seeds s i j →
    ∃ t, exec (.fstep (idxOf i)) s = .next t ∧ t.fs[j.val] = .blueToRed ∧ shows t j 0 0 0) ∧
  (∀ (s : State) (i j : Led), Seeds s i j → j.val = i.val + 1 ∧ s.fs[j.val] = .idle) ∧
  ∀ (s t : State) (instr : Instr) (j : Led), exec instr s = .next t → instr ≠ .finit → s.fs[j.val] ≠ .idle →
    t.fs[j.val] ≠ .idle

/-- No way back to idle (R161): an instruction leaves a LED's state as it is, or it is FINIT, or it is that LED's own
FSTEP and moves it one on in the cycle 1, 2, 3, 1, or it is the FSTEP of the LED before and moves it from 0 to 1. -/
def Obligations.FadeStatesCycle : Prop :=
  ∀ (s t : State) (instr : Instr) (k : Led), exec instr s = .next t →
    t.fs[k.val] = s.fs[k.val] ∨ instr = .finit ∨
      (instr = .fstep (idxOf k) ∧ s.fs[k.val] ≠ .idle ∧ t.fs[k.val] = nextFade s.fs[k.val]) ∨
      ∃ i, nextLed i = some k ∧ instr = .fstep (idxOf i) ∧ s.fs[k.val] = .idle ∧ t.fs[k.val] = .blueToRed

/-- Only FINIT makes a started LED idle, whatever the machine does: a step after which it is idle took FINIT's word
from the port or performed a micro-operation m1 of FINIT still queued (R39, R161). The premise on the queue is the
invariant `Inv.queue`. -/
def Obligations.OnlyFinitMakesALedIdle : Prop :=
  ∀ (s t : State) (k : Led), QueueFromFstep s → step s = .next t → s.fs[k.val] ≠ .idle → t.fs[k.val] = .idle →
    (∃ w cut rest, s.trace = .command w cut :: rest ∧ decode w = .ok .finit) ∨ MicroOp.clearFade ∈ s.fgq

/-- Every state lasts exactly 256 FSTEPs and shows one ramp (R160, derived by the spec from R152 to R158; D16): from a
black LED in a started state, `n` FSTEPs with `n < 256` leave the incrementing channel at `n`, the other two at 0 and
the state as it was; the 256th leaves the LED black in the next state. -/
def Obligations.FadeStateLasts256Steps : Prop :=
  ∀ (s : State) (i : Led) (f : FadeArgs), Ready s → fadeArgs i s.fs[i.val] = some f → shows s i 0 0 0 →
    (∀ n, n < 256 → ∃ t, repeatExec (.fstep (idxOf i)) n s = .next t ∧ t.fs = s.fs ∧
      t.readLB (Config.topo i f.inc) = BitVec.ofNat 8 n ∧
      ∀ ch, ch ≠ f.inc → t.readLB (Config.topo i ch) = 0) ∧
    ∃ t, repeatExec (.fstep (idxOf i)) 256 s = .next t ∧ t.fs[i.val] = nextFade s.fs[i.val] ∧ shows t i 0 0 0

/-! ## The scan -/

/-- A load tick (R103 t0, t1, t3a to t3e): with `BC` at 0 or 1, the row the cursor names is loaded from its twelve entries
and lit, `BC` becomes 4 and the cursor advances modulo 4; `WAITCTR` is decremented unless it is 0 (D10, D13, D14). -/
def Obligations.LoadTickLightsTheCursorsRow : Prop :=
  ∀ s : State, s.run = true → s.bc.toNat ≤ 1 →
    exec .tick s = .next { s with
      waitctr := BitVec.ofNat 16 (s.waitctr.toNat - 1)
      bc := 4
      cmp := Vector.ofFn fun c => Memory.read s.lb (s.sc.toNat * 12 + c.val)
      rowen := onehot s.sc
      sc := BitVec.ofNat 2 (s.sc.toNat + 1) }

/-- A blank tick (R103 t0 to t2): with `BC` above 1, the twelve compare registers are zeroed and both counters
decremented; the row stays lit and the cursor where it is (D13). -/
def Obligations.BlankTickZeroesTheCompareRegisters : Prop :=
  ∀ s : State, s.run = true → 1 < s.bc.toNat →
    exec .tick s = .next { s with
      waitctr := BitVec.ofNat 16 (s.waitctr.toNat - 1)
      bc := BitVec.ofNat 3 (s.bc.toNat - 1)
      cmp := Vector.ofFn fun _ => 0 }

/-- TICK is total: from every state with `RUN = 1` it has a successor, it raises no fault, and it does not depend on
`FAULT` (R110). -/
def Obligations.TickIsTotal : Prop :=
  ∀ s : State, s.run = true →
    ∃ t, exec .tick s = .next t ∧ t.fault = s.fault ∧
      ∀ f : FaultCode, exec .tick { s with fault := f } = .next { t with fault := f }

/-- While `RUN = 0` no TICK occurs: the event changes nothing (R194; D12, the form is the model's choice, assumption
4). -/
def Obligations.NoTickBeforeStart : Prop := ∀ s : State, s.run = false → exec .tick s = .next s

/-- The tick pattern (R104, derived by the spec from R103): from any start with `BC = b0` in 0..4 the first load tick
is tick `max(b0, 1)`, and after a load tick come three blank ticks with the row still lit and the compare registers 0,
and then a load tick. -/
def Obligations.LoadTicksComeEveryFourTicks : Prop :=
  ∀ s : State, s.bc.toNat ≤ 4 →
    (∀ n, n + 1 < max s.bc.toNat 1 → (ticks n s).loadsNext = false) ∧
      (ticks (max s.bc.toNat 1 - 1) s).loadsNext = true ∧
      ∀ m, (ticks m s).loadsNext = true →
        (∀ j, 1 ≤ j → j ≤ 3 → (ticks (m + j) s).loadsNext = false ∧
          (ticks (m + j + 1) s).rowen = (ticks (m + 1) s).rowen ∧
          ∀ c : Column, (ticks (m + j + 1) s).cmp[c.val] = 0) ∧
        (ticks (m + 4) s).loadsNext = true

/-- The scan from the launch state (R104, V-S1): tick `n` after START is a load tick exactly when `n mod 4 = 1`, row
`((n - 1) div 4) mod 4` is lit after it, and the compare registers hold that row's entries after a load tick and 0 after
the others. The start values are the spec's decision D6. -/
def Obligations.ScanPatternFromLaunch : Prop :=
  ∀ s : State, s.bc = 0 → s.sc = 0 → ∀ n,
    (ticks (n + 1) s).rowen = onehot (BitVec.ofNat 2 (n / 4)) ∧
      ((ticks n s).loadsNext = true ↔ n % 4 = 0) ∧
      ∀ c : Column, (ticks (n + 1) s).cmp[c.val] =
        if n % 4 = 0 then s.readLB (columnAddr (BitVec.ofNat 2 (n / 4)) c) else 0

/-- Row order (R105): from any load tick on, the rows lit at successive load ticks are `SC`, `SC + 1`, … modulo 4, exactly
4 ticks apart with none in between; no instruction but TICK writes the cursor, and no step of TICK but t3e. -/
def Obligations.RowsAreVisitedInCyclicOrder : Prop :=
  (∀ s : State, s.loadsNext = true → ∀ m,
    (ticks (4 * m) s).loadsNext = true ∧ (ticks (4 * m + 1) s).rowen = onehot (s.sc + BitVec.ofNat 2 m) ∧
      ∀ j, 1 ≤ j → j ≤ 3 → (ticks (4 * m + j) s).loadsNext = false) ∧
  (∀ (s t : State) (instr : Instr), instr ≠ .tick → exec instr s = .next t → t.sc = s.sc) ∧
  ∀ (s : State) (x : TickStep), x ≠ .advance → (performTick x s).sc = s.sc

/-- The row lines within and between ticks (R106, C4). At every instant of a tick the pattern is all-off or one-hot;
it is all-off only from t3b until t3d of a load tick (instants 4 to 16) or before the first load tick; at a load tick
a compare register changes only while all rows are off; at a blank tick the row lines stay and the compare registers
go to 0. Between ticks: after a load tick a row is lit, a lit row stays lit, and nothing but TICK writes `ROWEN`. The
instants run from the state before the tick to the state after it. -/
def Obligations.RowLinesWithinAndBetweenTicks : Prop :=
  (∀ s : State, legalRowPattern s.rowen = true →
    (tickInstants s).head? = some s ∧ (tickInstants s).getLast? = some (tick s) ∧
      (∀ u ∈ tickInstants s, legalRowPattern u.rowen = true) ∧
      (s.rowen ≠ allRowsOff → ∀ (n : Nat) (u : State), (tickInstants s)[n]? = some u →
        (u.rowen = allRowsOff ↔ s.loadsNext = true ∧ 4 ≤ n ∧ n ≤ 16)) ∧
      (s.loadsNext = true → ∀ (n : Nat) (u v : State), (tickInstants s)[n]? = some u →
        (tickInstants s)[n + 1]? = some v → u.cmp ≠ v.cmp → u.rowen = allRowsOff ∧ v.rowen = allRowsOff) ∧
      (s.loadsNext = false → ∀ u ∈ tickInstants s, u.rowen = s.rowen ∧
        ∀ c : Column, u.cmp[c.val] = s.cmp[c.val] ∨ u.cmp[c.val] = 0) ∧
      (s.loadsNext = true ∨ s.rowen ≠ allRowsOff → (tick s).rowen ≠ allRowsOff)) ∧
  ∀ (s t : State) (instr : Instr), instr ≠ .tick → exec instr s = .next t → t.rowen = s.rowen

/-- A Light Buffer entry is in its compare register, with its row lit, within 16 ticks; just after its row's load tick
it takes exactly 16 (R62, R227, derived by the spec from R103 to R105). The premise on `BC` is the invariant
`Inv.blanking`. -/
def Obligations.EntryIsDisplayedWithinSixteenTicks : Prop :=
  ∀ (s : State) (k : BufferIndex), s.bc.toNat ≤ 4 →
    (∃ n, n < 16 ∧ (ticks n s).loadsNext = true ∧ (ticks (n + 1) s).rowen = onehot (rowOf k) ∧
      (ticks (n + 1) s).cmp[(columnOf k).val] = s.readLB k) ∧
    (s.bc.toNat = 4 → s.sc = rowOf k + 1 →
      ∀ n, n < 15 → (ticks n s).loadsNext = true → (ticks (n + 1) s).rowen ≠ onehot (rowOf k))

/-! ## The display -/

/-- Over one frame of 16 ticks in which the Light Buffer does not change, matrix position `(r, c)` receives
`LB[r * 12 + c]` units, from any point of the scan (R109; D26). The premise on `BC` is the invariant `Inv.blanking`. -/
def Obligations.FrameDeliversEachEntryOnce : Prop :=
  ∀ (s : State) (r : Row) (c : Column), s.bc.toNat ≤ 4 →
    ((List.range 16).map fun n => (ticks (n + 1) s).delivered r c).sum = (s.readLB (columnAddr r c)).toNat

/-- Over one PWM period of 256 counts, from any phase, `COL[c]` is asserted for `CMP[c]` counts (R107; D11). -/
def Obligations.DutyIsTheCompareValue : Prop :=
  ∀ (s : State) (c : Column),
    ((List.range 256).filter fun n => (pwmClocks n s).columnOn c).length = (s.cmp[c.val]).toNat

/-- The PWM clock is tied to the tick (R37, R109; D11, D26). A step moves `PWMCNT` by the PWM clocks that elapse in it, no
other way. In a run of the machine exactly `256 * PWM_PERIODS_PER_TICK` of them elapse between one tick and the next, the
second tick's own step included, in which those elapse that the trace does not list. So `PWMCNT` has the same value after
every tick: its phase, which is open (U11), stays. That it elapses so is the model's (assumption 5). -/
def Obligations.TickIntervalHasItsPwmClocks : Prop :=
  (∀ s t : State, step s = .next t → t.pwmcnt = s.pwmcnt + BitVec.ofNat 8 (pwmClocksAt s)) ∧
  ∀ r : Nat → State, Run r → ∀ i j, i < j → tickHappens (r i) → tickHappens (r j) →
    (∀ k, i < k → k < j → ¬ tickHappens (r k)) →
      ((List.range (j - i)).map fun k => pwmClocksAt (r (i + 1 + k))).sum = 256 * (Config.pwmPeriodsPerTick : Nat) ∧
        (r (j + 1)).pwmcnt = (r (i + 1)).pwmcnt

/-- What a tick interval delivers at PWM granularity is what R109 says at tick granularity (R107, R108, R109; D11, D26): of
its `256 * PWM_PERIODS_PER_TICK` PWM clocks, from any phase, position `(r, c)` conducts in `PWM_PERIODS_PER_TICK` times
`delivered r c`, for any parameters. -/
def Obligations.TickIntervalDeliversTheCompareValue : Prop :=
  ∀ (p : Config.Params) (s : State) (r : Row) (c : Column),
    ((List.range (pwmClocksPerTick p)).filter fun n => (pwmClocks n s).conducts r c).length =
      (p.pwmPeriodsPerTick : Nat) * s.delivered r c

/-- At most the twelve positions of one row conduct at an instant (R108, derived by the spec from R106). The premise
is the invariant `Inv.rows`. -/
def Obligations.OnlyOneRowConducts : Prop :=
  ∀ (s : State) (r r' : Row) (c c' : Column), legalRowPattern s.rowen = true →
    s.conducts r c = true → s.conducts r' c' = true → r = r'

/-- The pins (R28, R72; U2, D9), for both values of `ROW_ACTIVE_LOW`: the pin of an asserted row is 1 when the lines are
active high and 0 when they are active low, and the five legal patterns read as R72 lists them. -/
def Obligations.PinsFollowTheRowEnable : Prop :=
  ∀ s : State,
    (∀ r : Row, (rowPins .activeHigh s).getLsbD r.toNat = s.rowOnLine r ∧
      (rowPins .activeLow s).getLsbD r.toNat = !s.rowOnLine r) ∧
      rowPins .activeHigh s = s.rowen ∧
      (s.rowen = allRowsOff → rowPins .activeLow s = 0b1111) ∧ (s.rowen = onehot 0 → rowPins .activeLow s = 0b1110) ∧
      (s.rowen = onehot 1 → rowPins .activeLow s = 0b1101) ∧ (s.rowen = onehot 2 → rowPins .activeLow s = 0b1011) ∧
      (s.rowen = onehot 3 → rowPins .activeLow s = 0b0111) ∧
      ∀ p : Config.Params, s.pins p = rowPins p.rowPolarity s

/-! ## Faults -/

/-- `IndexFault` (R191): every command with an index of 13, 14 or 15 records code 1 and changes nothing else; no FSTEP
with a legal index records a fault, whatever it propagates. -/
def Obligations.IllegalIndexFaultsAndChangesNothingElse : Prop :=
  (∀ (s : State) (instr : Instr) (idx : Nibble), Ready s → instr.idx? = some idx → 12 < idx.toNat →
    exec instr s = .next { s with fault := .indexFault }) ∧
  FaultCode.indexFault.code = 1 ∧
  ∀ (s t : State) (i : Led), exec (.fstep (idxOf i)) s = .next t → t.fault = s.fault

/-- Once a fault is recorded no command is accepted, and TICK is not affected (R190; D5). That a command turned away
answers the state with its interruption point cleared, and that a START is turned away before U5 is asked, are the
model's (assumptions 9 and 7). -/
def Obligations.FaultHaltsTheForegroundNotTheScan : Prop :=
  ∀ s : State, s.fault ≠ .noFault →
    (∀ instr : Instr, instr ≠ .tick → exec instr s = .next { s with preempt := none }) ∧
      (s.run = true → exec .tick s = .next (tick s))

/-- `FAULT` is sticky: whatever the machine does, a recorded code stays (R32, R190; D5). -/
def Obligations.FaultIsSticky : Prop :=
  ∀ s t : State, step s = .next t → s.fault ≠ .noFault → t.fault = s.fault

/-- Faults come only from decoding a word at the port, and a step that records one changes nothing else (R82, R190, R193;
D4, D5): a reserved word gives `ReservedEncoding`, a legal one with an index above 12 gives `IndexFault`. -/
def Obligations.FaultsComeOnlyFromDecoding : Prop :=
  ∀ s t : State, step s = .next t → t.fault ≠ s.fault →
    ∃ w cut rest, s.trace = .command w cut :: rest ∧
      t = { s with trace := rest, fault := t.fault, preempt := none } ∧
      (((∃ e, decodePort w = .error e) ∧ t.fault = .reservedEncoding) ∨
        ∃ instr idx, decodePort w = .ok instr ∧ instr.idx? = some idx ∧ 12 < idx.toNat ∧ t.fault = .indexFault)

/-! ## Frames -/

/-- The frame of SET_LED, SET_RED, SET_GREEN and SET_BLUE (R138, R139, R200; `FAULT` is decision D5), accepted or
turned away, whole or interrupted: only the Light Buffer, `FAULT` and the queue may change, and no byte but those at
`TOPO(idx, ch)` of the LED and channels named. -/
def Obligations.FrameOfTheStores : Prop :=
  (∀ (s t : State) (ch : Channel) (idx : Nibble) (v : Byte), exec (setInstr ch idx v) s = .next t →
    t = { s with lb := t.lb, fault := t.fault, fgq := t.fgq, preempt := none } ∧
      ∀ k, (∀ i, ledOfIdx idx = some i → k ≠ Config.topo i ch) → t.readLB k = s.readLB k) ∧
  ∀ (s t : State) (idx : Nibble) (r g b : Byte), exec (.setLed idx r g b) s = .next t →
    t = { s with lb := t.lb, fault := t.fault, fgq := t.fgq, preempt := none } ∧
      ∀ k, (∀ i ch, ledOfIdx idx = some i → k ≠ Config.topo i ch) → t.readLB k = s.readLB k

/-- The frame of the instructions that store no byte (R138, R150, R180, R181, R197, R200), in every state: GET_* may
change `RDATA` and `FAULT`; START `RUN`; WAIT `WAITCTR`; FINIT `FS`; each of them the queue; TICK `WAITCTR`, `BC`,
`CMP`, `ROWEN` and `SC`. All of the Light Buffer and everything else is as before. -/
def Obligations.FrameOfTheInstructionsThatStoreNothing : Prop :=
  (∀ (s t : State) (ch : Channel) (idx : Nibble), exec (getInstr ch idx) s = .next t →
    t = { s with rdata := t.rdata, fault := t.fault, fgq := t.fgq, preempt := none }) ∧
  (∀ s t : State, exec .start s = .next t → t = { s with run := t.run, fgq := t.fgq, preempt := none }) ∧
  (∀ (s t : State) (ms : Byte), exec (.wait ms) s = .next t →
    t = { s with waitctr := t.waitctr, fgq := t.fgq, preempt := none }) ∧
  (∀ s t : State, exec .finit s = .next t → t = { s with fs := t.fs, fgq := t.fgq, preempt := none }) ∧
  ∀ s t : State, exec .tick s = .next t →
    t = { s with waitctr := t.waitctr, bc := t.bc, cmp := t.cmp, rowen := t.rowen, sc := t.sc }

/-- The frame of FSTEP (R151, R152, R159, R200), accepted or turned away, whole or interrupted: only the Light Buffer,
`FS`, `FAULT` and the queue may change; no byte but those of the LED named and, where it is seeded, of the next LED;
no state but theirs. -/
def Obligations.FrameOfFstep : Prop :=
  ∀ (s t : State) (idx : Nibble), exec (.fstep idx) s = .next t →
    t = { s with lb := t.lb, fs := t.fs, fault := t.fault, fgq := t.fgq, preempt := none } ∧
      (∀ k, (∀ i ch, ledOfIdx idx = some i → k ≠ Config.topo i ch) →
        (∀ i j ch, ledOfIdx idx = some i → Seeds s i j → k ≠ Config.topo j ch) → t.readLB k = s.readLB k) ∧
      ∀ j : Led, ledOfIdx idx ≠ some j → (∀ i, ledOfIdx idx = some i → ¬ Seeds s i j) → t.fs[j.val] = s.fs[j.val]

/-- The seven accessors do not depend on `RUN` (R138): the buffer can be written and read before START. -/
def Obligations.AccessorsDoNotDependOnRun : Prop :=
  ∀ (s t : State) (instr : Instr) (b : Bool), isAccessor instr = true → exec instr s = .next t →
    exec instr { s with run := b } = .next { t with run := b }

/-! ## The two contexts -/

/-- "The foreground's own results never depend on the interleaving" (R56, derived by the spec; R197): however a
command is cut into `m` and then `n` micro-operations and however many ticks come before, between and after, the
foreground's elements end as they would without any tick: the Light Buffer, the fade states, `RUN`, `RDATA`, `FAULT`
and the queue. -/
def Obligations.ForegroundResultsDoNotDependOnTicks : Prop :=
  ∀ (p : Config.Params) (s : State) (m n a b c : Nat),
    foregroundView (ticks c (drain p n (ticks b (drain p m (ticks a s))))) = foregroundView (drain p (m + n) s)

/-- An interrupted command that resumes ends as the whole command does (R56, derived by the spec; R197; D24), for
every command accepted and every interruption point, and whatever number of ticks comes in between. A second START,
which the model refuses (U5), is the one command without an end. The interruption point is the model's `preempt`
(assumption 1). -/
def Obligations.InterruptedThenResumedIsTheWholeCommand : Prop :=
  ∀ (s : State) (instr : Instr) (n k : Nat), Ready s → instr ≠ .tick → (instr = .start → s.run = false) →
    ∃ t u, exec instr { s with preempt := some n } = .next t ∧ exec instr s = .next u ∧
      runForeground Config.params t = u ∧
      foregroundView (runForeground Config.params (ticks k t)) = foregroundView u

/-- The frame of the foreground's micro-operations, also of those a later step performs (R200, R152, R159; D5, D12,
D21): however many of a queue's micro-operations are performed, only `LB`, `FS`, `RUN`, `RDATA`, `WAITCTR` and the
queue change; no byte and no fade state but those the queue names or propagates to; `RDATA`, `WAITCTR` and `RUN` only
by a GET, a WAIT and a START. -/
def Obligations.FrameOfTheForeground : Prop :=
  ∀ (p : Config.Params) (s t : State) (n : Nat), t = drain p n s →
    t = { s with lb := t.lb, fs := t.fs, run := t.run, rdata := t.rdata, waitctr := t.waitctr, fgq := t.fgq } ∧
      (∀ k, (∀ op ∈ s.fgq, ¬ mayStore p op k) → t.readLB k = s.readLB k) ∧
      (∀ j : Led, (∀ op ∈ s.fgq, ¬ mayMove op j) → t.fs[j.val] = s.fs[j.val]) ∧
      ((∀ i ch, .read i ch ∉ s.fgq) → t.rdata = s.rdata) ∧
      ((∀ ms, .loadWait ms ∉ s.fgq) → t.waitctr = s.waitctr) ∧ (.setRun ∉ s.fgq → t.run = s.run)

/-- Who owns what (R200, R201; D5, D11, D12, D21, D26), over every step. It is the driver's, and changes only `WAITCTR`,
`BC`, `CMP`, `ROWEN` and `SC`, and `WAITCTR` only down by one while `RUN = 1`, and with it elapse the PWM clocks that the
ending interval still has; or the foreground's, and changes only `LB`, `FS`, `RUN`, `RDATA`, `FAULT` and the queue, and
`WAITCTR` only by the load of a WAIT, queued or just taken; or one PWM clock, and changes only `PWMCNT`. The input taken is the
model's (assumption 1), and so is the field `pwmLeft` that counts the clocks of the interval (assumption 5). -/
def Obligations.TheTwoContextsOwnTheirState : Prop :=
  ∀ s t : State, step s = .next t →
    (t = { s with
          waitctr := t.waitctr, bc := t.bc, cmp := t.cmp, rowen := t.rowen, sc := t.sc, trace := t.trace,
          pwmcnt := s.pwmcnt + BitVec.ofNat 8 (pwmClocksAt s), pwmLeft := t.pwmLeft } ∧
        (t.waitctr = s.waitctr ∨ s.run = true ∧ t.waitctr.toNat + 1 = s.waitctr.toNat) ∧
        (s.run = true → t.pwmLeft = some (256 * (Config.pwmPeriodsPerTick : Nat))) ∧
        (s.run = false → t.pwmLeft = s.pwmLeft)) ∨
      (t = { s with
          lb := t.lb, fs := t.fs, run := t.run, rdata := t.rdata, fault := t.fault, waitctr := t.waitctr, fgq := t.fgq,
          trace := t.trace, preempt := t.preempt } ∧
        (t.waitctr = s.waitctr ∨ (∃ ms, .loadWait ms ∈ s.fgq ∧ t.waitctr = waitTicks ms) ∨
          ∃ w cut rest ms, s.trace = .command w cut :: rest ∧ decode w = .ok (.wait ms) ∧ s.waitctr = 0 ∧
            t.waitctr = waitTicks ms)) ∨
      ∃ rest, (s.trace = .pwmClock :: rest ∨ s.trace = [] ∧ rest = []) ∧
        t = { s with trace := rest, pwmcnt := s.pwmcnt + 1, pwmLeft := s.pwmLeft.map fun n => n - 1 }

/-- The end of a run (R236; D20): once every command has completed there is always a next step, every command stays
completed, and nothing the foreground owns changes any more, whatever ticks and PWM clocks still come. That the list is that
of the commands alone is the model's reading (assumption 18); that there is a step also with `RUN = 0`, the idle step and
the tick that is dropped, is the model's choice (assumptions 2 and 4; the idle step is a PWM clock, assumption 5). -/
def Obligations.FinishedRunStaysFinished : Prop :=
  ∀ s : State, Finished s → ∃ t, step s = .next t ∧ Finished t ∧ foregroundView t = foregroundView s

/-! ## Reset and the invariant -/

/-- The launch state holds the values of R38 (decisions D5, D6, D12), with no command in progress and no input, and no tick
interval has begun (R220; the empty input and the field `pwmLeft` are the model's choice, assumptions 2 and 5). `PWMCNT` is
unspecified (U11), so nothing is said of it. -/
def Obligations.LaunchStateIsDarkAndStopped : Prop :=
  (∀ k, State.reset.readLB k = 0) ∧ (∀ i : Led, State.reset.fs[i.val] = .idle) ∧
    (∀ c : Column, State.reset.cmp[c.val] = 0) ∧ State.reset.sc = 0 ∧ State.reset.bc = 0 ∧ State.reset.rowen = 0 ∧
    State.reset.waitctr = 0 ∧ State.reset.run = false ∧ State.reset.rdata = 0 ∧ State.reset.fault = .noFault ∧
    State.reset.trace = [] ∧ State.reset.pwmLeft = none ∧ Finished State.reset

/-- The launch state meets the invariant (R39). -/
def Obligations.LaunchStateMeetsTheInvariant : Prop := Inv State.reset

/-- Every step keeps the invariant (R39): the Light Buffer stays in canonical form and 0 outside `TOPO`, `BC` within
0..4, at most one row asserted and that the one before the cursor, nothing driven before START, `WAITCTR` at most 510,
a fade step in progress has the arguments FSTEP gave it, and while a command is in progress `WAITCTR` and `FAULT` are
0, so that a WAIT loads the counter only while it is 0 (R59, R73). A tick interval has no more than its PWM clocks left and
none begins before START (R109; the field `pwmLeft` is the model's, assumption 5). -/
def Obligations.EveryStepKeepsTheInvariant : Prop := ∀ s t : State, Inv s → step s = .next t → Inv t
end

