-- ==== Sys2Proof/Laws/State.lean ====
section
/-!
SUPPORT. Laws/State.lean: what each named update does to each field, and what it leaves. Every lemma is true by
unfolding; later proofs cite them and never unfold a record update.
-/

namespace Sys2Proof.Machine

/-! `State.writeLB` -/

@[simp] theorem State.writeLB_lb (s : State) (k : BufferIndex) (v : Byte) : (s.writeLB k v).lb = Memory.write s.lb k.val v := rfl
@[simp] theorem State.writeLB_fs (s : State) (k : BufferIndex) (v : Byte) : (s.writeLB k v).fs = s.fs := rfl
@[simp] theorem State.writeLB_sc (s : State) (k : BufferIndex) (v : Byte) : (s.writeLB k v).sc = s.sc := rfl
@[simp] theorem State.writeLB_bc (s : State) (k : BufferIndex) (v : Byte) : (s.writeLB k v).bc = s.bc := rfl
@[simp] theorem State.writeLB_cmp (s : State) (k : BufferIndex) (v : Byte) : (s.writeLB k v).cmp = s.cmp := rfl
@[simp] theorem State.writeLB_rowen (s : State) (k : BufferIndex) (v : Byte) : (s.writeLB k v).rowen = s.rowen := rfl
@[simp] theorem State.writeLB_waitctr (s : State) (k : BufferIndex) (v : Byte) : (s.writeLB k v).waitctr = s.waitctr := rfl
@[simp] theorem State.writeLB_run (s : State) (k : BufferIndex) (v : Byte) : (s.writeLB k v).run = s.run := rfl
@[simp] theorem State.writeLB_rdata (s : State) (k : BufferIndex) (v : Byte) : (s.writeLB k v).rdata = s.rdata := rfl
@[simp] theorem State.writeLB_fault (s : State) (k : BufferIndex) (v : Byte) : (s.writeLB k v).fault = s.fault := rfl
@[simp] theorem State.writeLB_pwmcnt (s : State) (k : BufferIndex) (v : Byte) : (s.writeLB k v).pwmcnt = s.pwmcnt := rfl
@[simp] theorem State.writeLB_pwmLeft (s : State) (k : BufferIndex) (v : Byte) : (s.writeLB k v).pwmLeft = s.pwmLeft := rfl
@[simp] theorem State.writeLB_fgq (s : State) (k : BufferIndex) (v : Byte) : (s.writeLB k v).fgq = s.fgq := rfl
@[simp] theorem State.writeLB_trace (s : State) (k : BufferIndex) (v : Byte) : (s.writeLB k v).trace = s.trace := rfl
@[simp] theorem State.writeLB_preempt (s : State) (k : BufferIndex) (v : Byte) : (s.writeLB k v).preempt = s.preempt := rfl

/-! `State.writeFS` -/

@[simp] theorem State.writeFS_lb (s : State) (i : Led) (x : FadeState) : (s.writeFS i x).lb = s.lb := rfl
@[simp] theorem State.writeFS_fs (s : State) (i : Led) (x : FadeState) : (s.writeFS i x).fs = s.fs.set i.val x := rfl
@[simp] theorem State.writeFS_sc (s : State) (i : Led) (x : FadeState) : (s.writeFS i x).sc = s.sc := rfl
@[simp] theorem State.writeFS_bc (s : State) (i : Led) (x : FadeState) : (s.writeFS i x).bc = s.bc := rfl
@[simp] theorem State.writeFS_cmp (s : State) (i : Led) (x : FadeState) : (s.writeFS i x).cmp = s.cmp := rfl
@[simp] theorem State.writeFS_rowen (s : State) (i : Led) (x : FadeState) : (s.writeFS i x).rowen = s.rowen := rfl
@[simp] theorem State.writeFS_waitctr (s : State) (i : Led) (x : FadeState) : (s.writeFS i x).waitctr = s.waitctr := rfl
@[simp] theorem State.writeFS_run (s : State) (i : Led) (x : FadeState) : (s.writeFS i x).run = s.run := rfl
@[simp] theorem State.writeFS_rdata (s : State) (i : Led) (x : FadeState) : (s.writeFS i x).rdata = s.rdata := rfl
@[simp] theorem State.writeFS_fault (s : State) (i : Led) (x : FadeState) : (s.writeFS i x).fault = s.fault := rfl
@[simp] theorem State.writeFS_pwmcnt (s : State) (i : Led) (x : FadeState) : (s.writeFS i x).pwmcnt = s.pwmcnt := rfl
@[simp] theorem State.writeFS_pwmLeft (s : State) (i : Led) (x : FadeState) : (s.writeFS i x).pwmLeft = s.pwmLeft := rfl
@[simp] theorem State.writeFS_fgq (s : State) (i : Led) (x : FadeState) : (s.writeFS i x).fgq = s.fgq := rfl
@[simp] theorem State.writeFS_trace (s : State) (i : Led) (x : FadeState) : (s.writeFS i x).trace = s.trace := rfl
@[simp] theorem State.writeFS_preempt (s : State) (i : Led) (x : FadeState) : (s.writeFS i x).preempt = s.preempt := rfl

/-! `State.fillFS` -/

@[simp] theorem State.fillFS_lb (s : State) (x : FadeState) : (s.fillFS x).lb = s.lb := rfl
@[simp] theorem State.fillFS_fs (s : State) (x : FadeState) : (s.fillFS x).fs = Vector.replicate 13 x := rfl
@[simp] theorem State.fillFS_sc (s : State) (x : FadeState) : (s.fillFS x).sc = s.sc := rfl
@[simp] theorem State.fillFS_bc (s : State) (x : FadeState) : (s.fillFS x).bc = s.bc := rfl
@[simp] theorem State.fillFS_cmp (s : State) (x : FadeState) : (s.fillFS x).cmp = s.cmp := rfl
@[simp] theorem State.fillFS_rowen (s : State) (x : FadeState) : (s.fillFS x).rowen = s.rowen := rfl
@[simp] theorem State.fillFS_waitctr (s : State) (x : FadeState) : (s.fillFS x).waitctr = s.waitctr := rfl
@[simp] theorem State.fillFS_run (s : State) (x : FadeState) : (s.fillFS x).run = s.run := rfl
@[simp] theorem State.fillFS_rdata (s : State) (x : FadeState) : (s.fillFS x).rdata = s.rdata := rfl
@[simp] theorem State.fillFS_fault (s : State) (x : FadeState) : (s.fillFS x).fault = s.fault := rfl
@[simp] theorem State.fillFS_pwmcnt (s : State) (x : FadeState) : (s.fillFS x).pwmcnt = s.pwmcnt := rfl
@[simp] theorem State.fillFS_pwmLeft (s : State) (x : FadeState) : (s.fillFS x).pwmLeft = s.pwmLeft := rfl
@[simp] theorem State.fillFS_fgq (s : State) (x : FadeState) : (s.fillFS x).fgq = s.fgq := rfl
@[simp] theorem State.fillFS_trace (s : State) (x : FadeState) : (s.fillFS x).trace = s.trace := rfl
@[simp] theorem State.fillFS_preempt (s : State) (x : FadeState) : (s.fillFS x).preempt = s.preempt := rfl

/-! `State.setCompare` -/

@[simp] theorem State.setCompare_lb (s : State) (c : Column) (v : Byte) : (s.setCompare c v).lb = s.lb := rfl
@[simp] theorem State.setCompare_fs (s : State) (c : Column) (v : Byte) : (s.setCompare c v).fs = s.fs := rfl
@[simp] theorem State.setCompare_sc (s : State) (c : Column) (v : Byte) : (s.setCompare c v).sc = s.sc := rfl
@[simp] theorem State.setCompare_bc (s : State) (c : Column) (v : Byte) : (s.setCompare c v).bc = s.bc := rfl
@[simp] theorem State.setCompare_cmp (s : State) (c : Column) (v : Byte) : (s.setCompare c v).cmp = s.cmp.set c.val v := rfl
@[simp] theorem State.setCompare_rowen (s : State) (c : Column) (v : Byte) : (s.setCompare c v).rowen = s.rowen := rfl
@[simp] theorem State.setCompare_waitctr (s : State) (c : Column) (v : Byte) : (s.setCompare c v).waitctr = s.waitctr := rfl
@[simp] theorem State.setCompare_run (s : State) (c : Column) (v : Byte) : (s.setCompare c v).run = s.run := rfl
@[simp] theorem State.setCompare_rdata (s : State) (c : Column) (v : Byte) : (s.setCompare c v).rdata = s.rdata := rfl
@[simp] theorem State.setCompare_fault (s : State) (c : Column) (v : Byte) : (s.setCompare c v).fault = s.fault := rfl
@[simp] theorem State.setCompare_pwmcnt (s : State) (c : Column) (v : Byte) : (s.setCompare c v).pwmcnt = s.pwmcnt := rfl
@[simp] theorem State.setCompare_pwmLeft (s : State) (c : Column) (v : Byte) : (s.setCompare c v).pwmLeft = s.pwmLeft := rfl
@[simp] theorem State.setCompare_fgq (s : State) (c : Column) (v : Byte) : (s.setCompare c v).fgq = s.fgq := rfl
@[simp] theorem State.setCompare_trace (s : State) (c : Column) (v : Byte) : (s.setCompare c v).trace = s.trace := rfl
@[simp] theorem State.setCompare_preempt (s : State) (c : Column) (v : Byte) : (s.setCompare c v).preempt = s.preempt := rfl

/-! `State.setSource` -/

@[simp] theorem State.setSource_lb (s : State) (m : BitVec 4) : (s.setSource m).lb = s.lb := rfl
@[simp] theorem State.setSource_fs (s : State) (m : BitVec 4) : (s.setSource m).fs = s.fs := rfl
@[simp] theorem State.setSource_sc (s : State) (m : BitVec 4) : (s.setSource m).sc = s.sc := rfl
@[simp] theorem State.setSource_bc (s : State) (m : BitVec 4) : (s.setSource m).bc = s.bc := rfl
@[simp] theorem State.setSource_cmp (s : State) (m : BitVec 4) : (s.setSource m).cmp = s.cmp := rfl
@[simp] theorem State.setSource_rowen (s : State) (m : BitVec 4) : (s.setSource m).rowen = m := rfl
@[simp] theorem State.setSource_waitctr (s : State) (m : BitVec 4) : (s.setSource m).waitctr = s.waitctr := rfl
@[simp] theorem State.setSource_run (s : State) (m : BitVec 4) : (s.setSource m).run = s.run := rfl
@[simp] theorem State.setSource_rdata (s : State) (m : BitVec 4) : (s.setSource m).rdata = s.rdata := rfl
@[simp] theorem State.setSource_fault (s : State) (m : BitVec 4) : (s.setSource m).fault = s.fault := rfl
@[simp] theorem State.setSource_pwmcnt (s : State) (m : BitVec 4) : (s.setSource m).pwmcnt = s.pwmcnt := rfl
@[simp] theorem State.setSource_pwmLeft (s : State) (m : BitVec 4) : (s.setSource m).pwmLeft = s.pwmLeft := rfl
@[simp] theorem State.setSource_fgq (s : State) (m : BitVec 4) : (s.setSource m).fgq = s.fgq := rfl
@[simp] theorem State.setSource_trace (s : State) (m : BitVec 4) : (s.setSource m).trace = s.trace := rfl
@[simp] theorem State.setSource_preempt (s : State) (m : BitVec 4) : (s.setSource m).preempt = s.preempt := rfl

/-! `State.setRun` -/

@[simp] theorem State.setRun_lb (s : State) : (s.setRun).lb = s.lb := rfl
@[simp] theorem State.setRun_fs (s : State) : (s.setRun).fs = s.fs := rfl
@[simp] theorem State.setRun_sc (s : State) : (s.setRun).sc = s.sc := rfl
@[simp] theorem State.setRun_bc (s : State) : (s.setRun).bc = s.bc := rfl
@[simp] theorem State.setRun_cmp (s : State) : (s.setRun).cmp = s.cmp := rfl
@[simp] theorem State.setRun_rowen (s : State) : (s.setRun).rowen = s.rowen := rfl
@[simp] theorem State.setRun_waitctr (s : State) : (s.setRun).waitctr = s.waitctr := rfl
@[simp] theorem State.setRun_run (s : State) : (s.setRun).run = true := rfl
@[simp] theorem State.setRun_rdata (s : State) : (s.setRun).rdata = s.rdata := rfl
@[simp] theorem State.setRun_fault (s : State) : (s.setRun).fault = s.fault := rfl
@[simp] theorem State.setRun_pwmcnt (s : State) : (s.setRun).pwmcnt = s.pwmcnt := rfl
@[simp] theorem State.setRun_pwmLeft (s : State) : (s.setRun).pwmLeft = s.pwmLeft := rfl
@[simp] theorem State.setRun_fgq (s : State) : (s.setRun).fgq = s.fgq := rfl
@[simp] theorem State.setRun_trace (s : State) : (s.setRun).trace = s.trace := rfl
@[simp] theorem State.setRun_preempt (s : State) : (s.setRun).preempt = s.preempt := rfl

/-! `State.latch` -/

@[simp] theorem State.latch_lb (s : State) (v : Byte) : (s.latch v).lb = s.lb := rfl
@[simp] theorem State.latch_fs (s : State) (v : Byte) : (s.latch v).fs = s.fs := rfl
@[simp] theorem State.latch_sc (s : State) (v : Byte) : (s.latch v).sc = s.sc := rfl
@[simp] theorem State.latch_bc (s : State) (v : Byte) : (s.latch v).bc = s.bc := rfl
@[simp] theorem State.latch_cmp (s : State) (v : Byte) : (s.latch v).cmp = s.cmp := rfl
@[simp] theorem State.latch_rowen (s : State) (v : Byte) : (s.latch v).rowen = s.rowen := rfl
@[simp] theorem State.latch_waitctr (s : State) (v : Byte) : (s.latch v).waitctr = s.waitctr := rfl
@[simp] theorem State.latch_run (s : State) (v : Byte) : (s.latch v).run = s.run := rfl
@[simp] theorem State.latch_rdata (s : State) (v : Byte) : (s.latch v).rdata = v := rfl
@[simp] theorem State.latch_fault (s : State) (v : Byte) : (s.latch v).fault = s.fault := rfl
@[simp] theorem State.latch_pwmcnt (s : State) (v : Byte) : (s.latch v).pwmcnt = s.pwmcnt := rfl
@[simp] theorem State.latch_pwmLeft (s : State) (v : Byte) : (s.latch v).pwmLeft = s.pwmLeft := rfl
@[simp] theorem State.latch_fgq (s : State) (v : Byte) : (s.latch v).fgq = s.fgq := rfl
@[simp] theorem State.latch_trace (s : State) (v : Byte) : (s.latch v).trace = s.trace := rfl
@[simp] theorem State.latch_preempt (s : State) (v : Byte) : (s.latch v).preempt = s.preempt := rfl

/-! `State.setWait` -/

@[simp] theorem State.setWait_lb (s : State) (n : BitVec 16) : (s.setWait n).lb = s.lb := rfl
@[simp] theorem State.setWait_fs (s : State) (n : BitVec 16) : (s.setWait n).fs = s.fs := rfl
@[simp] theorem State.setWait_sc (s : State) (n : BitVec 16) : (s.setWait n).sc = s.sc := rfl
@[simp] theorem State.setWait_bc (s : State) (n : BitVec 16) : (s.setWait n).bc = s.bc := rfl
@[simp] theorem State.setWait_cmp (s : State) (n : BitVec 16) : (s.setWait n).cmp = s.cmp := rfl
@[simp] theorem State.setWait_rowen (s : State) (n : BitVec 16) : (s.setWait n).rowen = s.rowen := rfl
@[simp] theorem State.setWait_waitctr (s : State) (n : BitVec 16) : (s.setWait n).waitctr = n := rfl
@[simp] theorem State.setWait_run (s : State) (n : BitVec 16) : (s.setWait n).run = s.run := rfl
@[simp] theorem State.setWait_rdata (s : State) (n : BitVec 16) : (s.setWait n).rdata = s.rdata := rfl
@[simp] theorem State.setWait_fault (s : State) (n : BitVec 16) : (s.setWait n).fault = s.fault := rfl
@[simp] theorem State.setWait_pwmcnt (s : State) (n : BitVec 16) : (s.setWait n).pwmcnt = s.pwmcnt := rfl
@[simp] theorem State.setWait_pwmLeft (s : State) (n : BitVec 16) : (s.setWait n).pwmLeft = s.pwmLeft := rfl
@[simp] theorem State.setWait_fgq (s : State) (n : BitVec 16) : (s.setWait n).fgq = s.fgq := rfl
@[simp] theorem State.setWait_trace (s : State) (n : BitVec 16) : (s.setWait n).trace = s.trace := rfl
@[simp] theorem State.setWait_preempt (s : State) (n : BitVec 16) : (s.setWait n).preempt = s.preempt := rfl

/-! `State.setBlank` -/

@[simp] theorem State.setBlank_lb (s : State) (n : BitVec 3) : (s.setBlank n).lb = s.lb := rfl
@[simp] theorem State.setBlank_fs (s : State) (n : BitVec 3) : (s.setBlank n).fs = s.fs := rfl
@[simp] theorem State.setBlank_sc (s : State) (n : BitVec 3) : (s.setBlank n).sc = s.sc := rfl
@[simp] theorem State.setBlank_bc (s : State) (n : BitVec 3) : (s.setBlank n).bc = n := rfl
@[simp] theorem State.setBlank_cmp (s : State) (n : BitVec 3) : (s.setBlank n).cmp = s.cmp := rfl
@[simp] theorem State.setBlank_rowen (s : State) (n : BitVec 3) : (s.setBlank n).rowen = s.rowen := rfl
@[simp] theorem State.setBlank_waitctr (s : State) (n : BitVec 3) : (s.setBlank n).waitctr = s.waitctr := rfl
@[simp] theorem State.setBlank_run (s : State) (n : BitVec 3) : (s.setBlank n).run = s.run := rfl
@[simp] theorem State.setBlank_rdata (s : State) (n : BitVec 3) : (s.setBlank n).rdata = s.rdata := rfl
@[simp] theorem State.setBlank_fault (s : State) (n : BitVec 3) : (s.setBlank n).fault = s.fault := rfl
@[simp] theorem State.setBlank_pwmcnt (s : State) (n : BitVec 3) : (s.setBlank n).pwmcnt = s.pwmcnt := rfl
@[simp] theorem State.setBlank_pwmLeft (s : State) (n : BitVec 3) : (s.setBlank n).pwmLeft = s.pwmLeft := rfl
@[simp] theorem State.setBlank_fgq (s : State) (n : BitVec 3) : (s.setBlank n).fgq = s.fgq := rfl
@[simp] theorem State.setBlank_trace (s : State) (n : BitVec 3) : (s.setBlank n).trace = s.trace := rfl
@[simp] theorem State.setBlank_preempt (s : State) (n : BitVec 3) : (s.setBlank n).preempt = s.preempt := rfl

/-! `State.setCursor` -/

@[simp] theorem State.setCursor_lb (s : State) (r : Row) : (s.setCursor r).lb = s.lb := rfl
@[simp] theorem State.setCursor_fs (s : State) (r : Row) : (s.setCursor r).fs = s.fs := rfl
@[simp] theorem State.setCursor_sc (s : State) (r : Row) : (s.setCursor r).sc = r := rfl
@[simp] theorem State.setCursor_bc (s : State) (r : Row) : (s.setCursor r).bc = s.bc := rfl
@[simp] theorem State.setCursor_cmp (s : State) (r : Row) : (s.setCursor r).cmp = s.cmp := rfl
@[simp] theorem State.setCursor_rowen (s : State) (r : Row) : (s.setCursor r).rowen = s.rowen := rfl
@[simp] theorem State.setCursor_waitctr (s : State) (r : Row) : (s.setCursor r).waitctr = s.waitctr := rfl
@[simp] theorem State.setCursor_run (s : State) (r : Row) : (s.setCursor r).run = s.run := rfl
@[simp] theorem State.setCursor_rdata (s : State) (r : Row) : (s.setCursor r).rdata = s.rdata := rfl
@[simp] theorem State.setCursor_fault (s : State) (r : Row) : (s.setCursor r).fault = s.fault := rfl
@[simp] theorem State.setCursor_pwmcnt (s : State) (r : Row) : (s.setCursor r).pwmcnt = s.pwmcnt := rfl
@[simp] theorem State.setCursor_pwmLeft (s : State) (r : Row) : (s.setCursor r).pwmLeft = s.pwmLeft := rfl
@[simp] theorem State.setCursor_fgq (s : State) (r : Row) : (s.setCursor r).fgq = s.fgq := rfl
@[simp] theorem State.setCursor_trace (s : State) (r : Row) : (s.setCursor r).trace = s.trace := rfl
@[simp] theorem State.setCursor_preempt (s : State) (r : Row) : (s.setCursor r).preempt = s.preempt := rfl

/-! `State.setQueue` -/

@[simp] theorem State.setQueue_lb (s : State) (q : List MicroOp) : (s.setQueue q).lb = s.lb := rfl
@[simp] theorem State.setQueue_fs (s : State) (q : List MicroOp) : (s.setQueue q).fs = s.fs := rfl
@[simp] theorem State.setQueue_sc (s : State) (q : List MicroOp) : (s.setQueue q).sc = s.sc := rfl
@[simp] theorem State.setQueue_bc (s : State) (q : List MicroOp) : (s.setQueue q).bc = s.bc := rfl
@[simp] theorem State.setQueue_cmp (s : State) (q : List MicroOp) : (s.setQueue q).cmp = s.cmp := rfl
@[simp] theorem State.setQueue_rowen (s : State) (q : List MicroOp) : (s.setQueue q).rowen = s.rowen := rfl
@[simp] theorem State.setQueue_waitctr (s : State) (q : List MicroOp) : (s.setQueue q).waitctr = s.waitctr := rfl
@[simp] theorem State.setQueue_run (s : State) (q : List MicroOp) : (s.setQueue q).run = s.run := rfl
@[simp] theorem State.setQueue_rdata (s : State) (q : List MicroOp) : (s.setQueue q).rdata = s.rdata := rfl
@[simp] theorem State.setQueue_fault (s : State) (q : List MicroOp) : (s.setQueue q).fault = s.fault := rfl
@[simp] theorem State.setQueue_pwmcnt (s : State) (q : List MicroOp) : (s.setQueue q).pwmcnt = s.pwmcnt := rfl
@[simp] theorem State.setQueue_pwmLeft (s : State) (q : List MicroOp) : (s.setQueue q).pwmLeft = s.pwmLeft := rfl
@[simp] theorem State.setQueue_fgq (s : State) (q : List MicroOp) : (s.setQueue q).fgq = q := rfl
@[simp] theorem State.setQueue_trace (s : State) (q : List MicroOp) : (s.setQueue q).trace = s.trace := rfl
@[simp] theorem State.setQueue_preempt (s : State) (q : List MicroOp) : (s.setQueue q).preempt = s.preempt := rfl

/-! `State.uncut` -/

@[simp] theorem State.uncut_lb (s : State) : (s.uncut).lb = s.lb := rfl
@[simp] theorem State.uncut_fs (s : State) : (s.uncut).fs = s.fs := rfl
@[simp] theorem State.uncut_sc (s : State) : (s.uncut).sc = s.sc := rfl
@[simp] theorem State.uncut_bc (s : State) : (s.uncut).bc = s.bc := rfl
@[simp] theorem State.uncut_cmp (s : State) : (s.uncut).cmp = s.cmp := rfl
@[simp] theorem State.uncut_rowen (s : State) : (s.uncut).rowen = s.rowen := rfl
@[simp] theorem State.uncut_waitctr (s : State) : (s.uncut).waitctr = s.waitctr := rfl
@[simp] theorem State.uncut_run (s : State) : (s.uncut).run = s.run := rfl
@[simp] theorem State.uncut_rdata (s : State) : (s.uncut).rdata = s.rdata := rfl
@[simp] theorem State.uncut_fault (s : State) : (s.uncut).fault = s.fault := rfl
@[simp] theorem State.uncut_pwmcnt (s : State) : (s.uncut).pwmcnt = s.pwmcnt := rfl
@[simp] theorem State.uncut_pwmLeft (s : State) : (s.uncut).pwmLeft = s.pwmLeft := rfl
@[simp] theorem State.uncut_fgq (s : State) : (s.uncut).fgq = s.fgq := rfl
@[simp] theorem State.uncut_trace (s : State) : (s.uncut).trace = s.trace := rfl
@[simp] theorem State.uncut_preempt (s : State) : (s.uncut).preempt = none := rfl

/-! `State.proceed` -/

@[simp] theorem State.proceed_lb (s : State) (ops : List MicroOp) : (s.proceed ops).lb = s.lb := rfl
@[simp] theorem State.proceed_fs (s : State) (ops : List MicroOp) : (s.proceed ops).fs = s.fs := rfl
@[simp] theorem State.proceed_sc (s : State) (ops : List MicroOp) : (s.proceed ops).sc = s.sc := rfl
@[simp] theorem State.proceed_bc (s : State) (ops : List MicroOp) : (s.proceed ops).bc = s.bc := rfl
@[simp] theorem State.proceed_cmp (s : State) (ops : List MicroOp) : (s.proceed ops).cmp = s.cmp := rfl
@[simp] theorem State.proceed_rowen (s : State) (ops : List MicroOp) : (s.proceed ops).rowen = s.rowen := rfl
@[simp] theorem State.proceed_waitctr (s : State) (ops : List MicroOp) : (s.proceed ops).waitctr = s.waitctr := rfl
@[simp] theorem State.proceed_run (s : State) (ops : List MicroOp) : (s.proceed ops).run = s.run := rfl
@[simp] theorem State.proceed_rdata (s : State) (ops : List MicroOp) : (s.proceed ops).rdata = s.rdata := rfl
@[simp] theorem State.proceed_fault (s : State) (ops : List MicroOp) : (s.proceed ops).fault = s.fault := rfl
@[simp] theorem State.proceed_pwmcnt (s : State) (ops : List MicroOp) : (s.proceed ops).pwmcnt = s.pwmcnt := rfl
@[simp] theorem State.proceed_pwmLeft (s : State) (ops : List MicroOp) : (s.proceed ops).pwmLeft = s.pwmLeft := rfl
@[simp] theorem State.proceed_fgq (s : State) (ops : List MicroOp) : (s.proceed ops).fgq = ops ++ s.fgq := rfl
@[simp] theorem State.proceed_trace (s : State) (ops : List MicroOp) : (s.proceed ops).trace = s.trace := rfl
@[simp] theorem State.proceed_preempt (s : State) (ops : List MicroOp) : (s.proceed ops).preempt = s.preempt := rfl

/-! Reading the Light Buffer depends on the field `lb` alone. -/

theorem State.readLB_eq (s : State) (k : BufferIndex) : s.readLB k = Memory.read s.lb k.val := rfl

theorem State.readLB_congr {s t : State} (h : s.lb = t.lb) (k : BufferIndex) : s.readLB k = t.readLB k := by
  simp only [State.readLB_eq, h]

theorem State.setQueue_setQueue (s : State) (q r : List MicroOp) : (s.setQueue q).setQueue r = s.setQueue r := rfl

theorem State.uncut_of_none {s : State} (h : s.preempt = none) : s.uncut = s := by
  cases s; simp_all [State.uncut]

theorem State.setQueue_of_eq {s : State} {q : List MicroOp} (h : s.fgq = q) : s.setQueue q = s := by
  cases s; simp_all [State.setQueue]

/-- Two states that agree on every field are the same. -/
theorem State.ext_fields {s t : State} (h1 : s.lb = t.lb) (h2 : s.fs = t.fs) (h3 : s.sc = t.sc) (h4 : s.bc = t.bc)
    (h5 : s.cmp = t.cmp) (h6 : s.rowen = t.rowen) (h7 : s.waitctr = t.waitctr) (h8 : s.run = t.run)
    (h9 : s.rdata = t.rdata) (h10 : s.fault = t.fault) (h11 : s.pwmcnt = t.pwmcnt) (h12 : s.fgq = t.fgq)
    (h13 : s.trace = t.trace) (h14 : s.preempt = t.preempt) (h15 : s.pwmLeft = t.pwmLeft) : s = t := by
  cases s
  cases t
  simp_all

end Sys2Proof.Machine
end

