-- ==== Sys2Proof/Laws/Memory.lean ====
section
/-!
SUPPORT. Laws/Memory.lean: reading after writing, and that every memory operation keeps the canonical form.
-/

namespace Sys2Proof.Machine

/-- The canonical form as a proposition. -/
theorem Memory.wf_iff (m : List Host.Cell) :
    Memory.wf m = true ↔ m.Pairwise (fun c d => c.1 < d.1) ∧ ∀ c ∈ m, c.1 < 48 ∧ c.2 ≠ unlisted := by
  simp [Memory.wf]

theorem Memory.read_erase_same (m : List Host.Cell) (a : Nat) : Memory.read (Memory.erase m a) a = unlisted := by
  induction m with
  | nil => rfl
  | cons c rest ih =>
    obtain ⟨k, v⟩ := c
    by_cases h : k = a <;> simp_all [Memory.erase, Memory.read]

theorem Memory.read_erase_other (m : List Host.Cell) {a b : Nat} (h : b ≠ a) :
    Memory.read (Memory.erase m a) b = Memory.read m b := by
  induction m with
  | nil => rfl
  | cons c rest ih =>
    obtain ⟨k, v⟩ := c
    by_cases hk : k = a
    · subst hk; simp_all [Memory.erase, Memory.read, Ne.symm h]
    · by_cases hb : k = b <;> simp_all [Memory.erase, Memory.read]

theorem Memory.read_insert_other (a : Nat) (v : Byte) (m : List Host.Cell) {b : Nat} (h : b ≠ a) :
    Memory.read (Memory.insert a v m) b = Memory.read m b := by
  induction m with
  | nil => simp [Memory.insert, Memory.read, Ne.symm h]
  | cons c rest ih =>
    obtain ⟨k, w⟩ := c
    by_cases hk : a < k
    · simp [Memory.insert, hk, Memory.read, Ne.symm h]
    · simp only [Memory.insert, hk, if_false, Memory.read, ih]

theorem Memory.read_insert_same (a : Nat) (v : Byte) (m : List Host.Cell) (h : ∀ c ∈ m, c.1 ≠ a) :
    Memory.read (Memory.insert a v m) a = v := by
  induction m with
  | nil => simp [Memory.insert, Memory.read]
  | cons c rest ih =>
    obtain ⟨k, w⟩ := c
    by_cases hk : a < k
    · simp [Memory.insert, hk, Memory.read]
    · rw [Memory.insert, if_neg hk, Memory.read, if_neg (h (k, w) List.mem_cons_self)]
      exact ih (fun c hc => h c (List.mem_cons_of_mem _ hc))

theorem Memory.erase_ne (m : List Host.Cell) (a : Nat) : ∀ c ∈ Memory.erase m a, c.1 ≠ a := by
  intro c hc
  simpa [Memory.erase] using (List.mem_filter.mp hc).2

/-- Reading the index just written gives the value written, in any list. -/
@[simp] theorem Memory.read_write_same (m : List Host.Cell) (a : Nat) (v : Byte) :
    Memory.read (Memory.write m a v) a = v := by
  unfold Memory.write
  split
  · rename_i h; rw [h]; exact Memory.read_erase_same m a
  · exact Memory.read_insert_same a v _ (Memory.erase_ne m a)

/-- Writing one index leaves every other as it was, in any list. -/
theorem Memory.read_write_other (m : List Host.Cell) {a b : Nat} (v : Byte) (h : b ≠ a) :
    Memory.read (Memory.write m a v) b = Memory.read m b := by
  unfold Memory.write
  split
  · exact Memory.read_erase_other m h
  · rw [Memory.read_insert_other a v _ h, Memory.read_erase_other m h]

theorem Memory.read_write (m : List Host.Cell) (a b : Nat) (v : Byte) :
    Memory.read (Memory.write m a v) b = if b = a then v else Memory.read m b := by
  split
  · rename_i h; rw [h, Memory.read_write_same]
  · rename_i h; exact Memory.read_write_other m v h

theorem Memory.mem_insert {a : Nat} {v : Byte} {m : List Host.Cell} {c : Host.Cell}
    (h : c ∈ Memory.insert a v m) : c = (a, v) ∨ c ∈ m := by
  induction m with
  | nil => simpa [Memory.insert] using h
  | cons d rest ih =>
    obtain ⟨k, w⟩ := d
    by_cases hk : a < k
    · simpa [Memory.insert, hk] using h
    · simp only [Memory.insert, hk, if_false, List.mem_cons] at h ⊢
      rcases h with h | h
      · exact .inr (.inl h)
      · exact (ih h).imp id .inr

theorem Memory.sorted_insert {a : Nat} {v : Byte} {m : List Host.Cell} (hm : m.Pairwise (fun c d => c.1 < d.1))
    (ha : ∀ c ∈ m, c.1 ≠ a) : (Memory.insert a v m).Pairwise (fun c d => c.1 < d.1) := by
  induction m with
  | nil => simp [Memory.insert]
  | cons d rest ih =>
    obtain ⟨k, w⟩ := d
    rw [List.pairwise_cons] at hm
    have hka : k ≠ a := ha (k, w) List.mem_cons_self
    by_cases hk : a < k
    · simp only [Memory.insert, hk, if_true, List.pairwise_cons, List.mem_cons]
      refine ⟨?_, hm.1, hm.2⟩
      rintro c (rfl | hc)
      · exact hk
      · exact lt_trans hk (hm.1 c hc)
    · simp only [Memory.insert, hk, if_false, List.pairwise_cons]
      refine ⟨?_, ih hm.2 (fun c hc => ha c (List.mem_cons_of_mem _ hc))⟩
      intro c hc
      rcases Memory.mem_insert hc with rfl | hc
      · show k < a; omega
      · exact hm.1 c hc

/-- A write keeps the canonical form. -/
theorem Memory.wf_write {m : List Host.Cell} (h : Memory.wf m = true) {a : Nat} (ha : a < 48) (v : Byte) :
    Memory.wf (Memory.write m a v) = true := by
  rw [Memory.wf_iff] at h ⊢
  have he : (Memory.erase m a).Pairwise (fun c d => c.1 < d.1) := h.1.filter _
  have hin : ∀ c ∈ Memory.erase m a, c.1 < 48 ∧ c.2 ≠ unlisted := fun c hc => h.2 c (List.mem_filter.mp hc).1
  unfold Memory.write
  split
  · exact ⟨he, hin⟩
  · rename_i hv
    refine ⟨Memory.sorted_insert he (Memory.erase_ne m a), fun c hc => ?_⟩
    rcases Memory.mem_insert hc with rfl | hc
    · exact ⟨ha, hv⟩
    · exact hin c hc

/-- The memory of the launch state is in canonical form. -/
theorem Memory.wf_reset : Memory.wf State.reset.lb = true := by decide

theorem Memory.read_of_lt_head {m : List Host.Cell} {a : Nat} (h : ∀ c ∈ m, a < c.1) : Memory.read m a = unlisted := by
  induction m with
  | nil => rfl
  | cons d rest ih =>
    obtain ⟨k, w⟩ := d
    have hk : a < k := h (k, w) List.mem_cons_self
    rw [Memory.read, if_neg (by omega)]
    exact ih (fun c hc => h c (List.mem_cons_of_mem _ hc))

/-- In canonical form, memories that read alike are equal data. -/
theorem Memory.ext_of_wf {m n : List Host.Cell} (hm : Memory.wf m = true) (hn : Memory.wf n = true)
    (h : ∀ a, Memory.read m a = Memory.read n a) : m = n := by
  rw [Memory.wf_iff] at hm hn
  induction m generalizing n with
  | nil =>
    cases n with
    | nil => rfl
    | cons d rest =>
      obtain ⟨k, w⟩ := d
      have := h k
      rw [Memory.read, Memory.read, if_pos rfl] at this
      exact absurd this.symm (hn.2 (k, w) List.mem_cons_self).2
  | cons c mrest ih =>
    obtain ⟨k, w⟩ := c
    have hkm := List.pairwise_cons.mp hm.1
    cases n with
    | nil =>
      have := h k
      rw [Memory.read, Memory.read, if_pos rfl] at this
      exact absurd this (hm.2 (k, w) List.mem_cons_self).2
    | cons d nrest =>
      obtain ⟨l, x⟩ := d
      have hln := List.pairwise_cons.mp hn.1
      have hw := (hm.2 (k, w) List.mem_cons_self).2
      have hx := (hn.2 (l, x) List.mem_cons_self).2
      have hkl : k = l := by
        rcases Nat.lt_trichotomy k l with hlt | heq | hgt
        · have h1 := h k
          rw [Memory.read, if_pos rfl, Memory.read_of_lt_head (m := (l, x) :: nrest)] at h1
          · exact absurd h1 hw
          · intro c hc
            rcases List.mem_cons.mp hc with rfl | hc
            · exact hlt
            · exact lt_trans hlt (hln.1 c hc)
        · exact heq
        · have h1 := h l
          rw [Memory.read_of_lt_head (m := (k, w) :: mrest), Memory.read, if_pos rfl] at h1
          · exact absurd h1.symm hx
          · intro c hc
            rcases List.mem_cons.mp hc with rfl | hc
            · exact hgt
            · exact lt_trans hgt (hkm.1 c hc)
      subst hkl
      have hwx : w = x := by simpa [Memory.read] using h k
      subst hwx
      have hrest : mrest = nrest := by
        refine ih (n := nrest) ⟨hkm.2, fun c hc => hm.2 c (List.mem_cons_of_mem _ hc)⟩
          ⟨hln.2, fun c hc => hn.2 c (List.mem_cons_of_mem _ hc)⟩ ?_
        intro a
        by_cases ha : a = k
        · subst ha
          rw [Memory.read_of_lt_head (fun c hc => hkm.1 c hc), Memory.read_of_lt_head (fun c hc => hln.1 c hc)]
        · have := h a
          rwa [Memory.read, if_neg (Ne.symm ha), Memory.read, if_neg (Ne.symm ha)] at this
      rw [hrest]

/-- Writes at two indices can be exchanged. -/
theorem Memory.write_comm {m : List Host.Cell} (hm : Memory.wf m = true) {a b : Nat} (ha : a < 48) (hb : b < 48)
    (hab : a ≠ b) (v w : Byte) :
    Memory.write (Memory.write m a v) b w = Memory.write (Memory.write m b w) a v := by
  apply Memory.ext_of_wf (Memory.wf_write (Memory.wf_write hm ha v) hb w) (Memory.wf_write (Memory.wf_write hm hb w) ha v)
  intro c
  simp only [Memory.read_write]
  by_cases h1 : c = a <;> by_cases h2 : c = b <;> simp_all

/-- `MemRead` after `MemWrite`, in the state's own words (R55(d), R57). -/
theorem State.readLB_writeLB (s : State) (k l : BufferIndex) (v : Byte) :
    (s.writeLB k v).readLB l = if l = k then v else s.readLB l := by
  rw [State.readLB_eq, State.writeLB_lb, Memory.read_write, State.readLB_eq]
  simp only [Fin.ext_iff]

end Sys2Proof.Machine
end

