-- ==== Sys2Proof/Laws/Scan.lean ====
section
/-!
SUPPORT. Laws/Scan.lean: what one TICK does as a whole (R103), as one equation for each of its two kinds, and its frame.
-/

namespace Sys2Proof.Machine

theorem decNonzero_toNat {n : Nat} (x : BitVec n) : (decNonzero x).toNat = x.toNat - 1 := by
  unfold decNonzero
  split
  · rename_i h; simp [h]
  · rename_i h
    have hx : x.toNat ≠ 0 := fun e => h (BitVec.eq_of_toNat_eq (by simpa using e))
    rcases Nat.eq_zero_or_pos n with rfl | hn
    · exact absurd (Subsingleton.elim x 0) h
    · have h1 : (1#n).toNat = 1 := by
        rw [BitVec.toNat_ofNat, Nat.mod_eq_of_lt]
        exact Nat.one_lt_two_pow (by omega)
      have hlt := x.isLt
      show (x - 1#n).toNat = _
      rw [BitVec.toNat_sub, h1, show 2 ^ n - 1 + x.toNat = (x.toNat - 1) + 2 ^ n from by omega, Nat.add_mod_right,
        Nat.mod_eq_of_lt (by omega)]

/-- A tick is a load tick exactly when it finds the Blanking Counter at 0 or 1 (R103). -/
theorem loadsNext_iff (s : State) : s.loadsNext = true ↔ s.bc.toNat ≤ 1 := by
  have h := decNonzero_toNat s.bc
  have hz : decNonzero s.bc = 0 ↔ (decNonzero s.bc).toNat = 0 :=
    ⟨fun e => by rw [e]; rfl, fun e => BitVec.eq_of_toNat_eq (by simpa using e)⟩
  rw [State.loadsNext, beq_iff_eq, hz, h]
  omega

/-- Twelve `set_compare` in ascending order fill the compare registers. -/
theorem set_columns (v : Vector Byte 12) (g : Column → Byte) :
    columns.foldl (fun (u : Vector Byte 12) (c : Column) => u.set c.val (g c)) v = Vector.ofFn g := by
  ext i hi
  simp only [columns, List.foldl_cons, List.foldl_nil, Vector.getElem_ofFn]
  interval_cases i <;> simp

/-- A state's compare registers replaced as a whole. -/
def State.setCompares (s : State) (v : Vector Byte 12) : State := { s with cmp := v }

theorem foldl_blank (cs : List Column) (s : State) :
    (cs.map TickStep.blank).foldl (fun t x => performTick x t) s =
      s.setCompares (cs.foldl (fun (u : Vector Byte 12) (c : Column) => u.set c.val 0) s.cmp) := by
  induction cs generalizing s with
  | nil => rfl
  | cons c rest ih => rw [List.map_cons, List.foldl_cons, ih]; rfl

theorem foldl_load (cs : List Column) (s : State) :
    (cs.map TickStep.load).foldl (fun t x => performTick x t) s =
      s.setCompares (cs.foldl (fun (u : Vector Byte 12) (c : Column) => u.set c.val (s.readLB (columnAddr s.sc c))) s.cmp) := by
  induction cs generalizing s with
  | nil => rfl
  | cons c rest ih => rw [List.map_cons, List.foldl_cons, ih]; rfl

/-- A blank tick (R103 t0 to t2): both counters are decremented and the twelve compare registers are 0. -/
theorem tick_of_blank {s : State} (h : s.loadsNext = false) :
    tick s = ((s.setWait (decNonzero s.waitctr)).setBlank (decNonzero s.bc)).setCompares (Vector.ofFn fun _ => 0) := by
  rw [tick, tickSteps, if_neg (by simp [h]), blankTickSteps, List.foldl_append, foldl_blank, set_columns]
  rfl

/-- A load tick (R103 t0, t1, t3a to t3e): row `SC` is loaded and lit, and the cursor advanced. -/
theorem tick_of_load {s : State} (h : s.loadsNext = true) :
    tick s = ((((s.setWait (decNonzero s.waitctr)).setBlank Config.blankReload).setCompares
      (Vector.ofFn fun c => s.readLB (columnAddr s.sc c))).setSource (onehot s.sc)).setCursor (s.sc + 1) := by
  rw [tick, tickSteps, if_pos h, loadTickSteps, List.foldl_append, List.foldl_append, foldl_load, set_columns]
  rfl

/-- "What the handler changes is exactly what TICK writes: `WAITCTR`, `BC`, `CMP`, `ROWEN`, `SC`" (R197). -/
structure SameForeground (s t : State) : Prop where
  lb : t.lb = s.lb
  fs : t.fs = s.fs
  run : t.run = s.run
  rdata : t.rdata = s.rdata
  fault : t.fault = s.fault
  pwmcnt : t.pwmcnt = s.pwmcnt
  pwmLeft : t.pwmLeft = s.pwmLeft
  fgq : t.fgq = s.fgq
  trace : t.trace = s.trace
  preempt : t.preempt = s.preempt

theorem SameForeground.same (s : State) : SameForeground s s := ⟨rfl, rfl, rfl, rfl, rfl, rfl, rfl, rfl, rfl, rfl⟩

theorem SameForeground.trans {s t u : State} (h : SameForeground s t) (k : SameForeground t u) : SameForeground s u :=
  ⟨k.lb.trans h.lb, k.fs.trans h.fs, k.run.trans h.run, k.rdata.trans h.rdata, k.fault.trans h.fault,
    k.pwmcnt.trans h.pwmcnt, k.pwmLeft.trans h.pwmLeft, k.fgq.trans h.fgq, k.trace.trans h.trace, k.preempt.trans h.preempt⟩

theorem performTick_sameForeground (x : TickStep) (s : State) : SameForeground s (performTick x s) := by
  cases x <;> exact ⟨rfl, rfl, rfl, rfl, rfl, rfl, rfl, rfl, rfl, rfl⟩

theorem tick_sameForeground (s : State) : SameForeground s (tick s) := by
  cases h : s.loadsNext
  · rw [tick_of_blank h]; exact ⟨rfl, rfl, rfl, rfl, rfl, rfl, rfl, rfl, rfl, rfl⟩
  · rw [tick_of_load h]; exact ⟨rfl, rfl, rfl, rfl, rfl, rfl, rfl, rfl, rfl, rfl⟩

theorem ticks_sameForeground (n : Nat) (s : State) : SameForeground s (ticks n s) := by
  induction n generalizing s with
  | zero => exact SameForeground.same s
  | succ n ih => exact (tick_sameForeground s).trans (ih (tick s))

theorem ticks_add (m n : Nat) (s : State) : ticks (m + n) s = ticks n (ticks m s) := by
  induction m generalizing s with
  | zero => simp [ticks]
  | succ m ih => rw [Nat.add_right_comm]; exact ih (tick s)

/-- Every tick takes one off the wait counter until it is 0 (R103 t0). -/
theorem tick_waitctr (s : State) : (tick s).waitctr = decNonzero s.waitctr := by
  cases h : s.loadsNext
  · rw [tick_of_blank h]; rfl
  · rw [tick_of_load h]; rfl

theorem tick_bc (s : State) : (tick s).bc = if s.loadsNext then Config.blankReload else decNonzero s.bc := by
  cases h : s.loadsNext
  · rw [tick_of_blank h]; rfl
  · rw [tick_of_load h]; rfl

theorem tick_sc (s : State) : (tick s).sc = if s.loadsNext then s.sc + 1 else s.sc := by
  cases h : s.loadsNext
  · rw [tick_of_blank h]; rfl
  · rw [tick_of_load h]; rfl

theorem tick_rowen (s : State) : (tick s).rowen = if s.loadsNext then onehot s.sc else s.rowen := by
  cases h : s.loadsNext
  · rw [tick_of_blank h]; rfl
  · rw [tick_of_load h]; rfl

theorem tick_cmp (s : State) :
    (tick s).cmp = Vector.ofFn (fun c => if s.loadsNext then s.readLB (columnAddr s.sc c) else 0) := by
  cases h : s.loadsNext
  · rw [tick_of_blank h]; rfl
  · rw [tick_of_load h]; rfl

/-- A one-hot pattern is one of the five `set_source` may be given (R101). -/
theorem legalRowPattern_onehot (r : Row) : legalRowPattern (onehot r) = true := by
  revert r; decide

end Sys2Proof.Machine
end

