-- ==== Sys2Proof/Laws/Display.lean ====
section
/-!
SUPPORT. Laws/Display.lean: what a PWM clock and the end of a tick interval do to each field, and that a tick interval has
exactly its PWM clocks (R37, R109, D26).
-/

namespace Sys2Proof.Machine

@[simp] theorem pwmClock_lb (s : State) : (pwmClock s).lb = s.lb := rfl
@[simp] theorem pwmClock_fs (s : State) : (pwmClock s).fs = s.fs := rfl
@[simp] theorem pwmClock_sc (s : State) : (pwmClock s).sc = s.sc := rfl
@[simp] theorem pwmClock_bc (s : State) : (pwmClock s).bc = s.bc := rfl
@[simp] theorem pwmClock_cmp (s : State) : (pwmClock s).cmp = s.cmp := rfl
@[simp] theorem pwmClock_rowen (s : State) : (pwmClock s).rowen = s.rowen := rfl
@[simp] theorem pwmClock_waitctr (s : State) : (pwmClock s).waitctr = s.waitctr := rfl
@[simp] theorem pwmClock_run (s : State) : (pwmClock s).run = s.run := rfl
@[simp] theorem pwmClock_rdata (s : State) : (pwmClock s).rdata = s.rdata := rfl
@[simp] theorem pwmClock_fault (s : State) : (pwmClock s).fault = s.fault := rfl
@[simp] theorem pwmClock_pwmcnt (s : State) : (pwmClock s).pwmcnt = s.pwmcnt + 1 := rfl
@[simp] theorem pwmClock_fgq (s : State) : (pwmClock s).fgq = s.fgq := rfl
@[simp] theorem pwmClock_trace (s : State) : (pwmClock s).trace = s.trace := rfl
@[simp] theorem pwmClock_preempt (s : State) : (pwmClock s).preempt = s.preempt := rfl
@[simp] theorem pwmClock_pwmLeft (s : State) : (pwmClock s).pwmLeft = s.pwmLeft.map (· - 1) := rfl

@[simp] theorem endInterval_lb (s : State) : (endInterval s).lb = s.lb := by unfold endInterval; split <;> rfl
@[simp] theorem endInterval_fs (s : State) : (endInterval s).fs = s.fs := by unfold endInterval; split <;> rfl
@[simp] theorem endInterval_sc (s : State) : (endInterval s).sc = s.sc := by unfold endInterval; split <;> rfl
@[simp] theorem endInterval_bc (s : State) : (endInterval s).bc = s.bc := by unfold endInterval; split <;> rfl
@[simp] theorem endInterval_cmp (s : State) : (endInterval s).cmp = s.cmp := by unfold endInterval; split <;> rfl
@[simp] theorem endInterval_rowen (s : State) : (endInterval s).rowen = s.rowen := by unfold endInterval; split <;> rfl
@[simp] theorem endInterval_waitctr (s : State) : (endInterval s).waitctr = s.waitctr := by unfold endInterval; split <;> rfl
@[simp] theorem endInterval_run (s : State) : (endInterval s).run = s.run := by unfold endInterval; split <;> rfl
@[simp] theorem endInterval_rdata (s : State) : (endInterval s).rdata = s.rdata := by unfold endInterval; split <;> rfl
@[simp] theorem endInterval_fault (s : State) : (endInterval s).fault = s.fault := by unfold endInterval; split <;> rfl
@[simp] theorem endInterval_fgq (s : State) : (endInterval s).fgq = s.fgq := by unfold endInterval; split <;> rfl
@[simp] theorem endInterval_trace (s : State) : (endInterval s).trace = s.trace := by unfold endInterval; split <;> rfl
@[simp] theorem endInterval_preempt (s : State) : (endInterval s).preempt = s.preempt := by unfold endInterval; split <;> rfl

theorem endInterval_of_run {s : State} (h : s.run = true) :
    endInterval s = { s with
      pwmcnt := s.pwmcnt + BitVec.ofNat 8 (s.pwmLeft.getD 0)
      pwmLeft := some (pwmClocksPerTick Config.params) } := if_pos h

theorem endInterval_of_stopped {s : State} (h : s.run = false) : endInterval s = s := if_neg (by simp [h])

/-- `n` PWM clocks move `PWMCNT` by `n` modulo 256 and take `n` from what the interval still has. -/
theorem pwmClocks_eq (n : Nat) (s : State) :
    pwmClocks n s = { s with pwmcnt := s.pwmcnt + BitVec.ofNat 8 n, pwmLeft := s.pwmLeft.map (· - n) } := by
  induction n generalizing s with
  | zero => cases s; simp [pwmClocks]
  | succ n ih =>
    rw [pwmClocks, ih]
    simp only [pwmClock, State.mk.injEq, true_and, Option.map_map]
    refine ⟨?_, ?_⟩
    · rw [BitVec.add_assoc, BitVec.add_comm 1, BitVec.ofNat_add]
      rfl
    · congr 1
      funext k
      simp only [Function.comp_apply]
      omega

/-- The clocks that the interval still has elapse at its end, each one a `pwmClock`; then the next interval begins. -/
theorem endInterval_eq_pwmClocks {s : State} {n : Nat} (h : s.run = true) (hn : s.pwmLeft = some n) :
    endInterval s = { pwmClocks n s with pwmLeft := some (pwmClocksPerTick Config.params) } := by
  rw [endInterval_of_run h, pwmClocks_eq, hn]
  rfl

/-- A tick with the interval it ends is TICK, but for the PWM clock's own two fields (R197, R201). -/
theorem tickInterval_pwmcnt (s : State) : (tickInterval s).pwmcnt = (endInterval s).pwmcnt := (tick_sameForeground _).pwmcnt

theorem tickInterval_pwmLeft (s : State) : (tickInterval s).pwmLeft = (endInterval s).pwmLeft :=
  (tick_sameForeground _).pwmLeft

@[simp] theorem tickInterval_run (s : State) : (tickInterval s).run = s.run :=
  (tick_sameForeground _).run.trans (endInterval_run s)

@[simp] theorem tickInterval_waitctr (s : State) : (tickInterval s).waitctr = decNonzero s.waitctr :=
  (tick_waitctr _).trans (congrArg decNonzero (endInterval_waitctr s))

theorem tickDue_iff (s : State) : s.tickDue = true ↔ s.run = true ∧ s.pwmLeft = some 0 := by
  simp [State.tickDue]

end Sys2Proof.Machine
end

