-- ==== Sys2Proof/Laws/Encoding.lean ====
section
/-!
SUPPORT. Laws/Encoding.lean: packing five fields into a word and reading them back are inverse (R74), and words survive
being stored as bytes (R53).
-/

namespace Sys2Proof

theorem packWord_op (op idx : Nibble) (a b c : Byte) : CommandWord.op (packWord op idx a b c) = op := by
  ext i hi
  simp only [CommandWord.op, packWord, BitVec.getElem_extractLsb', BitVec.getLsbD_append]
  interval_cases i <;> simp

theorem packWord_idx (op idx : Nibble) (a b c : Byte) : CommandWord.idx (packWord op idx a b c) = idx := by
  ext i hi
  simp only [CommandWord.idx, packWord, BitVec.getElem_extractLsb', BitVec.getLsbD_append]
  interval_cases i <;> simp

theorem packWord_a (op idx : Nibble) (a b c : Byte) : CommandWord.a (packWord op idx a b c) = a := by
  ext i hi
  simp only [CommandWord.a, packWord, BitVec.getElem_extractLsb', BitVec.getLsbD_append]
  interval_cases i <;> simp

theorem packWord_b (op idx : Nibble) (a b c : Byte) : CommandWord.b (packWord op idx a b c) = b := by
  ext i hi
  simp only [CommandWord.b, packWord, BitVec.getElem_extractLsb', BitVec.getLsbD_append]
  interval_cases i <;> simp

theorem packWord_c (op idx : Nibble) (a b c : Byte) : CommandWord.c (packWord op idx a b c) = c := by
  ext i hi
  simp only [CommandWord.c, packWord, BitVec.getElem_extractLsb', BitVec.getLsbD_append]
  interval_cases i <;> simp

/-- A word is its five fields (R74). -/
theorem packWord_fields (w : CommandWord) :
    packWord (CommandWord.op w) (CommandWord.idx w) (CommandWord.a w) (CommandWord.b w) (CommandWord.c w) = w := by
  refine BitVec.eq_of_getLsbD_eq fun i hi => ?_
  simp only [CommandWord.op, CommandWord.idx, CommandWord.a, CommandWord.b, CommandWord.c, packWord,
    BitVec.getLsbD_append, BitVec.getLsbD_extractLsb']
  interval_cases i <;> simp

/-- A stored word reads back as itself (R53). -/
theorem wordOfBytes_bytesOfWord (w : CommandWord) (rest : List Byte) :
    wordOfBytes (bytesOfWord w ++ rest) = some (w, rest) := by
  simp only [bytesOfWord, List.cons_append, List.nil_append, wordOfBytes, Option.some.injEq, Prod.mk.injEq, and_true]
  refine BitVec.eq_of_getLsbD_eq fun i hi => ?_
  simp only [BitVec.getLsbD_append, BitVec.getLsbD_extractLsb']
  interval_cases i <;> simp

end Sys2Proof
end

