-- ==== Sys2Proof/Laws/Foreground.lean ====
section
/-!
SUPPORT. Laws/Foreground.lean: what the foreground's operations can do. One lemma per shared operation: a micro-operation's
frame and what it keeps, how a queue is drained, and what each way of issuing a command answers.
-/

namespace Sys2Proof.Machine

/-! What no micro-operation touches (R200: the driver's elements, and what only the host or a fault writes). -/

/-- Two states agree on everything no foreground micro-operation writes. -/
structure SameDriver (s t : State) : Prop where
  sc : t.sc = s.sc
  bc : t.bc = s.bc
  cmp : t.cmp = s.cmp
  rowen : t.rowen = s.rowen
  fault : t.fault = s.fault
  pwmcnt : t.pwmcnt = s.pwmcnt
  pwmLeft : t.pwmLeft = s.pwmLeft
  trace : t.trace = s.trace

theorem SameDriver.same (s : State) : SameDriver s s := ⟨rfl, rfl, rfl, rfl, rfl, rfl, rfl, rfl⟩

theorem SameDriver.trans {s t u : State} (h : SameDriver s t) (k : SameDriver t u) : SameDriver s u :=
  ⟨k.sc.trans h.sc, k.bc.trans h.bc, k.cmp.trans h.cmp, k.rowen.trans h.rowen, k.fault.trans h.fault,
    k.pwmcnt.trans h.pwmcnt, k.pwmLeft.trans h.pwmLeft, k.trace.trans h.trace⟩

theorem sameDriver_setQueue (s : State) (q : List MicroOp) : SameDriver s (s.setQueue q) :=
  ⟨rfl, rfl, rfl, rfl, rfl, rfl, rfl, rfl⟩

/-- A micro-operation writes only `LB`, `FS`, `RDATA`, `WAITCTR`, `RUN` and the queue (R200). -/
theorem perform_sameDriver (p : Config.Params) (op : MicroOp) (s : State) : SameDriver s (perform p op s) := by
  cases op <;> simp only [perform] <;> (repeat' split) <;> exact ⟨rfl, rfl, rfl, rfl, rfl, rfl, rfl, rfl⟩

theorem perform_preempt (p : Config.Params) (op : MicroOp) (s : State) : (perform p op s).preempt = s.preempt := by
  cases op <;> simp only [perform] <;> (repeat' split) <;> rfl

/-! Draining the queue. -/

@[simp] theorem drain_zero (p : Config.Params) (s : State) : drain p 0 s = s := rfl

theorem drain_nil (p : Config.Params) (n : Nat) {s : State} (h : s.fgq = []) : drain p n s = s := by
  cases n <;> simp [drain, h]

theorem drain_cons (p : Config.Params) (n : Nat) {s : State} {op : MicroOp} {rest : List MicroOp}
    (h : s.fgq = op :: rest) : drain p (n + 1) s = drain p n (perform p op (s.setQueue rest)) := by
  simp [drain, foregroundStep, h]

theorem drain_succ (p : Config.Params) (n : Nat) (s : State) : drain p (n + 1) s = drain p n (foregroundStep p s) := by
  cases h : s.fgq with
  | nil => simp [drain, foregroundStep, h, drain_nil]
  | cons op rest => simp [drain, h]

/-- `m` micro-operations and then `n` are `m + n`. -/
theorem drain_add (p : Config.Params) (m n : Nat) (s : State) : drain p (m + n) s = drain p n (drain p m s) := by
  induction m generalizing s with
  | zero => simp
  | succ m ih => rw [Nat.add_right_comm, drain_succ, drain_succ, ih]

/-- What every micro-operation keeps, draining keeps. -/
theorem drain_induct {P : State → Prop} (p : Config.Params)
    (h : ∀ op rest s, s.fgq = op :: rest → P s → P (perform p op (s.setQueue rest))) (n : Nat) {s : State}
    (hs : P s) : P (drain p n s) := by
  induction n generalizing s with
  | zero => exact hs
  | succ n ih =>
    cases hq : s.fgq with
    | nil => rwa [drain_nil p _ hq]
    | cons op rest => rw [drain_cons p n hq]; exact ih (h op rest s hq hs)

/-- What every micro-operation keeps, running the foreground keeps, if clearing `preempt` keeps it. -/
theorem runForeground_induct {P : State → Prop} (p : Config.Params)
    (h : ∀ op rest s, s.fgq = op :: rest → P s → P (perform p op (s.setQueue rest)))
    (hp : ∀ s, P s → P s.uncut) {s : State} (hs : P s) : P (runForeground p s) := by
  unfold runForeground
  split
  · exact hp _ (drain_induct p h _ hs)
  · exact hp _ (drain_induct p h _ hs)

theorem drain_sameDriver (p : Config.Params) (n : Nat) (s : State) : SameDriver s (drain p n s) :=
  drain_induct (P := fun t => SameDriver s t) p
    (fun op _ _ _ h => h.trans ((sameDriver_setQueue _ _).trans (perform_sameDriver p op _))) n (SameDriver.same s)

theorem runForeground_sameDriver (p : Config.Params) (s : State) : SameDriver s (runForeground p s) :=
  runForeground_induct (P := fun t => SameDriver s t) p
    (fun op _ _ _ h => h.trans ((sameDriver_setQueue _ _).trans (perform_sameDriver p op _)))
    (fun _ h => ⟨h.sc, h.bc, h.cmp, h.rowen, h.fault, h.pwmcnt, h.pwmLeft, h.trace⟩)
    (SameDriver.same s)

@[simp] theorem runForeground_preempt (p : Config.Params) (s : State) : (runForeground p s).preempt = none := by
  unfold runForeground; split <;> rfl

theorem runForeground_whole (p : Config.Params) {s : State} (h : s.preempt = none) :
    runForeground p s = (drain p (queueWork s.fgq) s).uncut := by
  simp [runForeground, h]

theorem runForeground_cut (p : Config.Params) {s : State} {n : Nat} (h : s.preempt = some n) :
    runForeground p s = (drain p n s).uncut := by
  simp [runForeground, h]

/-! A queue always comes to an end (R152 has no loop). -/

theorem queueWork_append (a b : List MicroOp) : queueWork (a ++ b) = queueWork a + queueWork b := by
  induction a with
  | nil => simp [queueWork]
  | cons op rest ih => simp [queueWork, ih, Nat.add_assoc]

theorem work_pos (op : MicroOp) : 0 < op.work := by cases op <;> simp [MicroOp.work]

/-- A micro-operation uses up its own share of the queue's work. -/
theorem perform_work_lt (p : Config.Params) (op : MicroOp) (s : State) :
    queueWork (perform p op s).fgq < op.work + queueWork s.fgq := by
  cases op <;> simp only [perform] <;> (repeat' split) <;>
    simp only [MicroOp.work, queueWork, setLedOps, State.proceed_fgq, State.writeLB_fgq, State.writeFS_fgq,
      State.setRun_fgq, State.latch_fgq, State.setWait_fgq, State.fillFS_fgq, List.cons_append, List.nil_append] <;> omega

/-- Draining with the queue's own bound empties it. -/
theorem drain_empties (p : Config.Params) (n : Nat) {s : State} (h : queueWork s.fgq ≤ n) : (drain p n s).fgq = [] := by
  induction n generalizing s with
  | zero =>
    cases hq : s.fgq with
    | nil => simpa using hq
    | cons op rest =>
      have := work_pos op
      rw [hq, queueWork] at h
      omega
  | succ n ih =>
    cases hq : s.fgq with
    | nil => rw [drain_nil p _ hq, hq]
    | cons op rest =>
      rw [drain_cons p n hq]
      apply ih
      have := perform_work_lt p op (s.setQueue rest)
      rw [hq, queueWork] at h
      rw [State.setQueue_fgq] at this
      omega

/-- A foreground that is not interrupted completes its command. -/
theorem runForeground_completes (p : Config.Params) {s : State} (h : s.preempt = none) :
    (runForeground p s).fgq = [] := by
  rw [runForeground_whole p h, State.uncut_fgq]
  exact drain_empties p _ (Nat.le_refl _)

/-! What a micro-operation keeps. -/

theorem perform_wf (p : Config.Params) (op : MicroOp) {s : State} (h : Memory.wf s.lb = true) :
    Memory.wf (perform p op s).lb = true := by
  cases op <;> simp only [perform] <;> (repeat' split) <;> first | exact h | exact Memory.wf_write h (Fin.isLt _) _

/-- An index `TOPO` names for no LED is written by nothing (R23). -/
theorem perform_unmapped (p : Config.Params) (op : MicroOp) (s : State) {k : BufferIndex}
    (h : ∀ i ch, p.topo i ch ≠ k) : (perform p op s).readLB k = s.readLB k := by
  cases op <;> simp only [perform] <;> (repeat' split) <;>
    first
    | rfl
    | simp only [State.readLB_eq, State.proceed_lb, State.writeLB_lb]
      exact Memory.read_write_other _ _ (fun e => h _ _ (Fin.ext e.symm))

/-- No micro-operation clears `RUN` (R30). -/
theorem perform_run (p : Config.Params) (op : MicroOp) {s : State} (h : s.run = true) : (perform p op s).run = true := by
  cases op with
  | setRun => rfl
  | _ => simp only [perform]; (repeat' split) <;> exact h

/-- `WAITCTR` is written by WAIT alone (R181). -/
theorem perform_waitctr (p : Config.Params) (op : MicroOp) (s : State) :
    (perform p op s).waitctr = s.waitctr ∨ ∃ ms, op = .loadWait ms ∧ (perform p op s).waitctr = waitTicks ms := by
  cases op with
  | loadWait ms => exact .inr ⟨ms, rfl, rfl⟩
  | _ => exact .inl (by simp only [perform]; (repeat' split) <;> rfl)

/-- "`ms * 2`, at most 510" (R181). -/
theorem waitTicks_toNat (ms : Byte) : (waitTicks ms).toNat = 2 * ms.toNat := by
  have := ms.isLt
  have h2 : (2 : BitVec 16).toNat = 2 := rfl
  simp only [waitTicks, Config.ticksPerMs, BitVec.toNat_mul, BitVec.toNat_setWidth, h2]
  omega

/-! Issuing a command. -/

theorem accepting_iff (s : State) : s.accepting = true ↔ s.fault = .noFault ∧ s.fgq = [] ∧ s.waitctr = 0 := by
  simp [State.accepting, and_assoc]

theorem ledOfIdx_of_lt {idx : Nibble} (h : idx.toNat < 13) : ledOfIdx idx = some ⟨idx.toNat, h⟩ := by
  simp [ledOfIdx, h]

theorem ledOfIdx_of_ge {idx : Nibble} (h : 13 ≤ idx.toNat) : ledOfIdx idx = none := by
  simp [ledOfIdx]; omega

theorem ledOfIdx_ofNat (i : Led) : ledOfIdx (BitVec.ofNat 4 i.val) = some i := by
  revert i; decide

theorem issue_accepted (p : Config.Params) (ops : List MicroOp) {s : State} (h : s.accepting = true) :
    issue p ops s = .next (runForeground p (s.setQueue ops)) := by simp [issue, h]

theorem issue_turned_away (p : Config.Params) (ops : List MicroOp) {s : State} (h : s.accepting = false) :
    issue p ops s = .next s.uncut := by simp [issue, h]

theorem issueIndexed_accepted (p : Config.Params) {idx : Nibble} (ops : Led → List MicroOp) {s : State} {i : Led}
    (h : s.accepting = true) (hi : ledOfIdx idx = some i) :
    issueIndexed p idx ops s = .next (runForeground p (s.setQueue (ops i))) := by simp [issueIndexed, h, hi]

theorem issueIndexed_fault (p : Config.Params) {idx : Nibble} (ops : Led → List MicroOp) {s : State}
    (h : s.accepting = true) (hi : ledOfIdx idx = none) :
    issueIndexed p idx ops s = .next (raiseFault .indexFault s) := by simp [issueIndexed, h, hi]

theorem issueIndexed_turned_away (p : Config.Params) (idx : Nibble) (ops : Led → List MicroOp) {s : State}
    (h : s.accepting = false) : issueIndexed p idx ops s = .next s.uncut := by
  simp [issueIndexed, h]

/-- Everything `issue` can answer. -/
theorem issue_cases {p : Config.Params} {ops : List MicroOp} {s t : State} (h : issue p ops s = .next t) :
    (s.accepting = true ∧ t = runForeground p (s.setQueue ops)) ∨
      (s.accepting = false ∧ t = s.uncut) := by
  unfold issue at h
  split at h <;> simp_all

/-- Everything `issueIndexed` can answer. -/
theorem issueIndexed_cases {p : Config.Params} {idx : Nibble} {ops : Led → List MicroOp} {s t : State}
    (h : issueIndexed p idx ops s = .next t) :
    (∃ i, s.accepting = true ∧ ledOfIdx idx = some i ∧ t = runForeground p (s.setQueue (ops i))) ∨
      (s.accepting = true ∧ ledOfIdx idx = none ∧ t = raiseFault .indexFault s) ∨
      (s.accepting = false ∧ t = s.uncut) := by
  unfold issueIndexed at h
  split at h
  · split at h <;> simp_all
  · simp_all

theorem run_queue (p : Config.Params) (ops : List MicroOp) {s : State} (hp : s.preempt = none) :
    runForeground p (s.setQueue ops) = (drain p (queueWork ops) (s.setQueue ops)).uncut :=
  runForeground_whole p (s := s.setQueue ops) hp

/-- A command of one micro-operation that queues no other performs it and is complete. -/
theorem run_single (p : Config.Params) (op : MicroOp) {s : State} (hp : s.preempt = none)
    (hq : (perform p op (s.setQueue [])).fgq = []) :
    runForeground p (s.setQueue [op]) = perform p op (s.setQueue []) := by
  obtain ⟨n, hn⟩ : ∃ n, queueWork [op] = n + 1 := ⟨queueWork [op] - 1, by have := work_pos op; simp [queueWork]; omega⟩
  rw [run_queue p _ hp, hn, drain_cons p n (State.setQueue_fgq s _),
    State.setQueue_setQueue, drain_nil p n hq]
  exact State.uncut_of_none ((perform_preempt p op _).trans hp)

/-- The three writes of SET_LED, in the order the parameter names (R130). -/
theorem run_setLed (p : Config.Params) (i : Led) (r g b : Byte) {s : State} (hp : s.preempt = none) :
    runForeground p (s.setQueue (setLedOps p.setLedOrder i r g b)) =
      (((s.writeLB (p.topo i p.setLedOrder.first) (colourOf r g b p.setLedOrder.first)).writeLB
        (p.topo i p.setLedOrder.second) (colourOf r g b p.setLedOrder.second)).writeLB
        (p.topo i p.setLedOrder.third) (colourOf r g b p.setLedOrder.third)).setQueue [] := by
  rw [run_queue p _ hp]
  exact State.uncut_of_none hp

/-- FINIT's two micro-operations (R150). -/
theorem run_finit (p : Config.Params) {s : State} (hp : s.preempt = none) :
    runForeground p (s.setQueue [.clearFade, .seedFirst]) = ((s.fillFS .idle).writeFS 0 .blueToRed).setQueue [] := by
  rw [run_queue p _ hp]
  exact State.uncut_of_none hp

/-! The whole of `fade` (R152) in one equation. -/

/-- f1, f2: the guarded decrement. -/
def fadeDecrement (p : Config.Params) (f : FadeArgs) (s : State) : State :=
  if belowWrap (dec8 (s.readLB (p.topo f.led f.dec))) then
    s.writeLB (p.topo f.led f.dec) (dec8 (s.readLB (p.topo f.led f.dec)))
  else s

/-- f3, f4: the increment. -/
def fadeIncrement (p : Config.Params) (f : FadeArgs) (s : State) : State :=
  s.writeLB (p.topo f.led f.inc) (inc8 (s.readLB (p.topo f.led f.inc)))

/-- f6 to f9: the next LED is seeded and made black. -/
def fadeSeed (p : Config.Params) (f : FadeArgs) (s : State) : State :=
  match seededLed f s with
  | none => s
  | some j =>
    (((s.writeFS j .blueToRed).writeLB (p.topo j p.setLedOrder.first) 0).writeLB (p.topo j p.setLedOrder.second) 0).writeLB
      (p.topo j p.setLedOrder.third) 0

/-- f1 to f9. -/
def fadeWhole (p : Config.Params) (f : FadeArgs) (s : State) : State :=
  let t := fadeDecrement p f s
  let u := fadeIncrement p f t
  if wrappedToZero (inc8 (t.readLB (p.topo f.led f.inc))) then fadeSeed p f (u.writeFS f.led f.nextState) else u

theorem fadeDecrement_setQueue (p : Config.Params) (f : FadeArgs) (s : State) (q : List MicroOp) :
    fadeDecrement p f (s.setQueue q) = (fadeDecrement p f s).setQueue q := by
  simp only [fadeDecrement, show ∀ k, (s.setQueue q).readLB k = s.readLB k from fun _ => rfl]
  split <;> rfl

theorem decrement_run (p : Config.Params) (f : FadeArgs) (s : State) (n : Nat) :
    drain p (n + 2) (s.setQueue [.fadeF1 f]) = drain p n ((fadeDecrement p f s).setQueue [.fadeF3 f]) := by
  rw [drain_cons p (n + 1) (State.setQueue_fgq s _), drain_cons p n (by rfl)]
  congr 1
  show State.proceed (fadeDecrement p f (s.setQueue [])) [.fadeF3 f] = _
  rw [fadeDecrement_setQueue]
  rfl

theorem increment_run (p : Config.Params) (f : FadeArgs) (s : State) (n : Nat) :
    drain p (n + 2) (s.setQueue [.fadeF3 f]) =
      drain p n ((fadeIncrement p f s).setQueue [.fadeF5 f (inc8 (s.readLB (p.topo f.led f.inc)))]) := by
  rw [drain_cons p (n + 1) (State.setQueue_fgq s _), drain_cons p n (by rfl)]
  rfl

@[simp] theorem colourOf_same (v : Byte) (ch : Channel) : colourOf v v v ch = v := by cases ch <;> rfl

theorem seed_run (p : Config.Params) (f : FadeArgs) (s : State) (n : Nat) :
    drain p (n + 4) (s.setQueue [.fadeF6 f]) = (fadeSeed p f s).setQueue [] := by
  rw [drain_cons p (n + 3) (State.setQueue_fgq s _)]
  simp only [perform, fadeSeed, show seededLed f ((s.setQueue [.fadeF6 f]).setQueue []) = seededLed f s from rfl]
  cases seededLed f s with
  | none => exact drain_nil p _ rfl
  | some j =>
    simp only [setLedOps, colourOf_same]
    rw [drain_cons p (n + 2) (by rfl), drain_cons p (n + 1) (by rfl), drain_cons p n (by rfl)]
    exact (drain_nil p n (by rfl)).trans rfl

/-- A queue that holds f1 alone performs all of `fade`. -/
theorem fade_run (p : Config.Params) (f : FadeArgs) (s : State) (n : Nat) :
    drain p (n + 9) (s.setQueue [.fadeF1 f]) = (fadeWhole p f s).setQueue [] := by
  rw [show n + 9 = (n + 7) + 2 from rfl, decrement_run, show n + 7 = (n + 5) + 2 from rfl, increment_run,
    drain_cons p (n + 4) (State.setQueue_fgq _ _)]
  simp only [perform, fadeWhole]
  split
  · exact seed_run p f ((fadeIncrement p f (fadeDecrement p f s)).writeFS f.led f.nextState) n
  · exact drain_nil p _ rfl

/-- What FSTEP does to the state as a whole (R151): nothing in state 0, `fade` in the others. -/
def fstepWhole (p : Config.Params) (i : Led) (s : State) : State :=
  match fadeArgs i s.fs[i.val] with
  | none => s
  | some f => fadeWhole p f s

theorem fadeSeed_preempt (p : Config.Params) (f : FadeArgs) (s : State) : (fadeSeed p f s).preempt = s.preempt := by
  unfold fadeSeed; split <;> rfl

theorem fadeWhole_preempt (p : Config.Params) (f : FadeArgs) (s : State) : (fadeWhole p f s).preempt = s.preempt := by
  have hd : (fadeDecrement p f s).preempt = s.preempt := by unfold fadeDecrement; split <;> rfl
  simp only [fadeWhole]
  split
  · rw [fadeSeed_preempt]; exact hd
  · exact hd

/-- FSTEP's queue (R151), run to its end. -/
theorem run_fstep (p : Config.Params) (i : Led) {s : State} (hp : s.preempt = none) :
    runForeground p (s.setQueue [.fadeSelect i]) = (fstepWhole p i s).setQueue [] := by
  rw [run_queue p _ hp]
  show (drain p 10 (s.setQueue [.fadeSelect i])).uncut = _
  rw [drain_cons p 9 (State.setQueue_fgq s _)]
  simp only [perform, fstepWhole, show ((s.setQueue [.fadeSelect i]).setQueue []).fs = s.fs from rfl]
  cases fadeArgs i s.fs[i.val] with
  | none =>
    simp only
    rw [drain_nil p 9 (by rfl)]
    exact State.uncut_of_none hp
  | some f =>
    simp only
    have h := fade_run p f s 0
    rw [Nat.zero_add] at h
    rw [show ((s.setQueue [.fadeSelect i]).setQueue []).proceed [.fadeF1 f] = s.setQueue [.fadeF1 f] from rfl, h]
    exact State.uncut_of_none ((fadeWhole_preempt p f s).trans hp)

end Sys2Proof.Machine
end

