-- ==== Sys2Proof/Laws/PerInstr.lean ====
section
/-!
SUPPORT. Laws/PerInstr.lean: statements made once per instruction. `TableRow`: the word of an instruction is selected by
its own row of the opcode map, `w AND mask = match` (R80), whatever its operands.
-/

namespace Sys2Proof.Laws.TableRow

open Sys2Proof

/-- The instruction's word matches the row of R80 that bears its mnemonic. -/
def Statement (i : Instr) : Prop := i.row ∈ opcodeRows ∧ i.row.selects (encode i) = true

/-- Which bits of a word a mask over whole fields keeps. -/
theorem mask_fields (op idx : Nibble) (a b c : Byte) (mi : Nibble) (ma mb mc : Byte) :
    packWord op idx a b c &&& packWord 0xF mi ma mb mc = packWord op (idx &&& mi) (a &&& ma) (b &&& mb) (c &&& mc) := by
  refine BitVec.eq_of_getLsbD_eq fun i hi => ?_
  simp only [packWord, BitVec.getLsbD_and, BitVec.getLsbD_append]
  interval_cases i <;> simp

theorem start : Statement .start := ⟨by decide, by decide⟩

theorem setLed (idx : Nibble) (r g b : Byte) : Statement (.setLed idx r g b) := by
  refine ⟨by simp [Instr.row, opcodeRows], ?_⟩
  simp only [OpcodeRow.selects, Instr.row, encode, beq_iff_eq]
  exact (mask_fields 0x2 idx r g b 0 0 0 0).trans (by simp; decide)

theorem setRed (idx : Nibble) (v : Byte) : Statement (.setRed idx v) := by
  refine ⟨by simp [Instr.row, opcodeRows], ?_⟩
  simp only [OpcodeRow.selects, Instr.row, encode, beq_iff_eq]
  exact (mask_fields 0x3 idx v 0 0 0 0 0xFF 0xFF).trans (by simp; decide)

theorem setGreen (idx : Nibble) (v : Byte) : Statement (.setGreen idx v) := by
  refine ⟨by simp [Instr.row, opcodeRows], ?_⟩
  simp only [OpcodeRow.selects, Instr.row, encode, beq_iff_eq]
  exact (mask_fields 0x4 idx v 0 0 0 0 0xFF 0xFF).trans (by simp; decide)

theorem setBlue (idx : Nibble) (v : Byte) : Statement (.setBlue idx v) := by
  refine ⟨by simp [Instr.row, opcodeRows], ?_⟩
  simp only [OpcodeRow.selects, Instr.row, encode, beq_iff_eq]
  exact (mask_fields 0x5 idx v 0 0 0 0 0xFF 0xFF).trans (by simp; decide)

theorem getRed (idx : Nibble) : Statement (.getRed idx) := by
  refine ⟨by simp [Instr.row, opcodeRows], ?_⟩
  simp only [OpcodeRow.selects, Instr.row, encode, beq_iff_eq]
  exact (mask_fields 0x6 idx 0 0 0 0 0xFF 0xFF 0xFF).trans (by simp; decide)

theorem getGreen (idx : Nibble) : Statement (.getGreen idx) := by
  refine ⟨by simp [Instr.row, opcodeRows], ?_⟩
  simp only [OpcodeRow.selects, Instr.row, encode, beq_iff_eq]
  exact (mask_fields 0x7 idx 0 0 0 0 0xFF 0xFF 0xFF).trans (by simp; decide)

theorem getBlue (idx : Nibble) : Statement (.getBlue idx) := by
  refine ⟨by simp [Instr.row, opcodeRows], ?_⟩
  simp only [OpcodeRow.selects, Instr.row, encode, beq_iff_eq]
  exact (mask_fields 0x8 idx 0 0 0 0 0xFF 0xFF 0xFF).trans (by simp; decide)

theorem wait (ms : Byte) : Statement (.wait ms) := by
  refine ⟨by simp [Instr.row, opcodeRows], ?_⟩
  simp only [OpcodeRow.selects, Instr.row, encode, beq_iff_eq]
  exact (mask_fields 0x9 0 ms 0 0 0xF 0 0xFF 0xFF).trans (by simp; decide)

theorem finit : Statement .finit := ⟨by decide, by decide⟩

theorem fstep (idx : Nibble) : Statement (.fstep idx) := by
  refine ⟨by simp [Instr.row, opcodeRows], ?_⟩
  simp only [OpcodeRow.selects, Instr.row, encode, beq_iff_eq]
  exact (mask_fields 0xB idx 0 0 0 0 0xFF 0xFF 0xFF).trans (by simp; decide)

theorem tick : Statement .tick := ⟨by decide, by decide⟩

end Sys2Proof.Laws.TableRow
end

