-- ==== Sys2Proof/Laws/Step.lean ====
section
/-!
SUPPORT. Laws/Step.lean: said once, everything a step can do. An instruction is executed in the state with its input taken
off the trace; or a tick interval ends with its TICK, the foreground goes on, a PWM clock counts, or a reserved word faults.
-/

namespace Sys2Proof.Machine

/-- The states an instruction can be executed in: at most the inputs have changed. -/
def afterFetch (s : State) (rest : List TraceItem) (cut : Option Nat) : State := { s with trace := rest, preempt := cut }

/-- Everything a step can do that answers a next state. -/
inductive StepCase (s t : State) : Prop where
  /-- a command is taken from the port. -/
  | command (w : CommandWord) (cut : Option Nat) (rest : List TraceItem) (i : Instr)
      (htrace : s.trace = .command w cut :: rest) (hfgq : s.fgq = []) (hwait : s.waitctr = 0)
      (hdecode : decodePort w = .ok i) (hexec : exec i (afterFetch s rest cut) = .next t)
  /-- a word that selects no command. -/
  | reserved (w : CommandWord) (cut : Option Nat) (rest : List TraceItem) (e : DecodeError)
      (htrace : s.trace = .command w cut :: rest) (hfgq : s.fgq = []) (hwait : s.waitctr = 0)
      (hdecode : decodePort w = .error e) (hnext : t = raiseFault .reservedEncoding { s with trace := rest })
  /-- a tick of the trace. -/
  | tickInput (rest : List TraceItem) (htrace : s.trace = .tick :: rest)
      (hexec : exec .tick (endInterval { s with trace := rest }) = .next t)
  /-- a tick that is the only enabled step. -/
  | tickForced (hrun : s.run = true) (hfgq : s.fgq = []) (hevent : nextEvent s = .tick s)
      (hexec : exec .tick (endInterval s) = .next t)
  /-- a tick that is due before the next PWM clock. -/
  | tickDue (rest : List TraceItem) (htrace : s.trace = .pwmClock :: rest) (hdue : s.tickDue = true)
      (hexec : exec .tick (endInterval s) = .next t)
  /-- the foreground goes on because the trace says so. -/
  | foreground (cut : Option Nat) (rest : List TraceItem) (htrace : s.trace = .foreground cut :: rest)
      (hnext : t = runForeground Config.params (afterFetch s rest cut))
  /-- the foreground completes its command because nothing else is enabled. -/
  | resumed (hfgq : s.fgq ≠ []) (hnext : t = runForeground Config.params s.uncut)
  /-- a PWM clock of the trace. -/
  | clock (rest : List TraceItem) (htrace : s.trace = .pwmClock :: rest) (hdue : s.tickDue = false)
      (hnext : t = pwmClock { s with trace := rest })
  /-- the run is over or has not begun: only the PWM clock goes on. -/
  | idle (htrace : s.trace = []) (hrun : s.run = false) (hfgq : s.fgq = []) (hwait : s.waitctr = 0)
      (hfault : s.fault = .noFault) (hnext : t = pwmClock s)

theorem step_cases {s t : State} (h : step s = .next t) : StepCase s t := by
  unfold step nextEvent at h
  cases htr : s.trace with
  | nil =>
    rw [htr] at h
    simp only [idleEvent] at h
    by_cases hq : s.fgq = []
    · simp only [hq, List.isEmpty_nil, Bool.true_eq_false, if_false] at h
      by_cases hr : s.run = true
      · rw [if_pos hr] at h
        exact .tickForced hr hq (by simp [nextEvent, htr, idleEvent, hq, hr]) h
      · rw [if_neg hr] at h
        by_cases hw : s.waitctr = 0
        · rw [if_neg (by simp [hw])] at h
          by_cases hf : s.fault = .noFault
          · rw [if_neg (by simp [hf])] at h
            simp only [Host.Outcome.next.injEq] at h
            exact .idle htr (by simpa using hr) hq hw hf h.symm
          · rw [if_pos hf] at h
            simp at h
        · rw [if_pos hw] at h
          simp at h
    · have he : s.fgq.isEmpty = false := by simpa [List.isEmpty_iff] using hq
      rw [if_pos he] at h
      simp only [Host.Outcome.next.injEq] at h
      exact .resumed hq h.symm
  | cons item rest =>
    rw [htr] at h
    cases item with
    | tick => exact .tickInput rest htr h
    | pwmClock =>
      simp only [clockEvent] at h
      cases hd : s.tickDue with
      | true =>
        rw [hd] at h
        exact .tickDue rest htr hd h
      | false =>
        rw [hd] at h
        simp only [Bool.false_eq_true, if_false, Host.Outcome.next.injEq] at h
        exact .clock rest htr hd h.symm
    | foreground cut =>
      simp only [Host.Outcome.next.injEq] at h
      exact .foreground cut rest htr h.symm
    | command w cut =>
      simp only [portEvent] at h
      by_cases hq : s.fgq = []
      · simp only [hq, List.isEmpty_nil, Bool.true_eq_false, if_false] at h
        by_cases hw : s.waitctr = 0
        · rw [if_neg (by simp [hw])] at h
          cases hd : decodePort w with
          | ok i =>
            rw [hd] at h
            refine .command w cut rest i htr hq hw hd ?_
            rw [← h]
            simp only [afterFetch, hq]
          | error e =>
            rw [hd] at h
            simp only [Host.Outcome.next.injEq] at h
            refine .reserved w cut rest e htr hq hw hd ?_
            rw [← h]
            simp only [raiseFault, hq]
        · rw [if_pos hw] at h
          simp only [holdEvent] at h
          by_cases hr : s.run = true
          · rw [if_pos hr] at h
            have hw' : ¬ s.waitctr = 0#16 := hw
            exact .tickForced hr hq (by simp [nextEvent, htr, portEvent, holdEvent, hq, hr, hw']) h
          · rw [if_neg hr] at h
            simp at h
      · have he : s.fgq.isEmpty = false := by simpa [List.isEmpty_iff] using hq
        rw [if_pos he] at h
        simp only [Host.Outcome.next.injEq] at h
        exact .resumed hq h.symm

/-- The foreground touches neither `PWMCNT` nor the interval's count, and never clears `RUN` (R39, R201). -/
theorem runForeground_pwm (p : Config.Params) (s : State) :
    (runForeground p s).pwmcnt = s.pwmcnt ∧ (runForeground p s).pwmLeft = s.pwmLeft ∧
      (s.run = true → (runForeground p s).run = true) :=
  ⟨(runForeground_sameDriver p s).pwmcnt, (runForeground_sameDriver p s).pwmLeft, fun h =>
    runForeground_induct (P := fun t => t.run = true) p (fun _ _ _ _ hr => perform_run _ _ hr) (fun _ hr => hr) h⟩

/-- What an event's state has kept of the state it happens in: nothing before a tick or a PWM clock touches `PWMCNT`, the
interval's count or a set `RUN`, and a PWM clock comes only when no TICK is due. -/
def Event.KeepsPwm (s : State) : Event → Prop
  | .instr _ u => u.pwmcnt = s.pwmcnt ∧ u.pwmLeft = s.pwmLeft ∧ u.run = s.run
  | .tick u => u.pwmcnt = s.pwmcnt ∧ u.pwmLeft = s.pwmLeft ∧ u.run = s.run
  | .clock u => u.pwmcnt = s.pwmcnt ∧ u.pwmLeft = s.pwmLeft ∧ u.run = s.run ∧ s.tickDue = false
  | .move u => u.pwmcnt = s.pwmcnt ∧ u.pwmLeft = s.pwmLeft ∧ (s.run = true → u.run = true)
  | .stuck _ => True

theorem nextEvent_keepsPwm (s : State) : (nextEvent s).KeepsPwm s := by
  have hu := runForeground_pwm Config.params s.uncut
  unfold nextEvent
  rcases s.trace with _ | ⟨_ | _ | ⟨w, cut⟩ | cut, rest⟩
  · unfold idleEvent
    split_ifs with hq hr
    · exact hu
    · exact ⟨rfl, rfl, rfl⟩
    · trivial
    · trivial
    · exact ⟨rfl, rfl, rfl, by simp [State.tickDue, hr]⟩
  · exact ⟨rfl, rfl, rfl⟩
  · unfold clockEvent
    split_ifs with h
    · exact ⟨rfl, rfl, rfl⟩
    · exact ⟨rfl, rfl, rfl, by simpa using h⟩
  · unfold portEvent holdEvent
    split_ifs
    · exact hu
    · exact ⟨rfl, rfl, rfl⟩
    · trivial
    · cases h : decodePort w <;> simp only [h]
      · exact ⟨rfl, rfl, id⟩
      · exact ⟨rfl, rfl, rfl⟩
  · exact runForeground_pwm _ _

/-- The micro-operations a command queues when it is accepted for LED `i`; the commands without an index ignore `i`. -/
def commandOps (c : Instr) (i : Led) : List MicroOp :=
  match c with
  | .start => [.setRun]
  | .setLed _ r g b => setLedOps Config.params.setLedOrder i r g b
  | .setRed _ v => [.write i .red v]
  | .setGreen _ v => [.write i .green v]
  | .setBlue _ v => [.write i .blue v]
  | .getRed _ => [.read i .red]
  | .getGreen _ => [.read i .green]
  | .getBlue _ => [.read i .blue]
  | .wait ms => [.loadWait ms]
  | .finit => [.clearFade, .seedFirst]
  | .fstep _ => [.fadeSelect i]
  | .tick => []

/-- Every command but a START is one of the two ways of issuing its micro-operations (R82, R138). -/
theorem exec_issues {c : Instr} (s : State) (hs : c ≠ .start) (ht : c ≠ .tick) :
    (c.idx? = none ∧ ∀ i, exec c s = issue Config.params (commandOps c i) s) ∨
      ∃ idx, c.idx? = some idx ∧ exec c s = issueIndexed Config.params idx (commandOps c) s := by
  cases c with
  | start => exact absurd rfl hs
  | tick => exact absurd rfl ht
  | wait ms => exact .inl ⟨rfl, fun _ => rfl⟩
  | finit => exact .inl ⟨rfl, fun _ => rfl⟩
  | _ => exact .inr ⟨_, rfl, rfl⟩

/-- START while `RUN = 0` issues its micro-operation (R180). -/
theorem exec_start_stopped {s : State} (hr : s.run = false) : exec .start s = issue Config.params [.setRun] s := by
  simp [exec, execStart, hr]

/-- Everything a command other than TICK can do: it is turned away, it faults on its index, or it queues its
micro-operations and runs. -/
theorem exec_command_cases {c : Instr} {s t : State} (hc : c ≠ .tick) (h : exec c s = .next t) :
    (s.accepting = false ∧ t = s.uncut) ∨
      (s.accepting = true ∧ (∃ idx, c.idx? = some idx ∧ ledOfIdx idx = none) ∧ t = raiseFault .indexFault s) ∨
      ∃ i, s.accepting = true ∧ (∀ idx, c.idx? = some idx → ledOfIdx idx = some i) ∧
        t = runForeground Config.params (s.setQueue (commandOps c i)) := by
  by_cases hs : c = .start
  · subst hs
    simp only [exec, execStart] at h
    split at h
    · simp at h
    · rcases issue_cases h with ⟨ha, ht⟩ | ⟨ha, ht⟩
      · exact .inr (.inr ⟨0, ha, (fun _ h => by simp [Instr.idx?] at h), ht⟩)
      · exact .inl ⟨ha, ht⟩
  · rcases exec_issues s hs hc with ⟨hx, hi⟩ | ⟨idx, hx, hi⟩
    · rcases issue_cases ((hi 0).symm.trans h) with ⟨ha, ht⟩ | ⟨ha, ht⟩
      · exact .inr (.inr ⟨0, ha, (fun _ h => by rw [hx] at h; cases h), ht⟩)
      · exact .inl ⟨ha, ht⟩
    · rcases issueIndexed_cases (hi.symm.trans h) with ⟨i, ha, hl, ht⟩ | ⟨ha, hl, ht⟩ | ⟨ha, ht⟩
      · exact .inr (.inr ⟨i, ha, (fun _ h => by rw [hx] at h; cases h; exact hl), ht⟩)
      · exact .inr (.inl ⟨ha, ⟨idx, hx, hl⟩, ht⟩)
      · exact .inl ⟨ha, ht⟩

/-- What a command does when it is accepted with a legal index, or without one, and is no second START. -/
theorem exec_accepted {c : Instr} {s : State} {i : Led} (hc : c ≠ .tick) (hs : c = .start → s.run = false)
    (ha : s.accepting = true) (hi : ∀ idx, c.idx? = some idx → ledOfIdx idx = some i) :
    exec c s = .next (runForeground Config.params (s.setQueue (commandOps c i))) := by
  by_cases h : c = .start
  · subst h
    rw [exec_start_stopped (hs rfl), issue_accepted _ _ ha]
    rfl
  · rcases exec_issues s h hc with ⟨_, hx⟩ | ⟨idx, hidx, hx⟩
    · rw [hx i, issue_accepted _ _ ha]
    · rw [hx, issueIndexed_accepted _ _ ha (hi idx hidx)]

/-- Everything TICK can do (R194). -/
theorem exec_tick_cases {s t : State} (h : exec .tick s = .next t) :
    (s.run = true ∧ t = tick s) ∨ (s.run = false ∧ t = s) := by
  simp only [exec, execTick] at h
  cases hr : s.run <;> simp_all

/-- No instruction touches `PWMCNT` or the interval's count, and none clears `RUN` (R39, R201). -/
theorem exec_pwm {i : Instr} {s t : State} (h : exec i s = .next t) :
    t.pwmcnt = s.pwmcnt ∧ t.pwmLeft = s.pwmLeft ∧ (s.run = true → t.run = true) := by
  by_cases hi : i = .tick
  · subst hi
    rcases exec_tick_cases h with ⟨_, rfl⟩ | ⟨_, rfl⟩
    · have f := tick_sameForeground s
      exact ⟨f.pwmcnt, f.pwmLeft, fun hr => f.run.trans hr⟩
    · exact ⟨rfl, rfl, id⟩
  · rcases exec_command_cases hi h with ⟨_, rfl⟩ | ⟨_, _, rfl⟩ | ⟨j, _, _, rfl⟩
    · exact ⟨rfl, rfl, id⟩
    · exact ⟨rfl, rfl, id⟩
    · exact runForeground_pwm _ (s.setQueue (commandOps i j))

/-- No instruction stops the machine but a START while `RUN = 1` (U5). -/
theorem exec_stops {i : Instr} {s : State} : (∀ t, exec i s ≠ .next t) → i = .start ∧ s.run = true := by
  intro h
  have indexed : ∀ (idx : Nibble) (ops : Led → List MicroOp), ∃ t, issueIndexed Config.params idx ops s = .next t := by
    intro idx ops
    unfold issueIndexed
    split
    · split <;> exact ⟨_, rfl⟩
    · exact ⟨_, rfl⟩
  have plain : ∀ (ops : List MicroOp), ∃ t, issue Config.params ops s = .next t := by
    intro ops
    unfold issue
    split <;> exact ⟨_, rfl⟩
  cases i with
  | start =>
    refine ⟨rfl, ?_⟩
    by_contra hr
    have hr : s.run = false := by simpa using hr
    obtain ⟨t, ht⟩ := plain [.setRun]
    refine h t ?_
    simp only [exec, execStart, hr, Bool.and_false]
    exact ht
  | wait ms => obtain ⟨t, ht⟩ := plain [.loadWait ms]; exact absurd ht (h t)
  | finit => obtain ⟨t, ht⟩ := plain [.clearFade, .seedFirst]; exact absurd ht (h t)
  | setLed idx r g b => obtain ⟨t, ht⟩ := indexed idx _; exact absurd ht (h t)
  | setRed idx v => obtain ⟨t, ht⟩ := indexed idx _; exact absurd ht (h t)
  | setGreen idx v => obtain ⟨t, ht⟩ := indexed idx _; exact absurd ht (h t)
  | setBlue idx v => obtain ⟨t, ht⟩ := indexed idx _; exact absurd ht (h t)
  | getRed idx => obtain ⟨t, ht⟩ := indexed idx _; exact absurd ht (h t)
  | getGreen idx => obtain ⟨t, ht⟩ := indexed idx _; exact absurd ht (h t)
  | getBlue idx => obtain ⟨t, ht⟩ := indexed idx _; exact absurd ht (h t)
  | fstep idx => obtain ⟨t, ht⟩ := indexed idx _; exact absurd ht (h t)
  | tick =>
    cases hr : s.run
    · exact absurd (by simp [exec, execTick, hr]) (h s)
    · exact absurd (by simp [exec, execTick, hr]) (h (tick s))

end Sys2Proof.Machine
end

