-- ==== Sys2Proof/Machine/Timing.lean ====
section
/-!
DEFINITION. Machine/Timing.lean: the rates and durations the spec derives from the parameter `TICK_HZ` (R6, R182, R234, R235).
"The model has no time" (R232): no step depends on anything here. The figures are real numbers, which have no code; so they
are marked as such, and nothing that runs uses them.
-/

namespace Sys2Proof.Machine

/-- `TICK_HZ`, a positive real with its constraint in R6. -/
structure TickRate where
  hz : ℝ
  positive : 0 < hz
  rows : 500 ≤ hz / 4
  refresh : 60 ≤ hz / 16

/-- A tick interval in milliseconds: `1000 / TICK_HZ` (R201, R235). -/
noncomputable def TickRate.intervalMs (f : TickRate) : ℝ := 1000 / f.hz

/-- Rows per second: `TICK_HZ / 4` (R234). -/
noncomputable def TickRate.rowRate (f : TickRate) : ℝ := f.hz / 4

/-- Frames per second: `TICK_HZ / 16` (R234). -/
noncomputable def TickRate.frameRate (f : TickRate) : ℝ := f.hz / 16

/-- A hold of `n` ticks lasts more than this: `n - 1` tick intervals (R182). -/
noncomputable def TickRate.holdMoreThanMs (f : TickRate) (n : Nat) : ℝ := ((n : ℝ) - 1) * f.intervalMs

/-- A hold of `n` ticks lasts at most this: `n` tick intervals (R182). -/
noncomputable def TickRate.holdAtMostMs (f : TickRate) (n : Nat) : ℝ := (n : ℝ) * f.intervalMs

/-- The default of R6. -/
noncomputable def TickRate.reference : TickRate := ⟨2000, by norm_num, by norm_num, by norm_num⟩

/-- The rate `2000 + d` for any `d` that is not negative, which is every rate R6 admits and no other. -/
noncomputable def TickRate.above (d : NNReal) : TickRate where
  hz := 2000 + (d : ℝ)
  positive := by have := d.coe_nonneg; linarith
  rows := by have := d.coe_nonneg; linarith
  refresh := by have := d.coe_nonneg; linarith

/-- The machine's own rate: unknown. -/
noncomputable def TickRate.machine : TickRate := .above Config.tickHzAbove2000

end Sys2Proof.Machine
end

