-- ==== Sys2Proof/Laws/Timing.lean ====
section
/-!
SUPPORT. Laws/Timing.lean: `TickRate.above` gives every rate R6 admits, so the machine's unknown rate leaves none out.
-/

namespace Sys2Proof.Machine

theorem TickRate.above_covers (f : TickRate) : ∃ d, (TickRate.above d).hz = f.hz :=
  ⟨⟨f.hz - 2000, by have := f.rows; linarith⟩, by
    show 2000 + (f.hz - 2000) = f.hz
    ring⟩

end Sys2Proof.Machine
end

