-- ==== Sys2Proof/Laws/Topology.lean ====
section
/-!
SUPPORT. Laws/Topology.lean: the open wiring stands for every well-formed `TOPO` and for nothing else (R6, assumption 3).
-/

namespace Sys2Proof.Machine

theorem tableT0_injective {i j : Led} {ch dh : Channel} (h : Config.tableT0 i ch = Config.tableT0 j dh) :
    i = j ∧ ch = dh := by
  have hv := congrArg Fin.val h
  simp only [Config.tableT0] at hv
  rw [Fin.ext_iff]
  cases ch <;> cases dh <;> simp only [Channel.number, Fin.isValue, Fin.val_zero, Fin.val_one, Fin.val_two] at hv <;>
    refine ⟨by omega, ?_⟩ <;> first | rfl | omega

/-- The machine's table is well formed (R6, R23). -/
theorem topo_injective {i j : Led} {ch dh : Channel} (h : Config.topo i ch = Config.topo j dh) : i = j ∧ ch = dh :=
  tableT0_injective (Config.wiring.injective h)

theorem topo_ne_of_led {i j : Led} (h : i ≠ j) (ch dh : Channel) : Config.topo i ch ≠ Config.topo j dh :=
  fun e => h (topo_injective e).1

theorem topo_ne_of_channel {ch dh : Channel} (h : ch ≠ dh) (i j : Led) : Config.topo i ch ≠ Config.topo j dh :=
  fun e => h (topo_injective e).2

/-- Every well-formed table is a permutation of the indices read at the places of `T0`: nothing is left out by `wiring`. -/
theorem wiring_covers (p : Config.Params) (h : Safety.WellFormedTopo p) :
    ∃ w : Equiv.Perm BufferIndex, ∀ i ch, p.topo i ch = w (Config.tableT0 i ch) := by
  classical
  let f : Led × Channel → BufferIndex := fun x => Config.tableT0 x.1 x.2
  let g : Led × Channel → BufferIndex := fun x => p.topo x.1 x.2
  have hf : Function.Injective f := by
    rintro ⟨i, c⟩ ⟨j, d⟩ e
    obtain ⟨rfl, rfl⟩ := tableT0_injective e
    rfl
  have hg : Function.Injective g := by
    rintro ⟨i, c⟩ ⟨j, d⟩ e
    obtain ⟨rfl, rfl⟩ := h i j c d e
    rfl
  let e : { x // x ∈ Set.range f } ≃ { x // x ∈ Set.range g } :=
    (Equiv.ofInjective f hf).symm.trans (Equiv.ofInjective g hg)
  refine ⟨e.extendSubtype, fun i ch => ?_⟩
  have hx : f (i, ch) ∈ Set.range f := ⟨(i, ch), rfl⟩
  have h1 := e.extendSubtype_apply_of_mem (f (i, ch)) hx
  have h2 : e ⟨f (i, ch), hx⟩ = ⟨g (i, ch), ⟨(i, ch), rfl⟩⟩ := by
    have : (Equiv.ofInjective f hf).symm ⟨f (i, ch), hx⟩ = (i, ch) := by
      rw [Equiv.symm_apply_eq]
      rfl
    simp only [e, Equiv.trans_apply, this]
    rfl
  show g (i, ch) = e.extendSubtype (f (i, ch))
  rw [h1, h2]

end Sys2Proof.Machine
end

