-- ==== Sys2Proof/Machine/Pseudo.lean ====
section
/-!
DEFINITION. Machine/Pseudo.lean: the pseudo-operations (R85): fixed lists of commands of the surrounding software, "so that a
model can run them" (R4(b)), and how a list of commands becomes the block's input.
-/

namespace Sys2Proof.Machine

/-- The LED indices 0..12 in ascending order, as `idx` fields. -/
def ledIndices : List Nibble := (List.range 13).map (BitVec.ofNat 4)

/-- `SET_LIGHT idx, r, g, b`: "the same operation under a second name" (R85, C8). -/
def setLight (idx : Nibble) (r g b : Byte) : List Instr := [.setLed idx r g b]

/-- FPASS: `FSTEP 0` to `FSTEP 12`, then `WAIT 2` (R162). -/
def fpass : List Instr := ledIndices.map .fstep ++ [.wait Config.passDelayMs]

/-- `CHASE n`: FINIT, then FPASS `n` times (R163). -/
def chase (n : Nat) : List Instr := .finit :: (List.replicate n fpass).flatten

/-- One LED of the wash phase: SET_LED, then the hold (R184). -/
def washLed (r g b : Byte) (idx : Nibble) : List Instr := [.setLed idx r g b, .wait Config.washHoldMs]

/-- One sweep of the wash phase: all 13 LEDs in one colour. -/
def washSweep (r g b : Byte) : List Instr := ledIndices.flatMap (washLed r g b)

/-- WASH: five times pure blue, pure green, pure red (R184, D19). -/
def wash : List Instr :=
  (List.replicate Config.washReps (washSweep 0 0 255 ++ washSweep 0 255 0 ++ washSweep 255 0 0)).flatten

/-- One round of the surrounding software: WASH, then the chase phase (R185). -/
def programRound (p : Config.Params) : List Instr := wash ++ chase p.chasePasses

/-- The surrounding software: START, then rounds for ever (R185); here the first `n` rounds. -/
def program (p : Config.Params) (n : Nat) : List Instr := .start :: (List.replicate n (programRound p)).flatten

/-- The host issues these commands next, in order (R34, R237). -/
def loadCommands (is : List Instr) (s : State) : State := { s with trace := s.trace ++ traceOfWords (is.map encode) }

end Sys2Proof.Machine
end

