-- ==== Sys2Proof/Machine/Assembler.lean ====
section
/-!
DEFINITION. Machine/Assembler.lean: the assembler syntax (R84): one command per line, the mnemonic, then the operands in
decimal or hexadecimal separated by commas; a semicolon starts a comment. A line gives a list of instructions, because a
pseudo-operation is several (R85). No rule of the block depends on it.
-/

namespace Sys2Proof.Machine.Asm

/-- The value of a digit, decimal or hexadecimal. -/
def digit (c : Char) : Option Nat :=
  if '0' ≤ c ∧ c ≤ '9' then some (c.toNat - '0'.toNat)
  else if 'a' ≤ c ∧ c ≤ 'f' then some (c.toNat - 'a'.toNat + 10)
  else if 'A' ≤ c ∧ c ≤ 'F' then some (c.toNat - 'A'.toNat + 10)
  else none

/-- Reads digits of a base after a value already read. -/
def digits (base : Nat) : List Char → Nat → Option Nat
  | [], n => some n
  | c :: rest, n =>
    match digit c with
    | some d => if d < base then digits base rest (n * base + d) else none
    | none => none

/-- An operand: "in decimal (or `0x` hexadecimal)" (R84). -/
def number : List Char → Option Nat
  | [] => none
  | '0' :: 'x' :: c :: rest => digits 16 (c :: rest) 0
  | cs => digits 10 cs 0

/-- A blank between tokens. -/
def isBlank (c : Char) : Bool := c == ' ' || c == '\t'

/-- The text without the blanks at both ends. -/
def trim (cs : List Char) : List Char := ((cs.dropWhile isBlank).reverse.dropWhile isBlank).reverse

/-- The text between separators. -/
def splitAt (sep : Char) : List Char → List (List Char)
  | [] => [[]]
  | c :: rest =>
    if c = sep then [] :: splitAt sep rest
    else match splitAt sep rest with
      | [] => [[c]]
      | w :: ws => (c :: w) :: ws

/-- The operands of a line; no text is no operand. -/
def operands (cs : List Char) : Option (List Nat) :=
  match trim cs with
  | [] => some []
  | t => ((splitAt ',' t).map trim).mapM number

/-- A number that fits in a field of the word (R76). -/
def field (w n : Nat) : Option (BitVec w) := if n < 2 ^ w then some (BitVec.ofNat w n) else none

/-- The source's lower-case names "are accepted as the same mnemonics" (R84). -/
def canonical (m : String) : String :=
  match m with
  | "set_led" => "SET_LED"
  | "set_light" => "SET_LIGHT"
  | "set_red" => "SET_RED"
  | "set_green" => "SET_GREEN"
  | "set_blue" => "SET_BLUE"
  | "get_red" => "GET_RED"
  | "get_green" => "GET_GREEN"
  | "get_blue" => "GET_BLUE"
  | "wait" => "WAIT"
  | "start" => "START"
  | _ => m

/-- A mnemonic with its operands, in the order of the source's signatures (R84), or a pseudo-operation (R85). -/
def assemble (m : String) (ops : List Nat) : Option (List Instr) :=
  match canonical m, ops with
  | "START", [] => some [.start]
  | "FINIT", [] => some [.finit]
  | "TICK", [] => some [.tick]
  | "FPASS", [] => some fpass
  | "WASH", [] => some wash
  | "CHASE", [n] => some (chase n)
  | "WAIT", [ms] => do return [.wait (← field 8 ms)]
  | "FSTEP", [i] => do return [.fstep (← field 4 i)]
  | "GET_RED", [i] => do return [.getRed (← field 4 i)]
  | "GET_GREEN", [i] => do return [.getGreen (← field 4 i)]
  | "GET_BLUE", [i] => do return [.getBlue (← field 4 i)]
  | "SET_RED", [i, v] => do return [.setRed (← field 4 i) (← field 8 v)]
  | "SET_GREEN", [i, v] => do return [.setGreen (← field 4 i) (← field 8 v)]
  | "SET_BLUE", [i, v] => do return [.setBlue (← field 4 i) (← field 8 v)]
  | "SET_LED", [i, r, g, b] => do return [.setLed (← field 4 i) (← field 8 r) (← field 8 g) (← field 8 b)]
  | "SET_LIGHT", [i, r, g, b] => do return setLight (← field 4 i) (← field 8 r) (← field 8 g) (← field 8 b)
  | _, _ => none

/-- One line of a program (R84); an empty line or a comment alone is no command. -/
def line (text : String) : Option (List Instr) :=
  match trim (text.toList.takeWhile (· != ';')) with
  | [] => some []
  | cs => do
    let m := cs.takeWhile (fun c => !isBlank c)
    assemble (String.ofList m) (← operands (cs.drop m.length))

/-- The command words of a program, line by line (R84, R80). -/
def program (lines : List String) : Option (List CommandWord) := do
  let is ← lines.mapM line
  return is.flatten.map encode

end Sys2Proof.Machine.Asm
end

