-- ==== Sys2Proof/Tests/Slice0.lean ====
section
/-!
SUPPORT. Tests/Slice0.lean: the well-formedness smoke tests, words written out from the encodings, the spec's test vectors
(95_test_vectors.md) one step at a time, and for every statement with hypotheses a state and operands that meet them.
-/

namespace Sys2Proof.Tests

open Sys2Proof.Machine Sys2Proof.Safety

/-! ## Well-formedness: the one check is the index (R82) -/

/-- `SET_LED 13, 0, 0, 0` is the word of V-X3: it decodes and its index is illegal. -/
theorem test_wellFormed_refuses_index_13 : Instr.wellFormed (.setLed 13 0 0 0) = false := by decide

theorem test_wellFormed_accepts_index_12 : Instr.wellFormed (.fstep 12) = true := by decide

/-! ## Decoding: words written out bit by bit from the formats (R74, R80) -/

theorem test_decode_start : decode 0b00010000000000000000000000000000 = .ok .start := by rfl
theorem test_decode_setLed : decode 0b00100100000000010000001000000011 = .ok (.setLed 4 1 2 3) := by rfl
theorem test_decode_setRed : decode 0b00110000111111100000000000000000 = .ok (.setRed 0 254) := by rfl
theorem test_decode_setGreen : decode 0b01001100000010010000000000000000 = .ok (.setGreen 12 9) := by rfl
theorem test_decode_setBlue : decode 0b01011100000001110000000000000000 = .ok (.setBlue 12 7) := by rfl
theorem test_decode_getRed : decode 0b01100100000000000000000000000000 = .ok (.getRed 4) := by rfl
theorem test_decode_getGreen : decode 0b01110101000000000000000000000000 = .ok (.getGreen 5) := by rfl
theorem test_decode_getBlue : decode 0b10000100000000000000000000000000 = .ok (.getBlue 4) := by rfl
theorem test_decode_wait : decode 0b10010000110010000000000000000000 = .ok (.wait 200) := by rfl
theorem test_decode_finit : decode 0b10100000000000000000000000000000 = .ok .finit := by rfl
theorem test_decode_fstep : decode 0b10111100000000000000000000000000 = .ok (.fstep 12) := by rfl
theorem test_decode_tick : decode 0b11110000000000000000000000000000 = .ok .tick := by rfl

/-- V-X2: each of these words raises `ReservedEncoding`. -/
theorem test_decode_reserved :
    ([0x00000000, 0xFFFFFFFF, 0xC0000000, 0x30FE0001, 0x10000001, 0x91020000, 0xB0010000, 0xA1000000, 0xF0000000,
      0xF0000001] : List CommandWord).all (fun w => (decodePort w).toOption.isNone) = true := by rfl

/-- The words of programs P1 and P2 (95_test_vectors.md part 3). -/
theorem test_encode_words :
    encode (.setLed 0 10 20 30) = 0x200A141E ∧ encode (.setLed 0 200 100 50) = 0x20C86432 ∧
      encode (.wait 2) = 0x90020000 ∧ encode (.fstep 11) = 0xBB000000 := by decide

/-- A stored word is four bytes, most significant first (R53). -/
theorem test_stored_word : decodeBytes [0x24, 0x01, 0x02, 0x03, 0x77] = some (.ok (.setLed 4 1 2 3), [0x77]) := by rfl

/-- One line of a program (R84), and SET_LIGHT as a second name (R85). -/
theorem test_assembler_line : Asm.line "set_light 4, 0x01, 2, 3 ; V-A1" = some [.setLed 4 1 2 3] := by decide

/-! ## Small states -/

/-- LED `i` given a colour through the table of `p`. -/
def colour (p : Config.Params) (i : Led) (r g b : Byte) (s : State) : State :=
  ((s.writeLB (p.topo i .red) r).writeLB (p.topo i .green) g).writeLB (p.topo i .blue) b

/-- The colour of LED `i` in the table of `p`. -/
def colourAt (p : Config.Params) (s : State) (i : Led) : List Byte :=
  [s.readLB (p.topo i .red), s.readLB (p.topo i .green), s.readLB (p.topo i .blue)]

/-- The launch state with LED `i` in a fade state. -/
def fading (i : Led) (x : FadeState) : State := State.reset.writeFS i x

/-- FSTEP with the parameters of the vectors. -/
def fstepRef (i : Led) (s : State) : State := runForeground Config.reference (s.setQueue [.fadeSelect i])

/-- What an outcome's next state shows. -/
def seen {α : Type} (f : State → α) : Host.Outcome State Fault Refusal → Option α
  | .next t => some (f t)
  | _ => none

/-! ## Accessors -/

/-- V-A1: LED 4 is `LB[12..14]`. -/
theorem test_setLed :
    seen (fun t => t.lb) (issueIndexed Config.reference 4 (fun i => setLedOps .rgb i 1 2 3) State.reset) =
      some [(12, 1), (13, 2), (14, 3)] := by decide

/-- V-A5: an overwritten channel. -/
theorem test_setGreen_overwrites :
    seen (fun t => colourAt Config.reference t 0)
      (issueIndexed Config.reference 0 (fun i => [.write i .green 9]) (colour Config.reference 0 1 2 3 State.reset)) =
      some [1, 9, 3] := by decide

/-- V-A3: the byte read is latched. -/
theorem test_getBlue :
    seen (fun t => t.rdata)
      (issueIndexed Config.reference 4 (fun i => [.read i .blue]) (colour Config.reference 4 1 2 3 State.reset)) =
      some 3 := by decide

/-- The state of V-A7. -/
def torn : State := { colour Config.reference 0 1 1 1 State.reset with run := true, bc := 1 }

/-- V-A7: a tick after the first byte write shows a colour neither command asked for. -/
theorem test_torn_setLed :
    ((tick (drain Config.reference 1 (torn.setQueue (setLedOps .rgb 0 200 100 50)))).cmp.toList.take 3) = [200, 1, 1] := by
  decide

/-- V-A7 with `SETLED_ORDER` = (B, G, R). -/
theorem test_torn_setLed_bgr :
    ((tick (drain Config.reference 1 (torn.setQueue (setLedOps .bgr 0 200 100 50)))).cmp.toList.take 3) = [1, 1, 50] := by
  decide

/-! ## The fade state machine -/

/-- V-F2, step 3: the decrement is not written when blue is 0. -/
theorem test_fstep_clamps :
    colourAt Config.reference (fstepRef 2 (colour Config.reference 2 252 7 0 (fading 2 .blueToRed))) 2 = [253, 7, 0] := by
  decide

/-- E4: LED 0 leaves state 1 and seeds LED 1. -/
theorem test_fstep_propagates :
    (fun t : State => (colourAt Config.reference t 0, colourAt Config.reference t 1, t.fs[0], t.fs[1]))
      (fstepRef 0 (colour Config.reference 1 9 9 9 (colour Config.reference 0 255 0 0 (fading 0 .blueToRed)))) =
      ([0, 0, 0], [0, 0, 0], .redToGreen, .blueToRed) := by decide

/-- V-F6 (a): the last LED has no next one. -/
theorem test_fstep_last_led :
    (fun t : State => (colourAt Config.reference t 12, t.fs[12], t.fault))
      (fstepRef 12 (colour Config.reference 12 255 0 0 (fading 12 .blueToRed))) =
      ([0, 0, 0], .redToGreen, .noFault) := by decide

/-- V-F6 (c): leaving state 2 seeds nothing. -/
theorem test_fstep_state_two :
    (fun t : State => (colourAt Config.reference t 1, t.fs[0], t.fs[1]))
      (fstepRef 0 (colour Config.reference 1 9 9 9 (colour Config.reference 0 0 255 0 (fading 0 .redToGreen)))) =
      ([9, 9, 9], .greenToBlue, .idle) := by decide

/-- V-F3: state 3, LED (0, 5, 255). -/
theorem test_fstep_state_three :
    (fun t : State => (colourAt Config.reference t 5, t.fs[5], t.fs[6]))
      (fstepRef 5 (colour Config.reference 5 0 5 255 (fading 5 .greenToBlue))) =
      ([0, 4, 0], .blueToRed, .idle) := by decide

/-- V-F7: a tick after f7, the eighth labelled line that executes (m1, f1 to f7). -/
theorem test_torn_propagation :
    ((tick (drain Config.reference 8 ({ colour Config.reference 1 9 9 9 (colour Config.reference 0 255 0 0
      (fading 0 .blueToRed)) with run := true, bc := 1 }.setQueue [.fadeSelect 0]))).cmp.toList.take 6) =
      [0, 0, 0, 0, 9, 9] := by decide

/-- V-F1: FINIT. -/
theorem test_finit :
    seen (fun t => (t.fs[0], t.fs[1], t.fs[2])) (exec .finit ((fading 0 .redToGreen).writeFS 1 .greenToBlue)) =
      some (.blueToRed, .idle, .idle) := by decide

/-! ## The scan -/

/-- V-S3: a load tick of row 2. -/
theorem test_load_tick :
    (fun t : State => (t.bc, t.cmp.toList.take 3, t.rowen, t.sc))
      (tick { State.reset with
        lb := [(24, 10), (25, 11), (26, 12)], sc := 2, bc := 1, rowen := 0b0010, run := true }) =
      (4, [10, 11, 12], 0b0100, 3) := by decide

/-- V-S4: the cursor wraps. -/
theorem test_cursor_wraps :
    (fun t : State => (t.rowen, t.sc, t.bc)) (tick { State.reset with sc := 3, run := true }) = (0b1000, 0, 4) := by decide

/-- V-S5: a blank tick. -/
theorem test_blank_tick :
    (fun t : State => (t.bc, t.rowen, t.sc)) (tick { State.reset with bc := 3, rowen := 0b0001, sc := 1, run := true }) =
      (2, 0b0001, 1) := by decide

/-- V-S6: the wait counter does not wrap. -/
theorem test_wait_counter :
    (tick { State.reset with waitctr := 1 }).waitctr = 0 ∧ (tick State.reset).waitctr = 0 := by decide

/-- V-S8: the comparator at 128 and at 255. -/
theorem test_comparator :
    (fun s : State => (s.columnOn 0, s.columnOn 1, s.columnOn 2))
      { State.reset with pwmcnt := 128, cmp := (Vector.replicate 12 255).set 0 128 |>.set 2 129 } =
      (false, true, true) := by decide

/-- V-S1: the pins before the first tick, and R101: row 2 energized, when the lines are active low (the default). -/
theorem test_pins :
    State.reset.pins Config.reference = 0b1111 ∧
      { State.reset with rowen := 0b0100 }.pins Config.reference = 0b1011 := by decide

/-- The defaults of R6 that no vector of a step depends on. -/
theorem test_defaults :
    Config.reference.chasePasses = 1024 ∧ pwmClocksPerTick Config.reference = 256 ∧ TickRate.reference.hz = 2000 :=
  ⟨rfl, by decide, rfl⟩

/-! ## START, WAIT and faults -/

/-- V-W1. -/
theorem test_start : seen (fun t => t.run) (exec .start State.reset) = some true := by decide

/-- V-W3: the largest wait. -/
theorem test_wait : seen (fun t => t.waitctr) (exec (.wait 255) State.reset) = some 510 := by decide

/-- V-X3: GET_RED 15 leaves `RDATA` and records code 1. -/
theorem test_index_fault :
    seen (fun t => (t.fault.code, t.rdata)) (exec (.getRed 15) { State.reset with rdata := 7 }) = some (1, 7) := by decide

/-- V-X5: the reserved field is found before the index. -/
theorem test_check_order :
    seen (fun t => t.fault.code) (step { State.reset with trace := [.command 0x3D000001 none] }) = some 2 := by decide

/-- V-X4: a recorded fault stays, and the command is not accepted. -/
theorem test_sticky_fault :
    seen (fun t => (t.fault.code, t.lb)) (exec (.setLed 0 1 2 3) { State.reset with fault := .indexFault }) =
      some (1, []) := by decide

/-- V-W4: a WAIT without START hangs. -/
theorem test_hung_wait : step { State.reset with waitctr := 2 } = .fault .hungWait := by rfl

/-- R184: one sweep is 13 SET_LED, each with its hold; the first is blue on LED 0. -/
theorem test_wash_sweep :
    (washSweep 0 0 255).length = 26 ∧ (washSweep 0 0 255).take 2 = [.setLed 0 0 0 255, .wait 200] := by decide

/-- R234 (b), (c), and R182's figures for `WAIT 2`. -/
theorem test_rates :
    TickRate.reference.rowRate = 500 ∧ TickRate.reference.frameRate = 125 ∧
      TickRate.reference.holdMoreThanMs 4 = 3 / 2 ∧ TickRate.reference.holdAtMostMs 4 = 2 := by
  norm_num [TickRate.rowRate, TickRate.frameRate, TickRate.holdMoreThanMs, TickRate.holdAtMostMs, TickRate.intervalMs,
    TickRate.reference]

/-! ## For every statement with hypotheses, a state and operands that meet them -/

/-- Running, with the largest wait. -/
def running : State := { State.reset with run := true, waitctr := 510 }

/-- LED 0 in state 1 with red at 255, every other LED idle: FSTEP 0 seeds LED 1. -/
def seeding : State := (fading 0 .blueToRed).writeLB (Config.topo 0 .red) 255

/-- The last LED in state 1 with red at 255: there is no next LED. -/
def lastLed : State := (fading 12 .blueToRed).writeLB (Config.topo 12 .red) 255

/-- The host is about to issue these words. -/
def inputs (tr : List TraceItem) : State := { State.reset with trace := tr }

theorem test_reset_ready : Ready State.reset := ⟨rfl, rfl, rfl, rfl⟩
theorem test_seeding_ready : Ready seeding := ⟨rfl, rfl, rfl, rfl⟩
theorem test_seeding_red : seeding.readLB (Config.topo 0 .red) = 255 := by simp [seeding, State.readLB_writeLB]
theorem test_seeding_seeds : Seeds seeding 0 1 := ⟨rfl, test_seeding_red, rfl, rfl⟩

/-- What FSTEP 0 does there: the run law of Laws/Foreground.lean. -/
theorem test_seeding_fstep : exec (.fstep (idxOf 0)) seeding = .next ((fstepWhole Config.params 0 seeding).setQueue []) := by
  simp only [exec, execFstep]
  rw [issueIndexed_accepted (idx := idxOf 0) (s := seeding) _ _ (by rfl) (ledOfIdx_ofNat 0)]
  exact congrArg _ (run_fstep Config.params 0 (s := seeding) rfl)

/-- What FSTEP gives `fade` in state 1. -/
def stateOneArgs : FadeArgs := ⟨0, .blue, .red, .redToGreen, true⟩

theorem test_seeding_red_decremented :
    (fadeDecrement Config.params stateOneArgs seeding).readLB (Config.topo 0 .red) = 255 := by
  have hne : Config.topo 0 .red ≠ Config.topo 0 .blue := topo_ne_of_channel (by decide) _ _
  unfold fadeDecrement
  split
  · rw [State.readLB_writeLB]
    exact (if_neg hne).trans test_seeding_red
  · exact test_seeding_red

theorem test_seeding_result : (fstepWhole Config.params 0 seeding).fs[1] = .blueToRed := by
  have hf : (fadeDecrement Config.params stateOneArgs seeding).fs = seeding.fs := by
    unfold fadeDecrement; split <;> rfl
  have hw : wrappedToZero (inc8 ((fadeDecrement Config.params stateOneArgs seeding).readLB (Config.topo 0 .red))) = true := by
    rw [test_seeding_red_decremented]; rfl
  have hs : seededLed stateOneArgs ((fadeIncrement Config.params stateOneArgs
      (fadeDecrement Config.params stateOneArgs seeding)).writeFS 0 .redToGreen) = some 1 := by
    simp only [seededLed, State.writeFS_fs, fadeIncrement, State.writeLB_fs, hf]
    rfl
  have hi : (fadeIncrement Config.params stateOneArgs (fadeDecrement Config.params stateOneArgs seeding)).fs = seeding.fs := hf
  show (fadeWhole Config.params stateOneArgs seeding).fs[1] = _
  have hwhole : fadeWhole Config.params stateOneArgs seeding = fadeSeed Config.params stateOneArgs
      ((fadeIncrement Config.params stateOneArgs (fadeDecrement Config.params stateOneArgs seeding)).writeFS 0 .redToGreen) :=
    if_pos hw
  rw [hwhole]
  simp only [fadeSeed, hs, State.writeLB_fs, State.writeFS_fs]
  simp

theorem test_witness_DecodedWordIsTheInstructionsWord : decode 0x24010203 = .ok (.setLed 4 1 2 3) := by rfl

theorem test_witness_DecoderAcceptsExactlyTheOpcodeMap :
    decode 0x90C80000 = .ok (.wait 200) ∧ Instr.row (.wait 200) ∈ opcodeRows ∧
      (Instr.row (.wait 200)).selects 0x90C80000 = true := by decide

theorem test_witness_StepRunsTheDecodedInstruction :
    ((inputs [.command 0x24010203 (some 1)]).trace = [.command 0x24010203 (some 1)] ∧
      (inputs [.command 0x24010203 (some 1)]).fgq = [] ∧ (inputs [.command 0x24010203 (some 1)]).waitctr = 0 ∧
      decode 0x24010203 = .ok (.setLed 4 1 2 3)) ∧
    (inputs [.tick]).trace = [.tick] ∧
    decodeTableWord 32 0x30FE0000 = some (.setRed 0 254) ∧ decodeTableWord 32 0xF0000000 = some .tick :=
  ⟨⟨rfl, rfl, rfl, rfl⟩, rfl, by decide, by decide⟩

theorem test_witness_ReservedWordFaultsAndChangesNothingElse :
    ((inputs [.command 0x30FE0001 none]).fgq = [] ∧ (inputs [.command 0x30FE0001 none]).waitctr = 0) ∧
      decode 0x30FE0001 = .error .nonzeroField ∧ decode 0xF0000000 = .ok .tick := ⟨⟨rfl, rfl⟩, rfl, rfl⟩

theorem test_witness_WaitHoldsTheForeground :
    (running.fgq = [] ∧ running.waitctr ≠ 0 ∧ running.trace = [] ∧ running.run = true) ∧
      ({ inputs [.command 0xA0000000 none] with waitctr := 1 }.waitctr ≠ 0 ∧
        { inputs [.command 0xA0000000 none] with waitctr := 1 }.run = false) :=
  ⟨⟨rfl, by decide, rfl, rfl⟩, by decide, rfl⟩

theorem test_witness_InterruptedCommandIsCompleted :
    ({ State.reset with fgq := [.write 0 .red 5] }.fgq ≠ [] ∧ { State.reset with fgq := [.write 0 .red 5] }.trace = []) ∧
      (inputs [.foreground (some 1)]).trace = [.foreground (some 1)] ∧ State.reset.preempt = none ∧
      { State.reset with preempt := some 1 }.preempt = some 1 ∧ (State.reset.setQueue [.setRun]).fgq = [.setRun] :=
  ⟨⟨by decide, rfl⟩, rfl, rfl, rfl, rfl⟩

/-- A SET_LED interrupted after its first write: both inputs that resume it find two writes left (V-A7). -/
theorem test_resumed_setLed :
    ((drain Config.reference 1 (torn.setQueue (setLedOps .rgb 0 200 100 50))).fgq.length,
      colourAt Config.reference (drain Config.reference 2 (tick (drain Config.reference 1
        (torn.setQueue (setLedOps .rgb 0 200 100 50))))) 0) = (2, [200, 100, 50]) := by decide

theorem test_witness_InterruptedThenResumedIsTheWholeCommand :
    Ready State.reset ∧ Instr.fstep 12 ≠ .tick ∧ Instr.start ≠ .tick ∧ State.reset.run = false :=
  ⟨test_reset_ready, by decide, by decide, rfl⟩

/-- A SET_LED of LED 0 with its green and blue writes left: LED 12's bytes, every fade state and all else are out of reach. -/
theorem test_witness_FrameOfTheForeground :
    (∀ op ∈ (State.reset.setQueue [.write 0 .green 2, .write 0 .blue 3]).fgq,
      ¬ mayStore Config.params op (Config.topo 12 .red)) ∧
      (∀ op ∈ (State.reset.setQueue [.write 0 .green 2, .write 0 .blue 3]).fgq, ¬ mayMove op 12) ∧
      (∀ i ch, .read i ch ∉ (State.reset.setQueue [.write 0 .green 2, .write 0 .blue 3]).fgq) ∧
      (∀ ms, .loadWait ms ∉ (State.reset.setQueue [.write 0 .green 2, .write 0 .blue 3]).fgq) ∧
      .setRun ∉ (State.reset.setQueue [.write 0 .green 2, .write 0 .blue 3]).fgq := by
  refine ⟨fun op h => ?_, fun op h => ?_, by simp, by simp, by simp⟩ <;> simp at h <;> rcases h with rfl | rfl
  · exact topo_ne_of_led (by decide) _ _
  · exact topo_ne_of_led (by decide) _ _
  · exact id
  · exact id

/-- A program may be listed at launch, as in P1 and P3, whatever `PWMCNT` holds (R238). -/
theorem test_resetState :
    ResetState State.reset ∧ ResetState { inputs [.command 0x10000000 none, .tick] with pwmcnt := 77 } :=
  ⟨rfl, rfl⟩

/-- After START the state is no launch state, in neither reading (R38, R238). -/
theorem test_not_resetState :
    ¬ ResetState { State.reset with run := true } ∧ ¬ ResetStateConservative { State.reset with run := true } :=
  ⟨fun h => by simpa [State.reset] using congrArg State.run h, fun h => by simpa [State.reset] using congrArg State.run h.2.2⟩

/-- The conservative reading: buffer, cursor and counter free within their ranges, and a program listed (R238). -/
theorem test_resetStateConservative :
    ResetStateConservative { inputs [.command 0x10000000 none] with lb := [(47, 9)], sc := 3, bc := 4 } :=
  ⟨by decide, by decide, rfl⟩

/-- A run is over although a tick and a PWM clock are still to come. -/
theorem test_witness_FinishedRunStaysFinished :
    Finished State.reset ∧ Finished { inputs [.tick, .pwmClock] with run := true } :=
  ⟨⟨rfl, rfl, rfl, rfl⟩, rfl, rfl, rfl, rfl⟩

/-- A command still listed, a hold, or a fault: the run is not over (R236). -/
theorem test_not_finished :
    ¬ Finished (inputs [.tick, .command 0xA0000000 none]) ∧ ¬ Finished running ∧
      ¬ Finished { State.reset with fault := .indexFault } :=
  ⟨fun h => (by cases h.1), fun h => absurd h.2.2.1 (by decide), fun h => absurd h.2.2.2 (by decide)⟩

theorem test_witness_PinsFollowTheRowEnable :
    State.reset.rowen = allRowsOff ∧ { State.reset with rowen := 1 }.rowen = onehot 0 ∧
      { State.reset with rowen := 2 }.rowen = onehot 1 ∧ { State.reset with rowen := 4 }.rowen = onehot 2 ∧
      { State.reset with rowen := 8 }.rowen = onehot 3 := by decide

/-- Running, in a tick interval whose PWM clocks have all elapsed, with the next one listed. -/
def due : State := { inputs [.pwmClock] with run := true, pwmLeft := some 0 }

/-- Running, in a tick interval with two PWM clocks left. -/
def twoLeft : State := { inputs [.pwmClock] with run := true, pwmcnt := 255, pwmLeft := some 2 }

theorem test_witness_PwmClockAdvancesTheCounterAlone :
    (inputs [.pwmClock]).trace = [.pwmClock] ∧ (inputs [.pwmClock]).run = false ∧
      (twoLeft.trace = [.pwmClock] ∧ twoLeft.pwmLeft ≠ some 0) ∧
      due.trace = [.pwmClock] ∧ due.run = true ∧ due.pwmLeft = some 0 := ⟨rfl, rfl, ⟨rfl, by decide⟩, rfl, rfl, rfl⟩

/-- `PWMCNT` wraps (R37), and one clock of the interval is used up. -/
theorem test_pwmClock : seen (fun t => (t.pwmcnt, t.pwmLeft, t.trace.length)) (step twoLeft) = some (0, some 1, 0) := by decide

/-- When the interval has no clock left the tick is next: a load tick of row 0, and the listed clock waits (R37, R109). -/
theorem test_tickDue : seen (fun t => (t.rowen, t.sc, t.trace.length)) (step due) = some (0b0001, 1, 1) := by decide

/-- The clocks that an interval still has elapse at its tick, also when the trace lists none of them (R37, R109). -/
theorem test_endInterval : seen (fun t => t.pwmcnt) (step { twoLeft with trace := [] }) = some 1 := by decide

/-- Running, at a known phase. -/
def atPhase : State := { State.reset with run := true, pwmcnt := 5 }

/-- A run of ticks alone. -/
def tickRun : Nat → State
  | 0 => atPhase
  | n + 1 => tickInterval (tickRun n)

theorem test_tickRun (n : Nat) : (tickRun n).trace = [] ∧ (tickRun n).fgq = [] ∧ (tickRun n).run = true := by
  induction n with
  | zero => exact ⟨rfl, rfl, rfl⟩
  | succ n ih =>
    exact ⟨(tick_sameForeground _).trace.trans ((endInterval_trace _).trans ih.1),
      (tick_sameForeground _).fgq.trans ((endInterval_fgq _).trans ih.2.1), (tickInterval_run _).trans ih.2.2⟩

theorem test_tickRun_next (n : Nat) : nextEvent (tickRun n) = .tick (tickRun n) := by
  obtain ⟨ht, hq, hr⟩ := test_tickRun n
  simp [nextEvent, ht, idleEvent, hq, hr]

/-- The second tick comes straight after the first, and all the clocks of the interval elapse with it. -/
theorem test_witness_TickIntervalHasItsPwmClocks :
    Run tickRun ∧ 0 < 1 ∧ tickHappens (tickRun 0) ∧ tickHappens (tickRun 1) ∧
      (∀ k, 0 < k → k < 1 → ¬ tickHappens (tickRun k)) ∧ pwmClocksAt twoLeft = 1 ∧ ∃ t, step twoLeft = .next t :=
  ⟨fun n => by
      simp [step, test_tickRun_next, exec, execTick, (test_tickRun n).2.2, tickRun, tickInterval],
    by decide, ⟨_, test_tickRun_next 0, rfl⟩, ⟨_, test_tickRun_next 1, (test_tickRun 1).2.2⟩, fun _ _ _ => by omega,
    rfl, _, rfl⟩

theorem test_witness_NothingLeftToIssue :
    (running.trace = [] ∧ running.fgq = [] ∧ running.run = true) ∧
      (State.reset.trace = [] ∧ State.reset.run = false ∧ State.reset.waitctr = 0 ∧ State.reset.fault = .noFault) ∧
      { State.reset with fault := .indexFault }.fault ≠ .noFault := ⟨⟨rfl, rfl, rfl⟩, ⟨rfl, rfl, rfl, rfl⟩, by decide⟩

theorem test_witness_StartSetsRun :
    (Ready State.reset ∧ State.reset.run = false) ∧
      (Ready { State.reset with run := true } ∧ { State.reset with run := true }.run = true) :=
  ⟨⟨⟨rfl, rfl, rfl, rfl⟩, rfl⟩, ⟨rfl, rfl, rfl, rfl⟩, rfl⟩

theorem test_witness_WaitLoadsTwiceTheMilliseconds : Ready seeding := ⟨rfl, rfl, rfl, rfl⟩

theorem test_witness_WaitEndsAfterExactlyItsTicks :
    running.run = true ∧ running.fgq = [] ∧ running.trace = [] ∧ running.waitctr.toNat = 510 := ⟨rfl, rfl, rfl, rfl⟩

theorem test_witness_SetChannelWritesItsByte :
    Ready State.reset ∧ 12 < (13 : Nibble).toNat ∧ 12 < (15 : Nibble).toNat ∧
      Config.topo 0 .red ≠ Config.topo 0 .green :=
  ⟨test_reset_ready, by decide, by decide, topo_ne_of_channel (by decide) _ _⟩

theorem test_witness_GetChannelLatchesItsByte : Ready seeding ∧ 12 < (13 : Nibble).toNat ∧ 12 < (15 : Nibble).toNat :=
  ⟨test_seeding_ready, by decide, by decide⟩

theorem test_witness_SetLedWritesItsThreeBytes :
    Ready State.reset ∧ ∀ ch, Config.topo 0 .blue ≠ Config.topo 12 ch :=
  ⟨test_reset_ready, fun _ => topo_ne_of_led (by decide) _ _⟩

theorem test_witness_InterruptedSetLedHasWrittenAPrefix : Ready State.reset ∧ (0 : Nat) ≤ 3 ∧ (3 : Nat) ≤ 3 :=
  ⟨test_reset_ready, by decide, by decide⟩

theorem test_witness_SetLedOrderLeavesNoTrace :
    WellFormedTopo Config.reference ∧ ({ Config.reference with setLedOrder := .bgr } : Config.Params).topo = Config.reference.topo ∧
      Memory.wf State.reset.lb = true ∧ State.reset.preempt = none :=
  ⟨fun _ _ _ _ => tableT0_injective, rfl, by decide, rfl⟩

theorem test_witness_RoundTripThroughTheTopologyTable :
    ∃ t, issueIndexed Config.reference (idxOf 12) (fun j => [.write j .blue 7]) State.reset = .next t ∧ Ready t :=
  ⟨_, rfl, by decide, by decide, by decide, by decide⟩

theorem test_witness_AccessorsAreIndependent :
    ((0 : Led), Channel.red) ≠ (0, .green) ∧ (0 : Led) ≠ 12 ∧
      (∃ t, exec (setInstr .red (idxOf 0) 5) State.reset = .next t) ∧
      ∃ t, exec (.setLed (idxOf 0) 1 2 3) State.reset = .next t := ⟨by decide, by decide, ⟨_, rfl⟩, _, rfl⟩

theorem test_witness_FinitSeedsLedZero : Ready seeding ∧ (12 : Led) ≠ 0 := ⟨test_seeding_ready, by decide⟩

theorem test_witness_IdleLedStaysIdle :
    (Ready State.reset ∧ State.reset.fs[12] = .idle) ∧
      (∃ t, exec .finit State.reset = .next t ∧ State.reset.fs[0] = .idle ∧ t.fs[0] ≠ .idle) ∧
      ∃ t, exec (.fstep (idxOf 0)) seeding = .next t ∧ seeding.fs[1] = .idle ∧ t.fs[1] ≠ .idle :=
  ⟨⟨test_reset_ready, rfl⟩, ⟨_, rfl, rfl, by decide⟩, _, test_seeding_fstep, rfl, by
    rw [State.setQueue_fs, test_seeding_result]; decide⟩

theorem test_witness_FadeStepInStateOne :
    (Ready seeding ∧ seeding.fs[0] = .blueToRed ∧ seeding.readLB (Config.topo 0 .red) = 255 ∧ Seeds seeding 0 1) ∧
      (Ready lastLed ∧ lastLed.fs[12] = .blueToRed ∧ lastLed.readLB (Config.topo 12 .red) = 255 ∧
        ∀ j, ¬ Seeds lastLed 12 j) ∧
      (Ready (fading 0 .blueToRed) ∧ (fading 0 .blueToRed).fs[0] = .blueToRed ∧
        (fading 0 .blueToRed).readLB (Config.topo 0 .red) ≠ 255) ∧
      ∃ t, exec (.fstep (idxOf 0)) seeding = .next t ∧ (1 : Led) ≠ 0 ∧ t.fs[1] ≠ seeding.fs[1] :=
  ⟨⟨test_seeding_ready, rfl, test_seeding_red, test_seeding_seeds⟩,
    ⟨⟨rfl, rfl, rfl, rfl⟩, rfl, by simp [lastLed, State.readLB_writeLB], fun _ h => by
      have h := h.2.2.1; simp [nextLed] at h⟩,
    ⟨⟨rfl, rfl, rfl, rfl⟩, rfl, fun h => absurd (h : (0 : Byte) = 255) (by decide)⟩, _, test_seeding_fstep, by decide, by
    rw [State.setQueue_fs, test_seeding_result]; decide⟩

theorem test_witness_FadeStepInStateTwo :
    (Ready (fading 3 .redToGreen) ∧ (fading 3 .redToGreen).fs[3] = .redToGreen ∧
      (fading 3 .redToGreen).readLB (Config.topo 3 .green) ≠ 255) ∧
      ((fading 3 .redToGreen).writeLB (Config.topo 3 .green) 255).readLB (Config.topo 3 .green) = 255 :=
  ⟨⟨⟨rfl, rfl, rfl, rfl⟩, rfl, fun h => absurd (h : (0 : Byte) = 255) (by decide)⟩, by simp [State.readLB_writeLB]⟩

theorem test_witness_FadeStepInStateThree :
    (Ready (fading 3 .greenToBlue) ∧ (fading 3 .greenToBlue).fs[3] = .greenToBlue ∧
      (fading 3 .greenToBlue).readLB (Config.topo 3 .blue) ≠ 255) ∧
      ((fading 3 .greenToBlue).writeLB (Config.topo 3 .blue) 255).readLB (Config.topo 3 .blue) = 255 :=
  ⟨⟨⟨rfl, rfl, rfl, rfl⟩, rfl, fun h => absurd (h : (0 : Byte) = 255) (by decide)⟩, by simp [State.readLB_writeLB]⟩

theorem test_witness_PropagationReachesOnlyTheNextLed :
    (∃ t, exec (.fstep (idxOf 0)) seeding = .next t ∧ (1 : Led) ≠ 0 ∧ t.fs[1] ≠ seeding.fs[1]) ∧
      (Ready seeding ∧ Seeds seeding 0 1) ∧ Instr.fstep (idxOf 0) ≠ .finit ∧ seeding.fs[0] ≠ .idle :=
  ⟨⟨_, test_seeding_fstep, by decide, by rw [State.setQueue_fs, test_seeding_result]; decide⟩,
    ⟨test_seeding_ready, test_seeding_seeds⟩, by decide, by decide⟩

theorem test_witness_FadeStatesCycle : ∃ t, exec (.fstep (idxOf 0)) seeding = .next t ∧ t.fs[1] ≠ seeding.fs[1] :=
  ⟨_, test_seeding_fstep, by rw [State.setQueue_fs, test_seeding_result]; decide⟩

theorem test_witness_OnlyFinitMakesALedIdle :
    (∃ t, QueueFromFstep ((inputs [.command 0xA0000000 none]).writeFS 1 .greenToBlue) ∧
      step ((inputs [.command 0xA0000000 none]).writeFS 1 .greenToBlue) = .next t ∧
      ((inputs [.command 0xA0000000 none]).writeFS 1 .greenToBlue).fs[1] ≠ .idle ∧ t.fs[1] = .idle) ∧
      ∃ t, QueueFromFstep ((fading 1 .greenToBlue).setQueue [.clearFade, .seedFirst]) ∧
        step ((fading 1 .greenToBlue).setQueue [.clearFade, .seedFirst]) = .next t ∧
        ((fading 1 .greenToBlue).setQueue [.clearFade, .seedFirst]).fs[1] ≠ .idle ∧ t.fs[1] = .idle := by
  refine ⟨⟨_, fun op h => ?_, rfl, by decide, by decide⟩, _, fun op h f hf => ?_, rfl, by decide, by decide⟩
  · cases h
  · simp at h
    rcases h with rfl | rfl <;> cases hf

/-- A queue with a fade step in it that meets the premise. -/
theorem test_queueFromFstep : QueueFromFstep (State.reset.setQueue [.fadeF5 stateOneArgs 0]) := by
  intro op h f hf
  simp at h
  subst h
  cases hf
  exact ⟨.blueToRed, rfl⟩

theorem test_witness_FadeStateLasts256Steps :
    Ready (fading 5 .blueToRed) ∧ fadeArgs 5 (fading 5 .blueToRed).fs[5] = some ⟨5, .blue, .red, .redToGreen, true⟩ ∧
      shows (fading 5 .blueToRed) 5 0 0 0 ∧ (0 : Nat) < 256 ∧ (255 : Nat) < 256 ∧ Channel.green ≠ .red :=
  ⟨⟨rfl, rfl, rfl, rfl⟩, rfl, ⟨rfl, rfl, rfl⟩, by decide, by decide, by decide⟩

theorem test_witness_LoadTickLightsTheCursorsRow :
    ({ State.reset with run := true }.run = true ∧ { State.reset with run := true }.bc.toNat ≤ 1) ∧
      { State.reset with run := true, bc := 1 }.bc.toNat ≤ 1 := by decide

theorem test_witness_BlankTickZeroesTheCompareRegisters :
    ({ State.reset with run := true, bc := 2 }.run = true ∧ 1 < { State.reset with run := true, bc := 2 }.bc.toNat) ∧
      1 < { State.reset with run := true, bc := 7 }.bc.toNat := by decide

theorem test_witness_TickIsTotal : running.run = true := rfl

theorem test_witness_NoTickBeforeStart : State.reset.run = false := rfl

theorem test_witness_LoadTicksComeEveryFourTicks :
    ({ State.reset with bc := 4 }.bc.toNat ≤ 4 ∧ 0 + 1 < max { State.reset with bc := 4 }.bc.toNat 1) ∧
      (State.reset.bc.toNat ≤ 4 ∧ (ticks 0 State.reset).loadsNext = true) ∧ (1 : Nat) ≤ 3 := by decide

theorem test_witness_ScanPatternFromLaunch : State.reset.bc = 0 ∧ State.reset.sc = 0 := by decide

theorem test_witness_RowsAreVisitedInCyclicOrder :
    State.reset.loadsNext = true ∧ Instr.start ≠ .tick ∧ (∃ t, exec .start State.reset = .next t) ∧
      TickStep.rowOn ≠ .advance := ⟨by decide, by decide, ⟨_, rfl⟩, by decide⟩

theorem test_witness_RowLinesWithinAndBetweenTicks :
    (legalRowPattern { State.reset with rowen := 0b1000 }.rowen = true ∧
      { State.reset with rowen := 0b1000 }.loadsNext = true) ∧
      { State.reset with rowen := 0b1000, bc := 3 }.loadsNext = false ∧
      { State.reset with rowen := 0b1000 }.rowen ≠ allRowsOff := by decide

/-- At a load tick of a buffer that is not black the compare registers do change between two instants. -/
theorem test_witness_RowLinesWithinAndBetweenTicks_load :
    (tickInstants { State.reset with lb := [(0, 9)] })[4]?.map (fun u => u.cmp[0]) = some 0 ∧
      (tickInstants { State.reset with lb := [(0, 9)] })[5]?.map (fun u => u.cmp[0]) = some 9 := by decide

theorem test_witness_EntryIsDisplayedWithinSixteenTicks :
    { State.reset with bc := 4, sc := 1 }.bc.toNat ≤ 4 ∧ { State.reset with bc := 4, sc := 1 }.bc.toNat = 4 ∧
      { State.reset with bc := 4, sc := 1 }.sc = rowOf 11 + 1 ∧
      (ticks 3 { State.reset with bc := 4, sc := 1 }).loadsNext = true := by decide

theorem test_witness_FrameDeliversEachEntryOnce : { State.reset with bc := 4 }.bc.toNat ≤ 4 := by decide

/-- Row 0 lit and every compare register at 255. -/
def lit : State := { State.reset with pwmcnt := 0, rowen := 0b0001, cmp := Vector.replicate 12 255 }

theorem test_witness_OnlyOneRowConducts :
    legalRowPattern lit.rowen = true ∧ lit.conducts 0 0 = true ∧ lit.conducts 0 11 = true := by decide

theorem test_witness_IllegalIndexFaultsAndChangesNothingElse :
    (Ready State.reset ∧ Instr.idx? (.fstep 13) = some 13 ∧ 12 < (13 : Nibble).toNat) ∧
      Instr.idx? (.setLed 15 1 2 3) = some 15 ∧ ∃ t, exec (.fstep (idxOf 12)) State.reset = .next t :=
  ⟨⟨test_reset_ready, rfl, by decide⟩, rfl, _, rfl⟩

theorem test_witness_FaultHaltsTheForegroundNotTheScan :
    { State.reset with fault := .reservedEncoding, run := true }.fault ≠ .noFault ∧
      { State.reset with fault := .reservedEncoding, run := true }.run = true ∧ Instr.start ≠ .tick := by decide

theorem test_witness_FaultIsSticky :
    ∃ t, step { inputs [.command 0x00000000 none] with fault := .indexFault } = .next t ∧
      { inputs [.command 0x00000000 none] with fault := .indexFault }.fault ≠ .noFault := ⟨_, rfl, by decide⟩

theorem test_witness_FaultsComeOnlyFromDecoding :
    (∃ t, step (inputs [.command 0x3D000000 none]) = .next t ∧
      t.fault ≠ (inputs [.command 0x3D000000 none]).fault) ∧
      ∃ t, step (inputs [.command 0xF0000000 none]) = .next t ∧
        t.fault ≠ (inputs [.command 0xF0000000 none]).fault := ⟨⟨_, rfl, by decide⟩, _, rfl, by decide⟩

theorem test_witness_FrameOfTheStores :
    (∃ t, exec (setInstr .blue (idxOf 12) 7) State.reset = .next t) ∧
      (∃ t, exec (setInstr .blue 13 7) State.reset = .next t) ∧
      (∃ t, exec (.setLed (idxOf 12) 1 2 3) { State.reset with preempt := some 1 } = .next t) ∧
      ∀ i ch, ledOfIdx 13 = some i → Config.topo 0 .red ≠ Config.topo i ch :=
  ⟨⟨_, rfl⟩, ⟨_, rfl⟩, ⟨_, rfl⟩, fun _ _ h => by simp [ledOfIdx] at h⟩

theorem test_witness_FrameOfTheInstructionsThatStoreNothing :
    (∃ t, exec (getInstr .red (idxOf 12)) State.reset = .next t) ∧ (∃ t, exec .start State.reset = .next t) ∧
      (∃ t, exec (.wait 255) State.reset = .next t) ∧ (∃ t, exec .finit State.reset = .next t) ∧
      ∃ t, exec .tick running = .next t := ⟨⟨_, rfl⟩, ⟨_, rfl⟩, ⟨_, rfl⟩, ⟨_, rfl⟩, _, rfl⟩

theorem test_witness_FrameOfFstep :
    ∃ t, exec (.fstep (idxOf 0)) seeding = .next t ∧ ledOfIdx (idxOf 0) ≠ some 2 ∧
      (∀ i, ledOfIdx (idxOf 0) = some i → ¬ Seeds seeding i 2) ∧
      (∀ i ch, ledOfIdx (idxOf 0) = some i → Config.topo 2 .red ≠ Config.topo i ch) ∧
      ∀ i j ch, ledOfIdx (idxOf 0) = some i → Seeds seeding i j → Config.topo 2 .red ≠ Config.topo j ch := by
  refine ⟨_, test_seeding_fstep, by decide, ?_, ?_, ?_⟩ <;> intro i
  · intro h; cases h; intro hs; exact absurd hs.2.2.1 (by decide)
  · intro ch h; cases h; exact topo_ne_of_led (by decide) _ _
  · intro j ch h hs
    cases h
    obtain rfl : (1 : Led) = j := Option.some.inj ((by decide : some (1 : Led) = nextLed 0).trans hs.2.2.1)
    exact topo_ne_of_led (by decide) _ _

theorem test_witness_AccessorsDoNotDependOnRun :
    isAccessor (.getBlue (idxOf 12)) = true ∧ ∃ t, exec (.getBlue (idxOf 12)) State.reset = .next t :=
  ⟨rfl, _, rfl⟩

theorem test_witness_TheTwoContextsOwnTheirState :
    (∃ t, step running = .next t ∧ t.waitctr.toNat + 1 = running.waitctr.toNat) ∧
      (∃ t, step (inputs [.command 0x90020000 none]) = .next t ∧ t.waitctr = waitTicks 2) ∧
      (∃ t, step (State.reset.setQueue [.loadWait 2]) = .next t ∧ .loadWait 2 ∈ (State.reset.setQueue [.loadWait 2]).fgq ∧
        t.waitctr = waitTicks 2) ∧
      (∃ t, step (inputs [.pwmClock]) = .next t ∧ (inputs [.pwmClock]).trace = [.pwmClock]) ∧
      (∃ t, step State.reset = .next t ∧ State.reset.trace = []) ∧
      ∃ t, step (inputs [.tick]) = .next t ∧ (inputs [.tick]).run = false :=
  ⟨⟨_, rfl, by decide⟩, ⟨_, rfl, by decide⟩, ⟨_, rfl, by decide, by decide⟩, ⟨_, rfl, rfl⟩, ⟨_, rfl, rfl⟩, _, rfl, rfl⟩

theorem test_witness_EveryStepKeepsTheInvariant :
    Inv (inputs [.command 0x10000000 none]) ∧ ∃ t, step (inputs [.command 0x10000000 none]) = .next t :=
  ⟨⟨by decide, fun _ _ => rfl, by decide, by decide, .inl rfl, fun _ => ⟨rfl, rfl, rfl, rfl, rfl⟩, fun _ h => (by cases h),
    by decide, fun _ h => (by cases h), fun h => absurd rfl h, fun _ h => (by cases h), rfl⟩, _, rfl⟩

/-- The invariant in a tick interval that has begun. -/
theorem test_witness_EveryStepKeepsTheInvariant_interval : Inv twoLeft ∧ ∃ t, step twoLeft = .next t :=
  ⟨⟨by decide, fun _ _ => rfl, by decide, by decide, .inl rfl, fun h => (by cases h), fun n h => by
      obtain rfl : 2 = n := Option.some.inj h
      exact le_trans (by decide) (Nat.le_mul_of_pos_right 256 Config.pwmPeriodsPerTick.pos),
    by decide, fun _ h => (by cases h), fun h => absurd rfl h, fun _ h => (by cases h), rfl⟩, _, rfl⟩

/-- The invariant also holds in the middle of a command, where its clauses about the queue say something. -/
theorem test_witness_EveryStepKeepsTheInvariant_inProgress :
    Inv (State.reset.setQueue [.loadWait 2]) ∧ ∃ t, step (State.reset.setQueue [.loadWait 2]) = .next t :=
  ⟨⟨by decide, fun _ _ => rfl, by decide, by decide, .inl rfl, fun _ => ⟨rfl, rfl, rfl, rfl, rfl⟩, fun _ h => (by cases h),
    by decide, fun op h f hf => (by simp at h; subst h; cases hf), fun _ => ⟨rfl, rfl⟩,
    fun ms h => (by simp at h; subst h; rfl), rfl⟩, _, rfl⟩

end Sys2Proof.Tests
end

section
/-!
Proofs of the family 10_state: what a step does to the state, whichever input led to it, and what a micro-operation leaves in
the queue. The statements on the invariant, on `FAULT`, on the fade states and on the PWM clock below are read off from these.
-/

namespace Sys2Proof.Proofs

open Sys2Proof.Machine Sys2Proof.Safety

/-- The port passes on what the opcode map gives, but for TICK's event code (R86). -/
theorem decodePort_eq_ok_iff (w : CommandWord) (i : Instr) : decodePort w = .ok i ↔ decode w = .ok i ∧ i ≠ .tick := by
  unfold decodePort
  split
  · next h =>
    rw [h]
    exact ⟨nofun, fun ⟨e, hi⟩ => absurd (Except.ok.inj e).symm hi⟩
  · next h => exact ⟨fun e => ⟨e, fun hi => h (hi ▸ e)⟩, And.left⟩

/-- The ways a step moves the block, with what led to each: coarser than `StepCase`, for what every step keeps. -/
inductive StepEffect (s t : State) : Prop where
  /-- a command is turned away (R73, R190). -/
  | turnedAway (rest : List TraceItem) (cut : Option Nat) (haccept : s.accepting = false)
      (hnext : t = (afterFetch s rest cut).uncut)
  /-- a word at the port raises a fault (R190). -/
  | faulted (f : FaultCode) (rest : List TraceItem) (cut : Option Nat) (hfgq : s.fgq = []) (hwait : s.waitctr = 0)
      (hnext : t = raiseFault f (afterFetch s rest cut))
  /-- a command is accepted, its micro-operations are queued and the foreground runs. -/
  | issued (w : CommandWord) (cut : Option Nat) (rest : List TraceItem) (c : Instr) (i : Led)
      (htrace : s.trace = .command w cut :: rest) (hdecode : decode w = .ok c) (haccept : s.accepting = true)
      (hnext : t = runForeground Config.params ((afterFetch s rest cut).setQueue (commandOps c i)))
  /-- the foreground goes on with its command (R197). -/
  | resumed (rest : List TraceItem) (cut : Option Nat) (hnext : t = runForeground Config.params (afterFetch s rest cut))
  /-- a TICK ends its tick interval (R103, R109). -/
  | ticked (rest : List TraceItem) (hrun : s.run = true) (hnext : t = tickInterval (afterFetch s rest s.preempt))
  /-- a tick of the trace does not happen (R194). -/
  | dropped (rest : List TraceItem) (hrun : s.run = false) (hnext : t = afterFetch s rest s.preempt)
  /-- one PWM clock (R37). -/
  | clocked (rest : List TraceItem) (hdue : s.tickDue = false) (hnext : t = pwmClock (afterFetch s rest s.preempt))

/-- The tick event with its interval: a whole TICK while `RUN = 1`, nothing while `RUN = 0` (R194). -/
theorem exec_tick_endInterval_cases {u t : State} (h : exec .tick (endInterval u) = .next t) :
    (u.run = true ∧ t = tickInterval u) ∨ (u.run = false ∧ t = u) := by
  rcases exec_tick_cases h with ⟨hr, rfl⟩ | ⟨hr, rfl⟩
  · exact .inl ⟨(endInterval_run u).symm.trans hr, rfl⟩
  · have hu : u.run = false := (endInterval_run u).symm.trans hr
    exact .inr ⟨hu, endInterval_of_stopped hu⟩

theorem stepEffect_of_tick {s t : State} (rest : List TraceItem)
    (h : exec .tick (endInterval (afterFetch s rest s.preempt)) = .next t) : StepEffect s t := by
  rcases exec_tick_endInterval_cases h with ⟨hr, ht⟩ | ⟨hr, ht⟩
  · exact .ticked rest hr ht
  · exact .dropped rest hr ht

theorem stepEffect_of_command {s t : State} {w : CommandWord} {cut : Option Nat} {rest : List TraceItem} {c : Instr}
    (htrace : s.trace = .command w cut :: rest) (hfgq : s.fgq = []) (hwait : s.waitctr = 0)
    (hdecode : decodePort w = .ok c) (h : exec c (afterFetch s rest cut) = .next t) : StepEffect s t := by
  obtain ⟨hd, hc⟩ := (decodePort_eq_ok_iff w c).mp hdecode
  rcases exec_command_cases hc h with ⟨ha, ht⟩ | ⟨_, _, ht⟩ | ⟨i, ha, _, ht⟩
  · exact .turnedAway rest cut ha ht
  · exact .faulted .indexFault rest cut hfgq hwait ht
  · exact .issued w cut rest c i htrace hd ha ht

/-- Every step moves the block in one of these ways. -/
theorem stepEffect_of_step {s t : State} (h : step s = .next t) : StepEffect s t := by
  cases step_cases h with
  | command w cut rest c htrace hfgq hwait hdecode hexec => exact stepEffect_of_command htrace hfgq hwait hdecode hexec
  | reserved w cut rest e htrace hfgq hwait hdecode hnext =>
    exact .faulted .reservedEncoding rest s.preempt hfgq hwait hnext
  | tickInput rest htrace hexec => exact stepEffect_of_tick rest hexec
  | tickForced hrun hfgq hevent hexec => exact stepEffect_of_tick s.trace hexec
  | tickDue rest htrace hdue hexec => exact stepEffect_of_tick s.trace hexec
  | foreground cut rest htrace hnext => exact .resumed rest cut hnext
  | resumed hfgq hnext => exact .resumed s.trace none hnext
  | clock rest htrace hdue hnext => exact .clocked rest hdue hnext
  | idle htrace hrun hfgq hwait hfault hnext => exact .clocked s.trace (by simp [State.tickDue, hrun]) hnext

/-- What a tick interval's TICK leaves of the foreground's fields. -/
theorem tickInterval_fs (s : State) : (tickInterval s).fs = s.fs := (tick_sameForeground _).fs.trans (endInterval_fs s)

theorem tickInterval_fault (s : State) : (tickInterval s).fault = s.fault :=
  (tick_sameForeground _).fault.trans (endInterval_fault s)

/-! What a micro-operation leaves in the queue (R151, R152). -/

/-- What a micro-operation can put in front of the queue: writes, and lines of a fade step with the arguments of its own fade
step or, at m1 of FSTEP, those of the LED's state. -/
def QueuedBy (op : MicroOp) (s : State) (new : MicroOp) : Prop :=
  (∃ i ch v, new = .write i ch v) ∨
    ∃ f, carriedArgs new = some f ∧ (carriedArgs op = some f ∨ ∃ i, op = .fadeSelect i ∧ fadeArgs i s.fs[i.val] = some f)

theorem queuedBy_of_mem_cons {op next new : MicroOp} {s : State} {f : FadeArgs} {q : List MicroOp}
    (hnext : carriedArgs next = some f)
    (hsource : carriedArgs op = some f ∨ ∃ i, op = .fadeSelect i ∧ fadeArgs i s.fs[i.val] = some f)
    (h : new ∈ next :: q) : new ∈ q ∨ QueuedBy op s new := by
  rcases List.mem_cons.mp h with rfl | h
  · exact .inr (.inr ⟨f, hnext, hsource⟩)
  · exact .inl h

theorem mem_fgq_perform {p : Config.Params} {op new : MicroOp} {s : State} (h : new ∈ (perform p op s).fgq) :
    new ∈ s.fgq ∨ QueuedBy op s new := by
  cases op with
  | fadeSelect i =>
    simp only [perform] at h
    split at h
    · exact .inl h
    · next f hf => exact queuedBy_of_mem_cons rfl (.inr ⟨i, rfl, hf⟩) h
  | fadeF1 f => exact queuedBy_of_mem_cons rfl (.inl rfl) h
  | fadeF2 f v =>
    simp only [perform] at h
    split at h <;> exact queuedBy_of_mem_cons rfl (.inl rfl) h
  | fadeF3 f => exact queuedBy_of_mem_cons rfl (.inl rfl) h
  | fadeF4 f w => exact queuedBy_of_mem_cons rfl (.inl rfl) h
  | fadeF5 f w =>
    simp only [perform] at h
    split at h
    · exact queuedBy_of_mem_cons rfl (.inl rfl) h
    · exact .inl h
  | fadeF6 f =>
    simp only [perform] at h
    split at h
    · exact .inl h
    · rcases List.mem_append.mp h with h | h
      · simp only [setLedOps, List.mem_cons, List.not_mem_nil, or_false] at h
        rcases h with rfl | rfl | rfl <;> exact .inr (.inl ⟨_, _, _, rfl⟩)
      · exact .inl h
  | _ => exact .inl h

/-- A micro-operation that is no write and no line of a fade step is queued by no other. -/
theorem mem_fgq_of_mem_perform {p : Config.Params} {op new : MicroOp} {s : State} (hc : carriedArgs new = none)
    (hw : ∀ i ch v, new ≠ .write i ch v) (h : new ∈ (perform p op s).fgq) : new ∈ s.fgq := by
  rcases mem_fgq_perform h with h | ⟨i, ch, v, h⟩ | ⟨f, hf, _⟩
  · exact h
  · exact absurd h (hw i ch v)
  · rw [hc] at hf; cases hf

theorem fadeArgs_led {i : Led} {x : FadeState} {f : FadeArgs} (h : fadeArgs i x = some f) : f.led = i := by
  cases x <;> cases h <;> rfl

/-- No fade step leads to state 0 (R153 to R155). -/
theorem fadeArgs_nextState_ne_idle {i : Led} {x : FadeState} {f : FadeArgs} (h : fadeArgs i x = some f) :
    f.nextState ≠ .idle := by
  cases x <;> cases h <;> exact nofun

/-- A micro-operation continues its fade step with the same arguments, and m1 of FSTEP begins one with those of R151. -/
theorem queueFromFstep_perform (p : Config.Params) {op : MicroOp} {rest : List MicroOp} {s : State}
    (hq : s.fgq = op :: rest) (h : QueueFromFstep s) : QueueFromFstep (perform p op (s.setQueue rest)) := by
  intro new hnew f hf
  rcases mem_fgq_perform hnew with hold | ⟨i, ch, v, rfl⟩ | ⟨g, hg, hsource⟩
  · exact h new (hq ▸ List.mem_cons_of_mem op hold) f hf
  · cases hf
  · obtain rfl : g = f := Option.some.inj (hg.symm.trans hf)
    rcases hsource with hop | ⟨i, rfl, hi⟩
    · exact h op (hq ▸ List.mem_cons_self) g hop
    · exact ⟨_, (fadeArgs_led hi).symm ▸ hi⟩

/-- No command queues a line of a fade step but FSTEP's m1, which carries no arguments. -/
theorem carriedArgs_of_mem_commandOps {c : Instr} {i : Led} {op : MicroOp} (h : op ∈ commandOps c i) :
    carriedArgs op = none := by
  cases c <;> simp only [commandOps, setLedOps, List.mem_cons, List.not_mem_nil, or_false] at h
  case setLed => rcases h with rfl | rfl | rfl <;> rfl
  case finit => rcases h with rfl | rfl <;> rfl
  all_goals subst h; rfl

theorem queueFromFstep_setQueue_commandOps (s : State) (c : Instr) (i : Led) :
    QueueFromFstep (s.setQueue (commandOps c i)) :=
  fun _ hop _ hf => by rw [carriedArgs_of_mem_commandOps hop] at hf; cases hf

end Sys2Proof.Proofs
end

section
/-!
Proofs of the family 10_state: every step keeps the invariant (R39). The interruption point is consumed inside a step, so the
lemmas speak of `Inv s.uncut`, the invariant but for its clause `uncut`, and each way a step moves the block has one.
-/

namespace Sys2Proof.Proofs

open Sys2Proof.Machine Sys2Proof.Safety

/-- The invariant speaks of no input. -/
theorem inv_afterFetch_uncut {s : State} (h : Inv s) (rest : List TraceItem) (cut : Option Nat) :
    Inv (afterFetch s rest cut).uncut :=
  ⟨h.memory, h.unmapped, h.blanking, h.rows, h.lit, h.dark, h.interval, h.waiting, h.queue, h.inProgress, h.holdLast, rfl⟩

theorem inv_afterFetch_preempt {s : State} (h : Inv s) (rest : List TraceItem) : Inv (afterFetch s rest s.preempt) := by
  have hu := inv_afterFetch_uncut h rest s.preempt
  rwa [State.uncut_of_none (s := afterFetch s rest s.preempt) h.uncut] at hu

/-- A fault is raised only while no command is in progress, and the invariant speaks of `FAULT` only while one is (R190). -/
theorem inv_raiseFault {s : State} (f : FaultCode) (h : Inv s.uncut) (hq : s.fgq = []) : Inv (raiseFault f s) :=
  ⟨h.memory, h.unmapped, h.blanking, h.rows, h.lit, h.dark, h.interval, h.waiting, h.queue, fun hne => absurd hq hne,
    h.holdLast, rfl⟩

/-- A PWM clock only takes one from what its interval has left (R37). -/
theorem inv_pwmClock {s : State} (h : Inv s) : Inv (pwmClock s) where
  memory := h.memory
  unmapped := h.unmapped
  blanking := h.blanking
  rows := h.rows
  lit := h.lit
  dark hr := by
    obtain ⟨hrowen, hcmp, hsc, hbc, hleft⟩ := h.dark hr
    exact ⟨hrowen, hcmp, hsc, hbc, by simp [hleft]⟩
  interval n hn := by
    obtain ⟨m, hm, rfl⟩ := Option.map_eq_some_iff.mp hn
    exact (Nat.sub_le m 1).trans (h.interval m hm)
  waiting := h.waiting
  queue := h.queue
  inProgress := h.inProgress
  holdLast := h.holdLast
  uncut := h.uncut

/-- A new tick interval has all its PWM clocks left (R109). -/
theorem inv_endInterval {s : State} (h : Inv s) (hr : s.run = true) : Inv (endInterval s) := by
  rw [endInterval_of_run hr]
  exact ⟨h.memory, h.unmapped, h.blanking, h.rows, h.lit, fun hr' => absurd (hr.symm.trans hr') (by decide),
    fun n hn => (Option.some.inj hn).ge, h.waiting, h.queue, h.inProgress, h.holdLast, h.uncut⟩

/-- TICK reloads or counts down `BC`, lights the cursor's row and moves on, and takes one off `WAITCTR` (R103). -/
theorem inv_tick {s : State} (h : Inv s) (hr : s.run = true) : Inv (tick s) := by
  have f := tick_sameForeground s
  refine
    { memory := f.lb ▸ h.memory
      unmapped := fun k hk => (State.readLB_congr f.lb k).trans (h.unmapped k hk)
      blanking := ?_, rows := ?_, lit := ?_
      dark := fun ht => absurd ((f.run.trans hr).symm.trans ht) (by decide)
      interval := f.pwmLeft ▸ h.interval
      waiting := ?_
      queue := fun op hop => h.queue op (f.fgq ▸ hop)
      inProgress := fun hne => ?_
      holdLast := f.fgq ▸ h.holdLast
      uncut := f.preempt.trans h.uncut }
  · rw [tick_bc]
    split
    · decide
    · rw [decNonzero_toNat]; exact (Nat.sub_le _ 1).trans h.blanking
  · rw [tick_rowen]
    split
    · exact legalRowPattern_onehot s.sc
    · exact h.rows
  · rw [tick_rowen, tick_sc]
    split
    · exact .inr (congrArg onehot (add_sub_cancel_right s.sc 1).symm)
    · exact h.lit
  · rw [tick_waitctr, decNonzero_toNat]; exact (Nat.sub_le _ 1).trans h.waiting
  · obtain ⟨hw, hf⟩ := h.inProgress (f.fgq ▸ hne)
    exact ⟨by rw [tick_waitctr, hw]; rfl, f.fault.trans hf⟩

/-- The load of a WAIT stands alone in its queue, so never behind another micro-operation. -/
theorem loadWait_not_mem_tail {s : State} {op : MicroOp} {rest : List MicroOp}
    (h : ∀ ms, .loadWait ms ∈ s.fgq → s.fgq = [.loadWait ms]) (hq : s.fgq = op :: rest) (ms : Byte) :
    .loadWait ms ∉ rest := by
  intro hm
  have hs := h ms (hq ▸ List.mem_cons_of_mem op hm)
  rw [hq] at hs
  rw [(List.cons.inj hs).2] at hm
  cases hm

/-- A micro-operation keeps the invariant: the driver's elements it does not write, and a WAIT's load, which alone writes
`WAITCTR`, is the last of its command. -/
theorem inv_perform {s : State} {op : MicroOp} {rest : List MicroOp} (h : Inv s.uncut) (hq : s.fgq = op :: rest) :
    Inv (perform Config.params op (s.setQueue rest)).uncut := by
  have d := perform_sameDriver Config.params op (s.setQueue rest)
  have hwaitctr := perform_waitctr Config.params op (s.setQueue rest)
  have hrun := fun hr => perform_run Config.params op (s := s.setQueue rest) hr
  obtain ⟨hwait, hfault⟩ : s.waitctr = 0 ∧ s.fault = .noFault := h.inProgress (by simp [hq])
  have hnoLoad : ∀ ms, .loadWait ms ∉ (perform Config.params op (s.setQueue rest)).fgq := fun ms hm =>
    loadWait_not_mem_tail h.holdLast hq ms (mem_fgq_of_mem_perform (s := s.setQueue rest) rfl nofun hm)
  refine
    { memory := perform_wf _ op (s := s.setQueue rest) h.memory
      unmapped := fun k hk =>
        (perform_unmapped _ op (s.setQueue rest) fun i ch e => hk ⟨i, ch, e⟩).trans (h.unmapped k hk)
      blanking := d.bc ▸ h.blanking
      rows := d.rowen ▸ h.rows
      lit := ?_, dark := fun ht => ?_
      interval := d.pwmLeft ▸ h.interval
      waiting := ?_
      queue := queueFromFstep_perform _ hq h.queue
      inProgress := fun hne => ⟨?_, d.fault.trans hfault⟩
      holdLast := fun ms hm => absurd hm (hnoLoad ms)
      uncut := rfl }
  · rw [State.uncut_rowen, State.uncut_sc, d.rowen, d.sc]; exact h.lit
  · rw [State.uncut_rowen, State.uncut_cmp, State.uncut_sc, State.uncut_bc, State.uncut_pwmLeft, d.rowen, d.cmp, d.sc, d.bc,
      d.pwmLeft]
    exact h.dark (Bool.eq_false_iff.mpr fun hs => absurd ((hrun hs).symm.trans ht) (by decide))
  · rcases hwaitctr with hw | ⟨ms, _, hw⟩
    · exact hw ▸ h.waiting
    · have := ms.isLt
      rw [State.uncut_waitctr, hw, waitTicks_toNat]
      omega
  · rcases hwaitctr with hw | ⟨ms, rfl, _⟩
    · exact hw.trans hwait
    · have hs : s.fgq = [.loadWait ms] := h.holdLast ms (by simp [hq])
      exact absurd (List.cons.inj (hq.symm.trans hs)).2 hne

/-- Running the foreground keeps the invariant and consumes the interruption point. -/
theorem inv_runForeground {s : State} (h : Inv s.uncut) : Inv (runForeground Config.params s) := by
  have hu : Inv (runForeground Config.params s).uncut :=
    runForeground_induct (P := fun t => Inv t.uncut) Config.params (fun _ _ _ hq ht => inv_perform ht hq)
      (fun _ ht => ht) h
  rwa [State.uncut_of_none (runForeground_preempt Config.params s)] at hu

/-- A command's load of `WAITCTR` is its only micro-operation (R181). -/
theorem commandOps_of_loadWait_mem {c : Instr} {i : Led} {ms : Byte} (h : .loadWait ms ∈ commandOps c i) :
    commandOps c i = [.loadWait ms] := by
  cases c <;> simp_all [commandOps, setLedOps]

/-- An accepted command enters an empty queue, with `WAITCTR` and `FAULT` at 0 (R73, R190). -/
theorem inv_setQueue_commandOps {s : State} (h : Inv s.uncut) (ha : s.accepting = true) (c : Instr) (i : Led) :
    Inv (s.setQueue (commandOps c i)).uncut := by
  obtain ⟨hfault, _, hwait⟩ := (accepting_iff s).mp ha
  exact ⟨h.memory, h.unmapped, h.blanking, h.rows, h.lit, h.dark, h.interval, h.waiting,
    queueFromFstep_setQueue_commandOps s c i, fun _ => ⟨hwait, hfault⟩, fun _ hm => commandOps_of_loadWait_mem hm, rfl⟩

/-- Settles O54: each way a step moves the block keeps the invariant. -/
theorem everyStepKeepsTheInvariant : Obligations.EveryStepKeepsTheInvariant := by
  intro s t h hstep
  cases stepEffect_of_step hstep with
  | turnedAway rest cut _ hnext => exact hnext ▸ inv_afterFetch_uncut h rest cut
  | faulted f rest cut hfgq _ hnext => exact hnext ▸ inv_raiseFault f (inv_afterFetch_uncut h rest cut) hfgq
  | issued w cut rest c i _ _ haccept hnext =>
    exact hnext ▸ inv_runForeground (inv_setQueue_commandOps (inv_afterFetch_uncut h rest cut) haccept c i)
  | resumed rest cut hnext => exact hnext ▸ inv_runForeground (inv_afterFetch_uncut h rest cut)
  | ticked rest hrun hnext =>
    have hu := inv_endInterval (inv_afterFetch_preempt h rest) hrun
    exact hnext ▸ inv_tick hu ((endInterval_run _).trans hrun)
  | dropped rest _ hnext => exact hnext ▸ inv_afterFetch_preempt h rest
  | clocked rest _ hnext => exact hnext ▸ inv_pwmClock (inv_afterFetch_preempt h rest)

end Sys2Proof.Proofs
end

section
/-!
Proofs of the family 10_state: over every step, a recorded fault stays (R32) and only FINIT makes a LED idle (R161).
-/

namespace Sys2Proof.Proofs

open Sys2Proof.Machine Sys2Proof.Safety

/-- `raise F` leaves a code that is already recorded (R190). -/
theorem raiseFault_fault_of_recorded (f : FaultCode) {s : State} (h : s.fault ≠ .noFault) :
    (raiseFault f s).fault = s.fault := if_neg h

/-- Settles O44: nothing writes `FAULT` but `raise F`, which leaves a recorded code. -/
theorem faultIsSticky : Obligations.FaultIsSticky := by
  intro s t hstep hf
  cases stepEffect_of_step hstep with
  | turnedAway rest cut _ hnext => exact hnext ▸ rfl
  | faulted f rest cut _ _ hnext => exact hnext ▸ raiseFault_fault_of_recorded f (s := afterFetch s rest cut) hf
  | issued w cut rest c i _ _ _ hnext => exact hnext ▸ (runForeground_sameDriver _ _).fault
  | resumed rest cut hnext => exact hnext ▸ (runForeground_sameDriver _ _).fault
  | ticked rest _ hnext => exact hnext ▸ tickInterval_fault _
  | dropped rest _ hnext => exact hnext ▸ rfl
  | clocked rest _ hnext => exact hnext ▸ rfl

/-- A micro-operation writes the Fade State Table by FINIT's m1 (R150), or one entry of it: a LED is seeded (R150, R152 f6), or
f5 moves the LED of its fade step. -/
theorem perform_fs_cases (p : Config.Params) (op : MicroOp) (s : State) :
    (perform p op s).fs = s.fs ∨ op = .clearFade ∨
      ∃ (i : Led) (x : FadeState), (perform p op s).fs = s.fs.set i.val x ∧
        (x = .blueToRed ∨ ∃ f w, op = .fadeF5 f w ∧ i = f.led ∧ x = f.nextState) := by
  cases op with
  | clearFade => exact .inr (.inl rfl)
  | seedFirst => exact .inr (.inr ⟨0, .blueToRed, rfl, .inl rfl⟩)
  | fadeF5 f w =>
    simp only [perform]
    split
    · exact .inr (.inr ⟨f.led, f.nextState, rfl, .inr ⟨f, w, rfl, rfl, rfl⟩⟩)
    · exact .inl rfl
  | fadeF6 f =>
    simp only [perform]
    cases seededLed f s with
    | none => exact .inl rfl
    | some j => exact .inr (.inr ⟨j, .blueToRed, rfl, .inl rfl⟩)
  | _ => exact .inl (by simp only [perform]; (repeat' split) <;> rfl)

/-- LED `k` is started, and nothing in the queue can make it idle. -/
structure StaysStarted (k : Led) (s : State) : Prop where
  queue : QueueFromFstep s
  noClear : MicroOp.clearFade ∉ s.fgq
  started : s.fs[k.val] ≠ .idle

theorem staysStarted_perform {k : Led} (p : Config.Params) {op : MicroOp} {rest : List MicroOp} {s : State}
    (hq : s.fgq = op :: rest) (h : StaysStarted k s) : StaysStarted k (perform p op (s.setQueue rest)) where
  queue := queueFromFstep_perform p hq h.queue
  noClear hm := h.noClear (hq ▸ List.mem_cons_of_mem op
    (mem_fgq_of_mem_perform (s := s.setQueue rest) rfl nofun hm))
  started := by
    rcases perform_fs_cases p op (s.setQueue rest) with hfs | rfl | ⟨i, x, hfs, hx⟩
    · rw [hfs]; exact h.started
    · exact absurd (hq ▸ List.mem_cons_self) h.noClear
    · have hne : x ≠ .idle := by
        rcases hx with rfl | ⟨f, w, rfl, rfl, rfl⟩
        · exact nofun
        · obtain ⟨y, hy⟩ := h.queue (.fadeF5 f w) (hq ▸ List.mem_cons_self) f rfl
          exact fadeArgs_nextState_ne_idle hy
      rw [hfs, Vector.getElem_set]
      split
      · exact hne
      · exact h.started

theorem staysStarted_runForeground {k : Led} (p : Config.Params) {s : State} (h : StaysStarted k s) :
    StaysStarted k (runForeground p s) :=
  runForeground_induct p (fun _ _ _ hq ht => staysStarted_perform p hq ht)
    (fun _ ht => ⟨ht.queue, ht.noClear, ht.started⟩) h

/-- FINIT alone queues its m1 (R150). -/
theorem eq_finit_of_clearFade_mem {c : Instr} {i : Led} (h : MicroOp.clearFade ∈ commandOps c i) : c = .finit := by
  cases c <;> simp_all [commandOps, setLedOps]

/-- Settles O28: a step that neither takes FINIT nor has its m1 queued performs no micro-operation that makes a LED idle. -/
theorem onlyFinitMakesALedIdle : Obligations.OnlyFinitMakesALedIdle := by
  intro s t k hqueue hstep hs ht
  by_contra hnot
  obtain ⟨hword, hclear⟩ := not_or.mp hnot
  suffices hgoal : t.fs[k.val] ≠ .idle from hgoal ht
  cases stepEffect_of_step hstep with
  | turnedAway rest cut _ hnext => exact hnext ▸ hs
  | faulted f rest cut _ _ hnext => exact hnext ▸ hs
  | issued w cut rest c i htrace hdecode _ hnext =>
    have hc : MicroOp.clearFade ∉ commandOps c i := fun hm =>
      hword ⟨w, cut, rest, htrace, eq_finit_of_clearFade_mem hm ▸ hdecode⟩
    exact hnext ▸ (staysStarted_runForeground Config.params
      ⟨queueFromFstep_setQueue_commandOps (afterFetch s rest cut) c i, hc, hs⟩).started
  | resumed rest cut hnext =>
    exact hnext ▸ (staysStarted_runForeground Config.params (s := afterFetch s rest cut) ⟨hqueue, hclear, hs⟩).started
  | ticked rest _ hnext => rw [hnext, tickInterval_fs]; exact hs
  | dropped rest _ hnext => exact hnext ▸ hs
  | clocked rest _ hnext => exact hnext ▸ hs

end Sys2Proof.Proofs
end

section
/-!
Proofs of the family 10_state: the PWM clock and the tick interval (R37, R109, D26), the steps of a block with no input left
(R236), the launch state (R38) and the pins (R72).
-/

namespace Sys2Proof.Proofs

open Sys2Proof.Machine Sys2Proof.Safety

/-- What a step does to the PWM clock's own fields and to `RUN`: it is a TICK that takes place, a PWM clock, or neither. -/
inductive PwmEffect (s t : State) : Prop where
  | tick (happens : tickHappens s) (hclocks : pwmClocksAt s = s.pwmLeft.getD 0)
      (hcount : t.pwmcnt = s.pwmcnt + BitVec.ofNat 8 (pwmClocksAt s))
      (hleft : t.pwmLeft = some (pwmClocksPerTick Config.params)) (hrun : t.run = true)
  | clock (hno : ¬ tickHappens s) (hclocks : pwmClocksAt s = 1) (hdue : s.tickDue = false)
      (hcount : t.pwmcnt = s.pwmcnt + 1) (hleft : t.pwmLeft = s.pwmLeft.map (· - 1)) (hrun : t.run = s.run)
  | other (hno : ¬ tickHappens s) (hclocks : pwmClocksAt s = 0) (hcount : t.pwmcnt = s.pwmcnt)
      (hleft : t.pwmLeft = s.pwmLeft) (hrun : s.run = true → t.run = true)

theorem tickInterval_of_run {u : State} (hr : u.run = true) :
    (tickInterval u).pwmcnt = u.pwmcnt + BitVec.ofNat 8 (u.pwmLeft.getD 0) ∧
      (tickInterval u).pwmLeft = some (pwmClocksPerTick Config.params) := by
  rw [tickInterval_pwmcnt, tickInterval_pwmLeft, endInterval_of_run hr]
  exact ⟨rfl, rfl⟩

theorem pwmEffect_of_step {s t : State} (h : step s = .next t) : PwmEffect s t := by
  have hkeep := nextEvent_keepsPwm s
  unfold step at h
  cases he : nextEvent s with
  | instr i u =>
    rw [he] at h hkeep
    obtain ⟨hcnt, hleft, hrun⟩ := hkeep
    obtain ⟨hcnt', hleft', hrun'⟩ := exec_pwm h
    exact .other (by simp [tickHappens, he]) (by simp [pwmClocksAt, he]) (hcnt'.trans hcnt) (hleft'.trans hleft)
      fun hr => hrun' (hrun.trans hr)
  | tick u =>
    rw [he] at h hkeep
    obtain ⟨hcnt, hleft, hrun⟩ := hkeep
    rcases exec_tick_endInterval_cases h with ⟨hr, rfl⟩ | ⟨hr, rfl⟩
    · obtain ⟨hcnt', hleft'⟩ := tickInterval_of_run hr
      have hclocks : pwmClocksAt s = s.pwmLeft.getD 0 := by simp [pwmClocksAt, he, hr, hleft]
      exact .tick ⟨u, he, hr⟩ hclocks (by rw [hcnt', hcnt, hleft, hclocks]) hleft' ((tickInterval_run u).trans hr)
    · exact .other (by simp [tickHappens, he, hr]) (by simp [pwmClocksAt, he, hr]) hcnt hleft (hrun.trans ·)
  | clock u =>
    rw [he] at h hkeep
    obtain ⟨hcnt, hleft, hrun, hdue⟩ := hkeep
    obtain rfl : pwmClock u = t := Host.Outcome.next.inj h
    exact .clock (by simp [tickHappens, he]) (by simp [pwmClocksAt, he]) hdue (congrArg (· + 1) hcnt)
      (congrArg (Option.map (· - 1)) hleft) hrun
  | move u =>
    rw [he] at h hkeep
    obtain ⟨hcnt, hleft, hrun⟩ := hkeep
    obtain rfl : u = t := Host.Outcome.next.inj h
    exact .other (by simp [tickHappens, he]) (by simp [pwmClocksAt, he]) hcnt hleft hrun
  | stuck f => rw [he] at h; cases h

/-- A step moves `PWMCNT` by the PWM clocks that elapse in it. -/
theorem step_pwmcnt {s t : State} (h : step s = .next t) : t.pwmcnt = s.pwmcnt + BitVec.ofNat 8 (pwmClocksAt s) := by
  cases pwmEffect_of_step h with
  | tick _ _ hcount _ _ => exact hcount
  | clock _ hclocks _ hcount _ _ => rw [hclocks]; exact hcount
  | other _ hclocks hcount _ _ => rw [hclocks]; exact hcount.trans (BitVec.add_zero _).symm

/-- A TICK that takes place begins an interval with all its PWM clocks, and those of the last one have elapsed with it. -/
theorem step_of_tickHappens {s t : State} (h : step s = .next t) (hs : tickHappens s) :
    pwmClocksAt s = s.pwmLeft.getD 0 ∧ t.pwmLeft = some (pwmClocksPerTick Config.params) ∧ t.run = true := by
  cases pwmEffect_of_step h with
  | tick _ hclocks _ hleft hrun => exact ⟨hclocks, hleft, hrun⟩
  | clock hno _ _ _ _ _ => exact absurd hs hno
  | other hno _ _ _ _ => exact absurd hs hno

/-- Inside an interval the PWM clocks that elapse are taken from those it has left, and there are never too many. -/
theorem step_inside_interval {s t : State} {m : Nat} (h : step s = .next t) (hs : ¬ tickHappens s) (hrun : s.run = true)
    (hm : s.pwmLeft = some m) : t.run = true ∧ ∃ n, t.pwmLeft = some n ∧ n + pwmClocksAt s = m := by
  cases pwmEffect_of_step h with
  | tick happens _ _ _ _ => exact absurd happens hs
  | clock _ hclocks hdue _ hleft hrun' =>
    have hpos : m ≠ 0 := by
      rintro rfl
      exact absurd ((tickDue_iff s).mpr ⟨hrun, hm⟩) (by simp [hdue])
    exact ⟨hrun'.trans hrun, m - 1, by rw [hleft, hm]; rfl, by rw [hclocks]; omega⟩
  | other _ hclocks _ hleft hrun' => exact ⟨hrun' hrun, m, hleft.trans hm, by rw [hclocks]; rfl⟩

/-- The PWM clocks that elapse in `n` steps of a run, from its `a`-th state on. -/
def clocksFrom (r : Nat → State) (a n : Nat) : Nat := ((List.range n).map fun k => pwmClocksAt (r (a + k))).sum

theorem clocksFrom_succ (r : Nat → State) (a n : Nat) :
    clocksFrom r a (n + 1) = clocksFrom r a n + pwmClocksAt (r (a + n)) := by
  simp [clocksFrom, List.range_succ]

theorem run_pwmcnt {r : Nat → State} (hr : Run r) (a n : Nat) :
    (r (a + n)).pwmcnt = (r a).pwmcnt + BitVec.ofNat 8 (clocksFrom r a n) := by
  induction n with
  | zero => exact (BitVec.add_zero _).symm
  | succ n ih => rw [← Nat.add_assoc, step_pwmcnt (hr (a + n)), ih, clocksFrom_succ, BitVec.ofNat_add, BitVec.add_assoc]

/-- As long as no TICK comes, the clocks that have elapsed and those that are left make up the interval. -/
theorem run_inside_interval {r : Nat → State} (hr : Run r) {a m : Nat} (hrun : (r a).run = true)
    (hm : (r a).pwmLeft = some m) (n : Nat) (hno : ∀ k < n, ¬ tickHappens (r (a + k))) :
    (r (a + n)).run = true ∧ ∃ l, (r (a + n)).pwmLeft = some l ∧ l + clocksFrom r a n = m := by
  induction n with
  | zero => exact ⟨hrun, m, hm, rfl⟩
  | succ n ih =>
    obtain ⟨hrunn, l, hl, hsum⟩ := ih fun k hk => hno k (Nat.lt_succ_of_lt hk)
    obtain ⟨hrun', l', hl', hstep⟩ := step_inside_interval (hr (a + n)) (hno n (Nat.lt_succ_self n)) hrunn hl
    exact ⟨hrun', l', hl', by rw [clocksFrom_succ]; omega⟩

/-- From one TICK to the next, the second one's own step included, a whole interval of PWM clocks elapses. -/
theorem clocksFrom_tick_to_tick {r : Nat → State} (hr : Run r) {i n : Nat} (hi : tickHappens (r i))
    (hj : tickHappens (r (i + 1 + n))) (hno : ∀ k < n, ¬ tickHappens (r (i + 1 + k))) :
    clocksFrom r (i + 1) (n + 1) = pwmClocksPerTick Config.params := by
  obtain ⟨_, hleft, hrun⟩ := step_of_tickHappens (hr i) hi
  obtain ⟨_, l, hl, hsum⟩ := run_inside_interval hr hrun hleft n hno
  obtain ⟨hclocks, _, _⟩ := step_of_tickHappens (hr (i + 1 + n)) hj
  rw [clocksFrom_succ, hclocks, hl, Option.getD_some, Nat.add_comm, hsum]

/-- A tick interval is a whole number of PWM periods, so it leaves the phase (R109, D26). -/
theorem ofNat_pwmClocksPerTick (p : Config.Params) : BitVec.ofNat 8 (pwmClocksPerTick p) = 0 :=
  BitVec.eq_of_toNat_eq (by simp [pwmClocksPerTick])

/-- Settles O59: the clocks left in an interval count down to the next TICK, with which the rest elapse. -/
theorem tickIntervalHasItsPwmClocks : Obligations.TickIntervalHasItsPwmClocks := by
  refine ⟨fun s t h => step_pwmcnt h, fun r hr i j hij hi hj hno => ?_⟩
  obtain ⟨n, rfl⟩ := Nat.exists_eq_add_of_le hij
  have hsum := clocksFrom_tick_to_tick hr hi hj fun k hk => hno _ (by omega) (by omega)
  rw [show i.succ + n - i = n + 1 by omega]
  refine ⟨hsum, ?_⟩
  rw [Nat.add_assoc, run_pwmcnt hr (i + 1) (n + 1), hsum, ofNat_pwmClocksPerTick]
  exact BitVec.add_zero _

/-! Single steps (R37, R190, R194, R236). -/

theorem step_of_nextEvent_tick {s u : State} (he : nextEvent s = .tick u) (hr : u.run = true) :
    step s = .next (tickInterval u) := by
  simp [step, he, exec, execTick, hr, tickInterval]

/-- With no input and no command in progress, the block idles. -/
theorem nextEvent_of_exhausted {s : State} (htrace : s.trace = []) (hfgq : s.fgq = []) :
    nextEvent s = if s.run then .tick s else if s.waitctr ≠ 0 then .stuck .hungWait
      else if s.fault ≠ .noFault then .stuck .haltedByFault else .clock s := by
  simp [nextEvent, htrace, idleEvent, hfgq]

/-- Settles O9: each branch of the idle block. -/
theorem nothingLeftToIssue : Obligations.NothingLeftToIssue := by
  intro s htrace hfgq
  have he := nextEvent_of_exhausted htrace hfgq
  refine ⟨fun hr => ?_, fun hr hw hf => ?_, fun hr hw hf => ?_⟩
  · exact step_of_nextEvent_tick (he.trans (if_pos hr)) hr
  · simp [step, he, hr, hw, hf]
  · simp [step, he, hr, hw, hf]

theorem nextEvent_of_pwmClock {s : State} {rest : List TraceItem} (htrace : s.trace = .pwmClock :: rest) :
    nextEvent s = if s.tickDue then .tick s else .clock { s with trace := rest } := by
  simp [nextEvent, htrace, clockEvent]

/-- Settles O10: a PWM clock counts unless a TICK is due, which then comes first. -/
theorem pwmClockAdvancesTheCounterAlone : Obligations.PwmClockAdvancesTheCounterAlone := by
  intro s rest htrace
  have he := nextEvent_of_pwmClock htrace
  refine ⟨fun hnot => ?_, fun hr hleft => ?_⟩
  · have hdue : ¬ s.tickDue = true := by
      rw [tickDue_iff]
      rintro ⟨hr, hleft⟩
      rcases hnot with h | h
      · exact absurd (hr.symm.trans h) (by decide)
      · exact h hleft
    have hcount : s.pwmcnt + 1 = BitVec.ofNat 8 (s.pwmcnt.toNat + 1) := BitVec.eq_of_toNat_eq (by simp)
    simp only [step, he.trans (if_neg hdue), pwmClock, hcount]
  · exact step_of_nextEvent_tick (he.trans (if_pos ((tickDue_iff s).mpr ⟨hr, hleft⟩))) hr

/-! The launch state (R38, R220). -/

/-- Settles O52: the values of R38, read off the launch state. -/
theorem launchStateIsDarkAndStopped : Obligations.LaunchStateIsDarkAndStopped :=
  ⟨fun _ => rfl, fun i => Vector.getElem_replicate i.isLt, fun c => Vector.getElem_replicate c.isLt,
    rfl, rfl, rfl, rfl, rfl, rfl, rfl, rfl, rfl, rfl, rfl, rfl, rfl⟩

/-- Settles O53: no row, no brightness, no command and no interval at launch. -/
theorem launchStateMeetsTheInvariant : Obligations.LaunchStateMeetsTheInvariant where
  memory := Memory.wf_reset
  unmapped _ _ := rfl
  blanking := Nat.zero_le 4
  rows := by decide
  lit := .inl rfl
  dark _ := ⟨rfl, rfl, rfl, rfl, rfl⟩
  interval _ h := by cases h
  waiting := Nat.zero_le 510
  queue _ h := by cases h
  inProgress h := absurd rfl h
  holdLast _ h := by cases h
  uncut := rfl

/-! The pins (R28, R72). -/

theorem rowPins_activeLow_getLsbD (s : State) (r : Row) :
    (rowPins .activeLow s).getLsbD r.toNat = !s.rowOnLine r := by
  have hones : (0b1111#4).getLsbD r.toNat = true := by revert r; decide
  rw [rowPins, BitVec.getLsbD_xor, hones, Bool.xor_true, State.rowOnLine]

theorem rowPins_activeLow_of_rowen {s : State} {m : BitVec 4} (h : s.rowen = m) :
    rowPins .activeLow s = m ^^^ 0b1111#4 := h ▸ rfl

/-- Settles O58: active-low pins are the complement, bit by bit and on each of the five legal patterns. -/
theorem pinsFollowTheRowEnable : Obligations.PinsFollowTheRowEnable := fun s =>
  ⟨fun r => ⟨rfl, rowPins_activeLow_getLsbD s r⟩, rfl, rowPins_activeLow_of_rowen, rowPins_activeLow_of_rowen,
    rowPins_activeLow_of_rowen, rowPins_activeLow_of_rowen, rowPins_activeLow_of_rowen, fun _ => rfl⟩

end Sys2Proof.Proofs
end

section
/-!
Proofs of the family 20_memory: within 16 ticks an entry is displayed (R62, R227). The scan repeats after 16 ticks, so where it
stands is one number below 16 that every tick moves on by one.
-/

namespace Sys2Proof.Proofs

open Sys2Proof.Machine

/-- How many ticks the scan is past the one that loaded row 3: row `SC` is loaded in its last quarter, four ticks per row. -/
def scanPosition (s : State) : Nat := 4 * s.sc.toNat + (4 - max s.bc.toNat 1)

theorem scanPosition_lt (s : State) : scanPosition s < 16 := by
  have hsc := s.sc.isLt
  rw [scanPosition]
  omega

/-- The next tick loads row `r` just when the scan stands at the last of the row's four ticks (R103). -/
theorem scanPosition_eq_load_iff {s : State} (h : s.bc.toNat ≤ 4) (r : Row) :
    scanPosition s = 4 * r.toNat + 3 ↔ s.loadsNext = true ∧ s.sc = r := by
  rw [loadsNext_iff, ← BitVec.toNat_inj, scanPosition]
  omega

/-- `BC` stays within 0..4 (R39). -/
theorem tick_bc_le {s : State} (h : s.bc.toNat ≤ 4) : (tick s).bc.toNat ≤ 4 := by
  rw [tick_bc]
  split
  · decide
  · rw [decNonzero_toNat]; omega

/-- A load tick goes to the next row's first tick, a blank tick one further in its row (R103, R104). -/
theorem scanPosition_tick {s : State} (h : s.bc.toNat ≤ 4) : scanPosition (tick s) = (scanPosition s + 1) % 16 := by
  have hsc := s.sc.isLt
  rw [scanPosition, scanPosition, tick_bc, tick_sc]
  split
  · next hl =>
    have hbc := (loadsNext_iff s).mp hl
    rw [BitVec.toNat_add, show Config.blankReload.toNat = 4 from rfl, show (1 : Row).toNat = 1 from rfl]
    omega
  · next hl =>
    have hbc : ¬ s.bc.toNat ≤ 1 := mt (loadsNext_iff s).mpr hl
    rw [decNonzero_toNat]
    omega

theorem ticks_succ (n : Nat) (s : State) : ticks (n + 1) s = tick (ticks n s) := ticks_add n 1 s

theorem ticks_bc_le {s : State} (h : s.bc.toNat ≤ 4) (n : Nat) : (ticks n s).bc.toNat ≤ 4 := by
  induction n with
  | zero => exact h
  | succ n ih => rw [ticks_succ]; exact tick_bc_le ih

theorem scanPosition_ticks {s : State} (h : s.bc.toNat ≤ 4) (n : Nat) :
    scanPosition (ticks n s) = (scanPosition s + n) % 16 := by
  induction n with
  | zero => exact (Nat.mod_eq_of_lt (scanPosition_lt s)).symm
  | succ n ih => rw [ticks_succ, scanPosition_tick (ticks_bc_le h n)]; omega

/-- Which of the ticks to come load row `r`. -/
theorem ticks_load_iff {s : State} (h : s.bc.toNat ≤ 4) (n : Nat) (r : Row) :
    (ticks n s).loadsNext = true ∧ (ticks n s).sc = r ↔ (scanPosition s + n) % 16 = 4 * r.toNat + 3 := by
  rw [← scanPosition_eq_load_iff (ticks_bc_le h n), scanPosition_ticks h n]

/-- A Light Buffer index is the address of its column in its row (R22, R51). -/
theorem columnAddr_rowOf_columnOf (k : BufferIndex) : columnAddr (rowOf k) (columnOf k) = k := by
  have hk := k.isLt
  ext
  simp only [columnAddr, rowOf, columnOf, BitVec.toNat_ofNat]
  omega

theorem onehot_injective : Function.Injective onehot := by decide

/-- A load tick that finds the cursor at the row of entry `k` displays it (R103). -/
theorem tick_displays {s : State} {k : BufferIndex} (hl : s.loadsNext = true) (hsc : s.sc = rowOf k) :
    (tick s).rowen = onehot (rowOf k) ∧ (tick s).cmp[(columnOf k).val] = s.readLB k := by
  refine ⟨by rw [tick_rowen, if_pos hl, hsc], ?_⟩
  simp only [tick_cmp, if_pos hl, Vector.getElem_ofFn, hsc]
  exact congrArg s.readLB (columnAddr_rowOf_columnOf k)

/-- Settles O38: one of any 16 ticks in a row loads the entry's row, and just after a row's load tick it is the last of them. -/
theorem entryIsDisplayedWithinSixteenTicks : Obligations.EntryIsDisplayedWithinSixteenTicks := by
  intro s k hbc
  have hrow := (rowOf k).isLt
  refine ⟨?_, fun hbc4 hsc n hn hl hlit => ?_⟩
  · have hpos := scanPosition_lt s
    obtain ⟨hl, hsc⟩ := (ticks_load_iff hbc ((4 * (rowOf k).toNat + 3 + (16 - scanPosition s)) % 16) (rowOf k)).mpr (by omega)
    obtain ⟨hrowen, hcmp⟩ := tick_displays hl hsc
    rw [← ticks_succ] at hrowen hcmp
    exact ⟨_, Nat.mod_lt _ (by decide), hl, hrowen,
      hcmp.trans (State.readLB_congr (ticks_sameForeground _ s).lb k)⟩
  · rw [ticks_succ, tick_rowen, if_pos hl] at hlit
    have hpos := (ticks_load_iff hbc n (rowOf k)).mp ⟨hl, onehot_injective hlit⟩
    rw [scanPosition, hbc4, hsc, BitVec.toNat_add, show (1 : Row).toNat = 1 from rfl] at hpos
    omega

end Sys2Proof.Proofs
end

section
/-!
Proofs of the family 20_memory: the foreground's results do not depend on the ticks between its micro-operations (R56, R197),
nor on where a command is interrupted. A micro-operation reads nothing outside `foregroundView`, and a TICK changes nothing in it.
-/

namespace Sys2Proof.Proofs

open Sys2Proof.Machine Sys2Proof.Safety

/-! The foreground's view (R200). -/

theorem foregroundView_ticks (n : Nat) (s : State) : foregroundView (ticks n s) = foregroundView s := by
  have f := ticks_sameForeground n s
  simp only [foregroundView, f.lb, f.fs, f.run, f.rdata, f.fault, f.fgq]

/-- Which LED f6 seeds is read off the Fade State Table alone (R152). -/
theorem seededLed_congr (f : FadeArgs) {s t : State} (h : s.fs = t.fs) : seededLed f s = seededLed f t := by
  simp only [seededLed, h]

/-- What a micro-operation does to the foreground's elements is determined by them. -/
theorem foregroundView_perform_congr (p : Config.Params) (op : MicroOp) {s t : State}
    (h : foregroundView s = foregroundView t) : foregroundView (perform p op s) = foregroundView (perform p op t) := by
  have hseed : ∀ f, seededLed f s = seededLed f t := fun f => seededLed_congr f (congrArg ForegroundView.fs h)
  cases s
  cases t
  simp only [foregroundView, ForegroundView.mk.injEq] at h
  obtain ⟨rfl, rfl, rfl, rfl, rfl, rfl⟩ := h
  cases op with
  | fadeSelect i => simp only [perform]; split <;> rfl
  | fadeF2 f v => simp only [perform]; split <;> rfl
  | fadeF5 f w => simp only [perform]; split <;> rfl
  | fadeF6 f => simp only [perform, hseed]; split <;> rfl
  | _ => rfl

theorem foregroundView_setQueue_congr (q : List MicroOp) {s t : State} (h : foregroundView s = foregroundView t) :
    foregroundView (s.setQueue q) = foregroundView (t.setQueue q) :=
  congrArg (fun v => { v with fgq := q }) h

theorem foregroundView_foregroundStep_congr (p : Config.Params) {s t : State} (h : foregroundView s = foregroundView t) :
    foregroundView (foregroundStep p s) = foregroundView (foregroundStep p t) := by
  have hq : s.fgq = t.fgq := congrArg ForegroundView.fgq h
  unfold foregroundStep
  rw [← hq]
  cases s.fgq with
  | nil => exact h
  | cons op rest => exact foregroundView_perform_congr p op (foregroundView_setQueue_congr rest h)

theorem foregroundView_drain_congr (p : Config.Params) (n : Nat) {s t : State} (h : foregroundView s = foregroundView t) :
    foregroundView (drain p n s) = foregroundView (drain p n t) := by
  induction n generalizing s t with
  | zero => exact h
  | succ n ih => rw [drain_succ, drain_succ]; exact ih (foregroundView_foregroundStep_congr p h)

theorem foregroundView_drain_ticks (p : Config.Params) (n k : Nat) (s : State) :
    foregroundView (drain p n (ticks k s)) = foregroundView (drain p n s) :=
  foregroundView_drain_congr p n (foregroundView_ticks k s)

/-- Settles O50: each of the three groups of ticks leaves what the foreground's elements end as. -/
theorem foregroundResultsDoNotDependOnTicks : Obligations.ForegroundResultsDoNotDependOnTicks := by
  intro p s m n a b c
  calc foregroundView (ticks c (drain p n (ticks b (drain p m (ticks a s)))))
      = foregroundView (drain p n (ticks b (drain p m (ticks a s)))) := foregroundView_ticks c _
    _ = foregroundView (drain p n (drain p m (ticks a s))) := foregroundView_drain_ticks p n b _
    _ = foregroundView (drain p n (drain p m s)) := foregroundView_drain_congr p n (foregroundView_drain_ticks p m a s)
    _ = foregroundView (drain p (m + n) s) := by rw [drain_add]

/-! Interruption and resumption (R55, R197). -/

/-- No micro-operation reads the interruption point. -/
theorem perform_uncut (p : Config.Params) (op : MicroOp) (s : State) : perform p op s.uncut = (perform p op s).uncut := by
  cases op with
  | fadeSelect i => simp only [perform, State.uncut_fs]; cases fadeArgs i s.fs[i.val] <;> rfl
  | fadeF2 f v => simp only [perform]; split <;> rfl
  | fadeF5 f w => simp only [perform]; split <;> rfl
  | fadeF6 f => simp only [perform, seededLed_congr f (State.uncut_fs s)]; cases seededLed f s <;> rfl
  | _ => rfl

theorem drain_uncut (p : Config.Params) (n : Nat) (s : State) : drain p n s.uncut = (drain p n s).uncut := by
  induction n generalizing s with
  | zero => rfl
  | succ n ih =>
    cases hq : s.fgq with
    | nil => rw [drain_nil p _ hq, drain_nil p _ (s := s.uncut) hq]
    | cons op rest =>
      rw [drain_cons p n hq, drain_cons p n (s := s.uncut) hq, ← ih, ← perform_uncut]
      rfl

/-- Once the queue is empty, draining on changes nothing. -/
theorem drain_of_le_of_empty (p : Config.Params) {m n : Nat} {s : State} (hle : m ≤ n) (h : (drain p m s).fgq = []) :
    drain p n s = drain p m s := by
  obtain ⟨l, rfl⟩ := Nat.exists_eq_add_of_le hle
  rw [drain_add, drain_nil p l h]

/-- A completed command has one end, however many micro-operations it was given. -/
theorem drain_eq_of_empty (p : Config.Params) {m n : Nat} {s : State} (hm : (drain p m s).fgq = [])
    (hn : (drain p n s).fgq = []) : drain p m s = drain p n s := by
  rcases Nat.le_total m n with hle | hle
  · exact (drain_of_le_of_empty p hle hm).symm
  · exact drain_of_le_of_empty p hle hn

/-- An interrupted foreground that goes on to its end comes to the end of the uninterrupted one. -/
theorem runForeground_runForeground_cut (p : Config.Params) {s : State} {n : Nat} (h : s.preempt = some n) :
    runForeground p (runForeground p s) = runForeground p s.uncut := by
  have hcut : runForeground p s = drain p n s.uncut := (runForeground_cut p h).trans (drain_uncut p n s).symm
  rw [runForeground_whole p (runForeground_preempt p s), runForeground_whole p (s := s.uncut) rfl, hcut, ← drain_add]
  refine congrArg State.uncut (drain_eq_of_empty p ?_ (drain_empties p _ (Nat.le_refl _)))
  rw [drain_add]
  exact drain_empties p _ (Nat.le_refl _)

theorem runForeground_of_empty (p : Config.Params) {s : State} (h : s.fgq = []) : runForeground p s = s.uncut := by
  unfold runForeground
  split <;> rw [drain_nil p _ h]

/-- Ticks while the foreground is interrupted leave what its elements end as. -/
theorem foregroundView_runForeground_ticks (p : Config.Params) (k : Nat) {s : State} (h : s.preempt = none) :
    foregroundView (runForeground p (ticks k s)) = foregroundView (runForeground p s) := by
  have f := ticks_sameForeground k s
  rw [runForeground_whole p (f.preempt.trans h), runForeground_whole p h, f.fgq]
  exact foregroundView_drain_ticks p _ k s

/-- An accepted command with an illegal index faults (R82, R191). -/
theorem exec_illegal_index {c : Instr} {s : State} {idx : Nibble} (hidx : c.idx? = some idx) (hled : ledOfIdx idx = none)
    (ha : s.accepting = true) : exec c s = .next (raiseFault .indexFault s) := by
  rcases exec_issues (c := c) s (by rintro rfl; cases hidx) (by rintro rfl; cases hidx) with ⟨hnone, _⟩ | ⟨_, hx, he⟩
  · cases hnone.symm.trans hidx
  · obtain rfl := Option.some.inj (hx.symm.trans hidx)
    rw [he, issueIndexed_fault _ _ ha hled]

/-- A command's index is illegal, or there is a LED that it names if there is an index at all (R82). -/
theorem illegal_index_or_led (c : Instr) :
    (∃ idx, c.idx? = some idx ∧ ledOfIdx idx = none) ∨ ∃ i, ∀ idx, c.idx? = some idx → ledOfIdx idx = some i := by
  cases hx : c.idx? with
  | none => exact .inr ⟨0, nofun⟩
  | some idx =>
    cases hl : ledOfIdx idx with
    | none => exact .inl ⟨idx, rfl, hl⟩
    | some i => exact .inr ⟨i, fun _ e => Option.some.inj e ▸ hl⟩

theorem uncut_setQueue_preempt {s : State} (q : List MicroOp) (n : Nat) (h : s.preempt = none) :
    (({ s with preempt := some n } : State).setQueue q).uncut = s.setQueue q :=
  congrArg (·.setQueue q) (State.uncut_of_none h)

/-- An accepted command cut after `n` micro-operations comes, resumed, to the end of the whole command. -/
theorem exec_cut_then_runForeground {c : Instr} {s : State} (n : Nat) (hready : Ready s) (hc : c ≠ .tick)
    (hs : c = .start → s.run = false) :
    ∃ t, exec c { s with preempt := some n } = .next t ∧ t.preempt = none ∧
      exec c s = .next (runForeground Config.params t) := by
  have ha : s.accepting = true := (accepting_iff s).mpr ⟨hready.noFault, hready.queue, hready.wait⟩
  rcases illegal_index_or_led c with ⟨idx, hidx, hled⟩ | ⟨i, hled⟩
  · refine ⟨_, exec_illegal_index hidx hled ha, rfl, ?_⟩
    rw [exec_illegal_index hidx hled ha]
    exact congrArg Host.Outcome.next
      (runForeground_of_empty _ (s := raiseFault .indexFault { s with preempt := some n }) hready.queue).symm
  · refine ⟨_, exec_accepted hc hs ha hled, runForeground_preempt _ _, ?_⟩
    rw [exec_accepted hc hs ha hled, runForeground_runForeground_cut _ rfl, uncut_setQueue_preempt _ n hready.whole]

/-- Settles O55: the resumed command ends as the whole one, and ticks before it resumes leave the foreground's elements. -/
theorem interruptedThenResumedIsTheWholeCommand : Obligations.InterruptedThenResumedIsTheWholeCommand := by
  intro s instr n k hready hinstr hstart
  obtain ⟨t, hcut, hpreempt, hwhole⟩ := exec_cut_then_runForeground n hready hinstr hstart
  exact ⟨t, _, hcut, hwhole, rfl, foregroundView_runForeground_ticks Config.params k hpreempt⟩

end Sys2Proof.Proofs
end

section
/-!
Proofs of the family 30_encoding: the decoder against the encoder and the opcode map (R74, R80, R81). Each format is said once
in both directions: what it makes of a word packed from fields, and which words it accepts.
-/

namespace Sys2Proof.Proofs

open Sys2Proof.Laws

/-! What each format makes of a word packed from fields, with 0 where it must be (R74). -/

theorem decodeZ_packWord (op : Nibble) (i : Instr) : decodeZ (packWord op 0 0 0 0) i = .ok i := by
  simp [decodeZ, packWord_idx, packWord_a, packWord_b, packWord_c]

theorem decodeI_packWord (op idx : Nibble) (i : Nibble → Instr) : decodeI (packWord op idx 0 0 0) i = .ok (i idx) := by
  simp [decodeI, packWord_idx, packWord_a, packWord_b, packWord_c]

theorem decodeIV_packWord (op idx : Nibble) (v : Byte) (i : Nibble → Byte → Instr) :
    decodeIV (packWord op idx v 0 0) i = .ok (i idx v) := by
  simp [decodeIV, packWord_idx, packWord_a, packWord_b, packWord_c]

theorem decodeIRGB_packWord (op idx : Nibble) (r g b : Byte) (i : Nibble → Byte → Byte → Byte → Instr) :
    decodeIRGB (packWord op idx r g b) i = .ok (i idx r g b) := by
  simp [decodeIRGB, packWord_idx, packWord_a, packWord_b, packWord_c]

theorem decodeM_packWord (op : Nibble) (v : Byte) (i : Byte → Instr) :
    decodeM (packWord op 0 v 0 0) i = .ok (i v) := by
  simp [decodeM, packWord_idx, packWord_a, packWord_b, packWord_c]

/-- Settles O1: the packed opcode selects the instruction's format, which reads its operands back. -/
theorem encodedInstructionDecodesToItself : Obligations.EncodedInstructionDecodesToItself := by
  intro i
  cases i <;> simp only [encode, decode, packWord_op]
  case start => exact decodeZ_packWord _ _
  case setLed idx r g b => exact decodeIRGB_packWord _ idx r g b _
  case setRed idx v => exact decodeIV_packWord _ idx v _
  case setGreen idx v => exact decodeIV_packWord _ idx v _
  case setBlue idx v => exact decodeIV_packWord _ idx v _
  case getRed idx => exact decodeI_packWord _ idx _
  case getGreen idx => exact decodeI_packWord _ idx _
  case getBlue idx => exact decodeI_packWord _ idx _
  case wait ms => exact decodeM_packWord _ ms _
  case finit => exact decodeZ_packWord _ _
  case fstep idx => exact decodeI_packWord _ idx _
  case tick => exact decodeZ_packWord _ _

/-! Which words each format accepts: those packed from its fields (R74, R81). -/

/-- A word is packed from whatever its fields are. -/
theorem packWord_eq_of_fields {w : CommandWord} {op idx : Nibble} {a b c : Byte} (hop : CommandWord.op w = op)
    (hidx : CommandWord.idx w = idx) (ha : CommandWord.a w = a) (hb : CommandWord.b w = b) (hc : CommandWord.c w = c) :
    packWord op idx a b c = w := by
  rw [← hop, ← hidx, ← ha, ← hb, ← hc, packWord_fields]

/-- The opcode as `decode` matches on it, a number. -/
theorem op_eq_ofNat {w : CommandWord} {n : Nat} (h : (CommandWord.op w).toNat = n) :
    CommandWord.op w = BitVec.ofNat 4 n := by
  rw [← h, BitVec.ofNat_toNat, BitVec.setWidth_eq]

section
variable {w : CommandWord} {n : Nat} {j : Instr}

theorem decodeZ_eq_ok {i : Instr} (hop : (CommandWord.op w).toNat = n) (h : decodeZ w i = .ok j) :
    j = i ∧ packWord (BitVec.ofNat 4 n) 0 0 0 0 = w := by
  unfold decodeZ at h
  split at h
  · next hz =>
    obtain ⟨hidx, ha, hb, hc⟩ := hz
    exact ⟨(Except.ok.inj h).symm, packWord_eq_of_fields (op_eq_ofNat hop) hidx ha hb hc⟩
  · cases h

theorem decodeI_eq_ok {i : Nibble → Instr} (hop : (CommandWord.op w).toNat = n) (h : decodeI w i = .ok j) :
    ∃ idx, j = i idx ∧ packWord (BitVec.ofNat 4 n) idx 0 0 0 = w := by
  unfold decodeI at h
  split at h
  · next hz =>
    obtain ⟨ha, hb, hc⟩ := hz
    exact ⟨_, (Except.ok.inj h).symm, packWord_eq_of_fields (op_eq_ofNat hop) rfl ha hb hc⟩
  · cases h

theorem decodeIV_eq_ok {i : Nibble → Byte → Instr} (hop : (CommandWord.op w).toNat = n) (h : decodeIV w i = .ok j) :
    ∃ idx v, j = i idx v ∧ packWord (BitVec.ofNat 4 n) idx v 0 0 = w := by
  unfold decodeIV at h
  split at h
  · next hz =>
    obtain ⟨hb, hc⟩ := hz
    exact ⟨_, _, (Except.ok.inj h).symm, packWord_eq_of_fields (op_eq_ofNat hop) rfl rfl hb hc⟩
  · cases h

theorem decodeIRGB_eq_ok {i : Nibble → Byte → Byte → Byte → Instr} (hop : (CommandWord.op w).toNat = n)
    (h : decodeIRGB w i = .ok j) : ∃ idx r g b, j = i idx r g b ∧ packWord (BitVec.ofNat 4 n) idx r g b = w :=
  ⟨_, _, _, _, (Except.ok.inj h).symm, packWord_eq_of_fields (op_eq_ofNat hop) rfl rfl rfl rfl⟩

theorem decodeM_eq_ok {i : Byte → Instr} (hop : (CommandWord.op w).toNat = n) (h : decodeM w i = .ok j) :
    ∃ v, j = i v ∧ packWord (BitVec.ofNat 4 n) 0 v 0 0 = w := by
  unfold decodeM at h
  split at h
  · next hz =>
    obtain ⟨hidx, hb, hc⟩ := hz
    exact ⟨_, (Except.ok.inj h).symm, packWord_eq_of_fields (op_eq_ofNat hop) hidx rfl hb hc⟩
  · cases h

end

/-- Settles O2: whichever format the opcode selects, the word is packed from the operands and zeros it has read. -/
theorem decodedWordIsTheInstructionsWord : Obligations.DecodedWordIsTheInstructionsWord := by
  intro w i h
  unfold decode at h
  split at h
  case h_2 hop => obtain ⟨idx, r, g, b, rfl, hw⟩ := decodeIRGB_eq_ok hop h; exact hw
  case h_3 hop | h_4 hop | h_5 hop => obtain ⟨idx, v, rfl, hw⟩ := decodeIV_eq_ok hop h; exact hw
  case h_6 hop | h_7 hop | h_8 hop | h_11 hop => obtain ⟨idx, rfl, hw⟩ := decodeI_eq_ok hop h; exact hw
  case h_9 hop => obtain ⟨ms, rfl, hw⟩ := decodeM_eq_ok hop h; exact hw
  case h_1 hop | h_10 hop | h_12 hop => obtain ⟨rfl, hw⟩ := decodeZ_eq_ok hop h; exact hw
  case h_13 => cases h

/-! The rows of the opcode map (R80). -/

/-- An instruction's word is selected by its row of the map. -/
theorem tableRow_statement (i : Instr) : TableRow.Statement i := by
  cases i with
  | start => exact TableRow.start
  | setLed idx r g b => exact TableRow.setLed idx r g b
  | setRed idx v => exact TableRow.setRed idx v
  | setGreen idx v => exact TableRow.setGreen idx v
  | setBlue idx v => exact TableRow.setBlue idx v
  | getRed idx => exact TableRow.getRed idx
  | getGreen idx => exact TableRow.getGreen idx
  | getBlue idx => exact TableRow.getBlue idx
  | wait ms => exact TableRow.wait ms
  | finit => exact TableRow.finit
  | fstep idx => exact TableRow.fstep idx
  | tick => exact TableRow.tick

/-- A word that decodes is selected by the row of what it decodes to. -/
theorem row_selects_of_decode {w : CommandWord} {i : Instr} (h : decode w = .ok i) :
    i.row ∈ opcodeRows ∧ i.row.selects w = true :=
  decodedWordIsTheInstructionsWord w i h ▸ tableRow_statement i

/-- A row fixes a field of the words it selects when its mask holds the whole field. -/
theorem extractLsb'_eq_of_selects {row : OpcodeRow} {w : CommandWord} (h : row.selects w = true) (start len : Nat)
    (hmask : row.mask.extractLsb' start len = BitVec.allOnes len) :
    w.extractLsb' start len = row.pattern.extractLsb' start len := by
  have hw : w &&& row.mask = row.pattern := beq_iff_eq.mp h
  rw [← hw, BitVec.extractLsb'_and, hmask, BitVec.and_allOnes]

/-- A word that a row selects has the row's opcode and 0 where the row's format says so: it is an instruction's word. -/
theorem exists_encode_eq_of_selects {row : OpcodeRow} {w : CommandWord} (hrow : row ∈ opcodeRows)
    (h : row.selects w = true) : ∃ i, encode i = w := by
  have field := extractLsb'_eq_of_selects h
  simp only [opcodeRows, List.mem_cons, List.not_mem_nil, or_false] at hrow
  rcases hrow with rfl | rfl | rfl | rfl | rfl | rfl | rfl | rfl | rfl | rfl | rfl | rfl
  · exact ⟨.start, packWord_eq_of_fields (field 28 4 rfl) (field 24 4 rfl) (field 16 8 rfl) (field 8 8 rfl) (field 0 8 rfl)⟩
  · exact ⟨.setLed _ _ _ _, packWord_eq_of_fields (field 28 4 rfl) rfl rfl rfl rfl⟩
  · exact ⟨.setRed _ _, packWord_eq_of_fields (field 28 4 rfl) rfl rfl (field 8 8 rfl) (field 0 8 rfl)⟩
  · exact ⟨.setGreen _ _, packWord_eq_of_fields (field 28 4 rfl) rfl rfl (field 8 8 rfl) (field 0 8 rfl)⟩
  · exact ⟨.setBlue _ _, packWord_eq_of_fields (field 28 4 rfl) rfl rfl (field 8 8 rfl) (field 0 8 rfl)⟩
  · exact ⟨.getRed _, packWord_eq_of_fields (field 28 4 rfl) rfl (field 16 8 rfl) (field 8 8 rfl) (field 0 8 rfl)⟩
  · exact ⟨.getGreen _, packWord_eq_of_fields (field 28 4 rfl) rfl (field 16 8 rfl) (field 8 8 rfl) (field 0 8 rfl)⟩
  · exact ⟨.getBlue _, packWord_eq_of_fields (field 28 4 rfl) rfl (field 16 8 rfl) (field 8 8 rfl) (field 0 8 rfl)⟩
  · exact ⟨.wait _, packWord_eq_of_fields (field 28 4 rfl) (field 24 4 rfl) rfl (field 8 8 rfl) (field 0 8 rfl)⟩
  · exact ⟨.finit, packWord_eq_of_fields (field 28 4 rfl) (field 24 4 rfl) (field 16 8 rfl) (field 8 8 rfl) (field 0 8 rfl)⟩
  · exact ⟨.fstep _, packWord_eq_of_fields (field 28 4 rfl) rfl (field 16 8 rfl) (field 8 8 rfl) (field 0 8 rfl)⟩
  · exact ⟨.tick, packWord_eq_of_fields (field 28 4 rfl) (field 24 4 rfl) (field 16 8 rfl) (field 8 8 rfl) (field 0 8 rfl)⟩

/-- Every row's mask holds the whole opcode. -/
theorem op_eq_of_selects {row : OpcodeRow} {w : CommandWord} (hrow : row ∈ opcodeRows) (h : row.selects w = true) :
    CommandWord.op w = CommandWord.op row.pattern := by
  have hmask : ∀ r ∈ opcodeRows, r.mask.extractLsb' 28 4 = BitVec.allOnes 4 := by decide
  exact extractLsb'_eq_of_selects h 28 4 (hmask row hrow)

/-- No two rows have the same opcode. -/
theorem row_eq_of_op_eq : ∀ row ∈ opcodeRows, ∀ other ∈ opcodeRows,
    CommandWord.op row.pattern = CommandWord.op other.pattern → row = other := by decide

/-- Settles O3: the words the rows select are those of the instructions, and the opcode tells the rows apart. -/
theorem decoderAcceptsExactlyTheOpcodeMap : Obligations.DecoderAcceptsExactlyTheOpcodeMap := by
  intro w
  refine ⟨⟨?_, ?_⟩, fun i h => (row_selects_of_decode h).2, fun row hrow other hother h h' => ?_⟩
  · rintro ⟨i, h⟩
    exact ⟨i.row, row_selects_of_decode h⟩
  · rintro ⟨row, hrow, h⟩
    obtain ⟨i, rfl⟩ := exists_encode_eq_of_selects hrow h
    exact ⟨i, encodedInstructionDecodesToItself i⟩
  · exact row_eq_of_op_eq row hrow other hother ((op_eq_of_selects hrow h).symm.trans (op_eq_of_selects hother h'))

/-- Settles O4: the decoder evaluated on fixed words. -/
theorem workedEncodingsDecode : Obligations.WorkedEncodingsDecode :=
  ⟨rfl, rfl, rfl, rfl, rfl, rfl, rfl, rfl, rfl, rfl, rfl, rfl⟩

end Sys2Proof.Proofs
end

section
/-!
Proofs of the family 30_encoding: the word at the command port. A word that selects a command runs it, any other faults (R73,
R81, R86, R192); a fault comes from nowhere else; and an interrupted command goes on where it stopped (R197).
-/

namespace Sys2Proof.Proofs

open Sys2Proof.Machine Sys2Proof.Safety

/-! A word at the port while no command is in progress and no WAIT holds (R73). -/

section
variable {s : State} {w : CommandWord} {cut : Option Nat} {rest : List TraceItem}

theorem nextEvent_of_decodePort_ok {i : Instr} (htrace : s.trace = .command w cut :: rest) (hfgq : s.fgq = [])
    (hwait : s.waitctr = 0) (h : decodePort w = .ok i) : nextEvent s = .instr i (afterFetch s rest cut) := by
  simp [nextEvent, htrace, portEvent, hfgq, hwait, h, afterFetch]

theorem nextEvent_of_decodePort_error {e : DecodeError} (htrace : s.trace = .command w cut :: rest) (hfgq : s.fgq = [])
    (hwait : s.waitctr = 0) (h : decodePort w = .error e) :
    nextEvent s = .move (raiseFault .reservedEncoding { s with trace := rest }) := by
  simp [nextEvent, htrace, portEvent, hfgq, hwait, h]

/-- A command at the port is executed with its word taken off the trace and its interruption point noted. -/
theorem step_of_command {i : Instr} (htrace : s.trace = .command w cut :: rest) (hfgq : s.fgq = [])
    (hwait : s.waitctr = 0) (hdecode : decode w = .ok i) (hi : i ≠ .tick) :
    step s = exec i (afterFetch s rest cut) := by
  rw [step, nextEvent_of_decodePort_ok htrace hfgq hwait ((decodePort_eq_ok_iff w i).mpr ⟨hdecode, hi⟩)]

end

/-- TICK's code on the port is reserved like a word that selects nothing (R86). -/
theorem decodePort_error_of_no_command {w : CommandWord} (h : (∃ e, decode w = .error e) ∨ decode w = .ok .tick) :
    ∃ e, decodePort w = .error e := by
  rcases h with ⟨e, h⟩ | h <;> exact ⟨_, by rw [decodePort, h]⟩

theorem step_of_tick {s : State} {rest : List TraceItem} (htrace : s.trace = .tick :: rest) :
    step s = exec .tick (endInterval { s with trace := rest }) := by
  simp [step, nextEvent, htrace]

/-! A word placed by `withFetchWord`. -/

/-- A table word of 32 bits is the command word itself, stored and read back (R53). -/
theorem decode_of_decodeTableWord {w : Nat} {i : Instr} (h : decodeTableWord 32 w = some i) :
    decode (BitVec.ofNat 32 (w % 2 ^ 32)) = .ok i := by
  have hword := wordOfBytes_bytesOfWord (BitVec.ofNat 32 (w % 2 ^ 32)) []
  rw [List.append_nil] at hword
  unfold decodeTableWord decodeBytes at h
  rw [if_pos (Nat.mod_lt _ (by decide)), hword] at h
  simp only at h
  cases hd : decode (BitVec.ofNat 32 (w % 2 ^ 32)) with
  | ok j => rw [hd] at h; exact congrArg Except.ok (Option.some.inj h)
  | error e => rw [hd] at h; cases h

theorem placeWord_of_tick {w : CommandWord} (s : State) (h : decode w = .ok .tick) :
    placeWord s w = { s with trace := .tick :: s.trace, run := true } := by
  simp [placeWord, TraceItem.ofWord, h]

theorem placeWord_of_command {w : CommandWord} {i : Instr} (s : State) (h : decode w = .ok i) (hi : i ≠ .tick) :
    placeWord s w = { s with trace := .command w none :: s.trace, fgq := [], waitctr := 0 } := by
  cases i with
  | tick => exact absurd rfl hi
  | _ => simp [placeWord, TraceItem.ofWord, h]

/-- Settles O5: the step's branches for a command, a tick, and a word of either kind placed first. -/
theorem stepRunsTheDecodedInstruction : Obligations.StepRunsTheDecodedInstruction := by
  refine ⟨fun s w cut rest i htrace hfgq hwait hdecode hi => step_of_command htrace hfgq hwait hdecode hi,
    fun s rest htrace => step_of_tick htrace, fun s w i _ h => ?_⟩
  have hdecode := decode_of_decodeTableWord h
  by_cases hi : i = .tick
  · subst hi
    rw [State.withFetchWord, placeWord_of_tick s hdecode, if_pos rfl]
    exact step_of_tick rfl
  · rw [State.withFetchWord, placeWord_of_command s hdecode hi, if_neg hi]
    exact step_of_command rfl rfl rfl hdecode hi

/-- Settles O6: the port rejects the word, and `raise` records the code alone. -/
theorem reservedWordFaultsAndChangesNothingElse : Obligations.ReservedWordFaultsAndChangesNothingElse := by
  intro s w cut rest htrace hfgq hwait h
  obtain ⟨e, he⟩ := decodePort_error_of_no_command h
  rw [step, nextEvent_of_decodePort_error htrace hfgq hwait he]
  rfl

/-! An interrupted command (R197). -/

/-- A command in progress is completed before the port is looked at (R73, R197). -/
theorem nextEvent_of_inProgress {s : State} (hfgq : s.fgq ≠ [])
    (htrace : s.trace = [] ∨ ∃ w cut rest, s.trace = .command w cut :: rest) :
    nextEvent s = .move (runForeground Config.params s.uncut) := by
  rcases htrace with htrace | ⟨w, cut, rest, htrace⟩
  · simp [nextEvent, htrace, idleEvent, hfgq]
  · simp [nextEvent, htrace, portEvent, hfgq]

theorem drain_preempt_eq_none (p : Config.Params) (n : Nat) {s : State} (h : s.preempt = none) :
    (drain p n s).preempt = none :=
  drain_induct (P := fun t => t.preempt = none) p (fun op rest t _ ht => (perform_preempt p op (t.setQueue rest)).trans ht) n h

/-- Settles O8: the step's two branches that run the foreground, and what draining a queue does. -/
theorem interruptedCommandIsCompleted : Obligations.InterruptedCommandIsCompleted := by
  refine ⟨fun s hfgq htrace => ?_, fun s cut rest htrace => ?_, fun s hp => ?_, fun s n hp => runForeground_cut _ hp,
    fun s n op rest hq => drain_cons _ n hq, fun s n hq => drain_nil _ n hq⟩
  · rw [step, nextEvent_of_inProgress hfgq htrace]
  · simp [step, nextEvent, htrace]
  · have hwhole := (runForeground_whole Config.params hp).trans
      (State.uncut_of_none (drain_preempt_eq_none _ _ hp))
    exact ⟨queueWork s.fgq, hwhole, drain_empties _ _ (Nat.le_refl _)⟩

/-! Where a fault comes from (R82, R190, R193). -/

/-- `raise F` changes `FAULT` only by recording `F` where there was none (R190). -/
theorem raiseFault_fault_of_changed {f : FaultCode} {s : State} (h : (raiseFault f s).fault ≠ s.fault) :
    (raiseFault f s).fault = f := by
  by_cases hs : s.fault = .noFault
  · exact if_pos hs
  · exact absurd (raiseFault_fault_of_recorded f hs) h

/-- The tick event records no fault (R193). -/
theorem exec_tick_endInterval_fault {u t : State} (h : exec .tick (endInterval u) = .next t) : t.fault = u.fault := by
  rcases exec_tick_endInterval_cases h with ⟨_, rfl⟩ | ⟨_, rfl⟩
  · exact tickInterval_fault u
  · rfl

/-- An index that names no LED is above 12 (R82). -/
theorem lt_toNat_of_ledOfIdx_eq_none {idx : Nibble} (h : ledOfIdx idx = none) : 12 < idx.toNat := by
  by_contra hle
  rw [ledOfIdx_of_lt (by omega)] at h
  cases h

/-- A command that records a fault has an illegal index and changes nothing else (R82, R191). -/
theorem exec_command_fault {c : Instr} {s t : State} (hc : c ≠ .tick) (h : exec c s = .next t) (hf : t.fault ≠ s.fault) :
    ∃ idx, c.idx? = some idx ∧ 12 < idx.toNat ∧ t = raiseFault .indexFault s := by
  rcases exec_command_cases hc h with ⟨_, rfl⟩ | ⟨_, ⟨idx, hidx, hled⟩, ht⟩ | ⟨i, _, _, rfl⟩
  · exact absurd rfl hf
  · exact ⟨idx, hidx, lt_toNat_of_ledOfIdx_eq_none hled, ht⟩
  · exact absurd (runForeground_sameDriver _ _).fault hf

/-- Settles O45: of all a step can do, only decoding a word at the port records a fault. -/
theorem faultsComeOnlyFromDecoding : Obligations.FaultsComeOnlyFromDecoding := by
  intro s t hstep hf
  cases step_cases hstep with
  | command w cut rest c htrace _ _ hdecode hexec =>
    have hc : c ≠ .tick := ((decodePort_eq_ok_iff w c).mp hdecode).2
    obtain ⟨idx, hidx, hlt, rfl⟩ := exec_command_fault hc hexec hf
    exact ⟨w, cut, rest, htrace, rfl, .inr ⟨c, idx, hdecode, hidx, hlt, raiseFault_fault_of_changed hf⟩⟩
  | reserved w cut rest e htrace _ _ hdecode hnext =>
    subst hnext
    exact ⟨w, cut, rest, htrace, rfl, .inl ⟨⟨e, hdecode⟩, raiseFault_fault_of_changed hf⟩⟩
  | tickInput rest _ hexec => exact absurd (exec_tick_endInterval_fault hexec) hf
  | tickForced _ _ _ hexec => exact absurd (exec_tick_endInterval_fault hexec) hf
  | tickDue rest _ _ hexec => exact absurd (exec_tick_endInterval_fault hexec) hf
  | foreground cut rest _ hnext => exact absurd (hnext ▸ (runForeground_sameDriver _ _).fault) hf
  | resumed _ hnext => exact absurd (hnext ▸ (runForeground_sameDriver _ _).fault) hf
  | clock rest _ _ hnext => exact absurd (hnext ▸ rfl) hf
  | idle _ _ _ _ _ hnext => exact absurd (hnext ▸ rfl) hf

end Sys2Proof.Proofs
end

section
/-!
Proofs of the family 40_scan_pwm: one TICK (R103, R110), the tick pattern (R104, R105) and the row lines at the instants of a
tick (R106). From a load tick on, where the scan stands is a matter of counting ticks modulo 4.
-/

namespace Sys2Proof.Proofs

open Sys2Proof.Machine

/-! One TICK (R103, R110). -/

theorem exec_tick_of_run {s : State} (hr : s.run = true) : exec .tick s = .next (tick s) := if_pos hr

theorem decNonzero_eq_ofNat {n : Nat} (x : BitVec n) : decNonzero x = BitVec.ofNat n (x.toNat - 1) := by
  rw [← decNonzero_toNat, BitVec.ofNat_toNat, BitVec.setWidth_eq]

theorem row_add_one_eq_ofNat (r : Row) : r + 1 = BitVec.ofNat 2 (r.toNat + 1) := by
  rw [BitVec.ofNat_add, BitVec.ofNat_toNat, BitVec.setWidth_eq]
  rfl

theorem loadsNext_eq_false_iff (s : State) : s.loadsNext = false ↔ 1 < s.bc.toNat := by
  rw [← Bool.not_eq_true, loadsNext_iff, not_le]

/-- Settles O30: a load tick as one equation. -/
theorem loadTickLightsTheCursorsRow : Obligations.LoadTickLightsTheCursorsRow := by
  intro s hr hbc
  rw [exec_tick_of_run hr, tick_of_load ((loadsNext_iff s).mpr hbc), decNonzero_eq_ofNat, row_add_one_eq_ofNat]
  rfl

/-- Settles O31: a blank tick as one equation. -/
theorem blankTickZeroesTheCompareRegisters : Obligations.BlankTickZeroesTheCompareRegisters := by
  intro s hr hbc
  rw [exec_tick_of_run hr, tick_of_blank ((loadsNext_eq_false_iff s).mpr hbc), decNonzero_eq_ofNat, decNonzero_eq_ofNat]
  rfl

/-- TICK neither reads nor writes `FAULT` (R110). -/
theorem tick_with_fault (s : State) (f : FaultCode) : tick { s with fault := f } = { tick s with fault := f } := by
  cases h : s.loadsNext
  · rw [tick_of_blank h, tick_of_blank (s := { s with fault := f }) h]; rfl
  · rw [tick_of_load h, tick_of_load (s := { s with fault := f }) h]; rfl

/-- Settles O32: TICK answers `tick s`, which carries `FAULT` along. -/
theorem tickIsTotal : Obligations.TickIsTotal := fun s hr =>
  ⟨tick s, exec_tick_of_run hr, (tick_sameForeground s).fault, fun f =>
    (exec_tick_of_run (s := { s with fault := f }) hr).trans (congrArg Host.Outcome.next (tick_with_fault s f))⟩

theorem tick_cmp_getElem (s : State) (c : Column) :
    (tick s).cmp[c.val] = if s.loadsNext then s.readLB (columnAddr s.sc c) else 0 := by
  simp only [tick_cmp, Vector.getElem_ofFn]

/-! The tick pattern (R104, R105). -/

/-- The next tick is a load tick just when the scan stands at the last of a row's four ticks. -/
theorem loadsNext_iff_scanPosition {s : State} (h : s.bc.toNat ≤ 4) : s.loadsNext = true ↔ scanPosition s % 4 = 3 := by
  rw [loadsNext_iff, scanPosition]
  omega

theorem ticks_loadsNext_iff {s : State} (h : s.bc.toNat ≤ 4) (n : Nat) :
    (ticks n s).loadsNext = true ↔ (scanPosition s + n) % 4 = 3 := by
  rw [loadsNext_iff_scanPosition (ticks_bc_le h n), scanPosition_ticks h n]
  omega

/-- The first load tick comes after `max(b0, 1) - 1` blank ticks. -/
theorem ticks_loadsNext_iff_max {s : State} (h : s.bc.toNat ≤ 4) (n : Nat) :
    (ticks n s).loadsNext = true ↔ n % 4 = (max s.bc.toNat 1 - 1) := by
  rw [ticks_loadsNext_iff h, scanPosition]
  omega

section FromLoadTick

variable {s : State} (h : s.loadsNext = true)

include h

/-- After a load tick every fourth tick is one (R104). -/
theorem ticks_loadsNext_of_load (n : Nat) : (ticks n s).loadsNext = true ↔ n % 4 = 0 := by
  have hbc := (loadsNext_iff s).mp h
  rw [ticks_loadsNext_iff_max (by omega)]
  omega

/-- The cursor moves on with each of them (R103 t3e). -/
theorem ticks_sc_of_load (n : Nat) : (ticks n s).sc = s.sc + BitVec.ofNat 2 ((n + 3) / 4) := by
  induction n with
  | zero => exact (BitVec.add_zero _).symm
  | succ n ih =>
    rw [ticks_succ, tick_sc, ih]
    split
    · next hl =>
      have hn := (ticks_loadsNext_of_load h n).mp hl
      rw [show (n + 1 + 3) / 4 = (n + 3) / 4 + 1 by omega, BitVec.ofNat_add, BitVec.add_assoc]
      rfl
    · next hl =>
      have hn := mt (ticks_loadsNext_of_load h n).mpr hl
      rw [show (n + 1 + 3) / 4 = (n + 3) / 4 by omega]

/-- So the load ticks find the cursor at `SC`, `SC + 1`, … in turn (R105). -/
theorem ticks_sc_of_load_of_load {n : Nat} (hn : n % 4 = 0) : (ticks n s).sc = s.sc + BitVec.ofNat 2 (n / 4) := by
  rw [ticks_sc_of_load h, show (n + 3) / 4 = n / 4 by omega]

/-- The row a load tick lights stays lit until the next one (R104, R105). -/
theorem ticks_rowen_of_load (n : Nat) : (ticks (n + 1) s).rowen = onehot (s.sc + BitVec.ofNat 2 (n / 4)) := by
  induction n with
  | zero => exact (tick_rowen s).trans ((if_pos h).trans (congrArg onehot (BitVec.add_zero _).symm))
  | succ n ih =>
    rw [ticks_succ, tick_rowen]
    split
    · next hl => rw [ticks_sc_of_load_of_load h ((ticks_loadsNext_of_load h _).mp hl)]
    · next hl =>
      have hn := mt (ticks_loadsNext_of_load h _).mpr hl
      rw [ih, show (n + 1) / 4 = n / 4 by omega]

/-- The compare registers hold the row's entries after its load tick and 0 after the three blank ticks (R104). -/
theorem ticks_cmp_of_load (n : Nat) (c : Column) : (ticks (n + 1) s).cmp[c.val] =
    if n % 4 = 0 then s.readLB (columnAddr (s.sc + BitVec.ofNat 2 (n / 4)) c) else 0 := by
  simp only [ticks_succ, tick_cmp_getElem, ticks_loadsNext_of_load h]
  split
  · next hn => rw [ticks_sc_of_load_of_load h hn, State.readLB_congr (ticks_sameForeground n s).lb]
  · rfl

end FromLoadTick

/-- Settles O34: the first load tick from where the scan stands, and the four ticks from a load tick on. -/
theorem loadTicksComeEveryFourTicks : Obligations.LoadTicksComeEveryFourTicks := by
  intro s hbc
  refine ⟨fun n hn => ?_, (ticks_loadsNext_iff_max hbc _).mpr (by omega), fun m hm => ⟨fun j hj hj3 => ?_, ?_⟩⟩
  · rw [← Bool.not_eq_true, ticks_loadsNext_iff_max hbc]
    omega
  · simp only [Nat.add_assoc, ticks_add m, ← Bool.not_eq_true, ticks_loadsNext_of_load hm, ticks_cmp_of_load hm,
      ticks_rowen_of_load hm]
    exact ⟨by omega, by rw [show j / 4 = 0 by omega, ← ticks_rowen_of_load hm 0], fun c => if_neg (by omega)⟩
  · rw [ticks_add]
    exact (ticks_loadsNext_of_load hm 4).mpr rfl

/-- Settles O35: the first tick after launch is a load tick of row 0. -/
theorem scanPatternFromLaunch : Obligations.ScanPatternFromLaunch := by
  intro s hbc hsc n
  have hl : s.loadsNext = true := (loadsNext_iff s).mpr (by rw [hbc]; decide)
  have hrow : s.sc + BitVec.ofNat 2 (n / 4) = BitVec.ofNat 2 (n / 4) := by rw [hsc]; exact BitVec.zero_add _
  rw [ticks_rowen_of_load hl, hrow]
  refine ⟨rfl, ticks_loadsNext_of_load hl n, fun c => ?_⟩
  rw [ticks_cmp_of_load hl, hrow]

/-- No command writes the scan's own `SC` and `ROWEN` (R105, R200). -/
theorem exec_command_sc_rowen {s t : State} {c : Instr} (hc : c ≠ .tick) (h : exec c s = .next t) :
    t.sc = s.sc ∧ t.rowen = s.rowen := by
  rcases exec_command_cases hc h with ⟨_, rfl⟩ | ⟨_, _, rfl⟩ | ⟨i, _, _, rfl⟩
  · exact ⟨rfl, rfl⟩
  · exact ⟨rfl, rfl⟩
  · have d := runForeground_sameDriver Config.params (s.setQueue (commandOps c i))
    exact ⟨d.sc, d.rowen⟩

theorem performTick_sc {x : TickStep} (hx : x ≠ .advance) (s : State) : (performTick x s).sc = s.sc := by
  cases x with
  | advance => exact absurd rfl hx
  | _ => rfl

/-- Settles O36: the pattern from a load tick on, and who writes the cursor. -/
theorem rowsAreVisitedInCyclicOrder : Obligations.RowsAreVisitedInCyclicOrder := by
  refine ⟨fun s hl m => ⟨?_, ?_, fun j hj hj3 => ?_⟩, fun s t c hc h => (exec_command_sc_rowen hc h).1,
    fun s x hx => performTick_sc hx s⟩
  · rw [ticks_loadsNext_of_load hl]
    omega
  · rw [ticks_rowen_of_load hl, Nat.mul_div_cancel_left m (by decide)]
  · rw [← Bool.not_eq_true, ticks_loadsNext_of_load hl]
    omega

/-! The instants of a tick (R106). -/

theorem tickInstants_zero (s : State) : (tickInstants s)[0]? = some s := List.getElem?_scanl_zero

theorem tickInstants_succ {s v : State} {n : Nat} (hv : (tickInstants s)[n + 1]? = some v) :
    ∃ u x, (tickInstants s)[n]? = some u ∧ x ∈ tickSteps s ∧ v = performTick x u := by
  rw [tickInstants, List.getElem?_succ_scanl, Option.bind_eq_some_iff] at hv
  obtain ⟨u, hu, hv⟩ := hv
  obtain ⟨x, hx, rfl⟩ := Option.map_eq_some_iff.mp hv
  exact ⟨u, x, hu, List.mem_of_getElem? hx, rfl⟩

/-- What the state before a tick has and every step of the tick keeps holds at every instant. -/
theorem tickInstants_induct {P : State → Prop} {s : State} (hs : P s)
    (hstep : ∀ x ∈ tickSteps s, ∀ u, P u → P (performTick x u)) : ∀ u ∈ tickInstants s, P u := by
  intro u hu
  obtain ⟨n, hn⟩ := List.mem_iff_getElem?.mp hu
  induction n generalizing u with
  | zero => exact Option.some.inj ((tickInstants_zero s).symm.trans hn) ▸ hs
  | succ n ih =>
    obtain ⟨v, x, hv, hx, rfl⟩ := tickInstants_succ hn
    exact hstep x hx v (ih v (List.mem_of_getElem? hv) hv)

theorem performTick_legalRowPattern (x : TickStep) {s : State} (h : legalRowPattern s.rowen = true) :
    legalRowPattern (performTick x s).rowen = true := by
  cases x with
  | rowsOff => rfl
  | rowOn => exact legalRowPattern_onehot s.sc
  | _ => exact h

/-- No step of a blank tick touches the row lines, and a compare register either keeps its value or goes to 0 (R103 t2). -/
theorem performTick_blank {x : TickStep} (hx : x ∈ blankTickSteps) (s : State) :
    (performTick x s).rowen = s.rowen ∧
      ∀ c : Column, (performTick x s).cmp[c.val] = s.cmp[c.val] ∨ (performTick x s).cmp[c.val] = 0 := by
  rcases List.mem_append.mp hx with hx | hx
  · rcases List.mem_pair.mp hx with rfl | rfl
    · exact ⟨rfl, fun _ => .inl rfl⟩
    · exact ⟨rfl, fun _ => .inl rfl⟩
  · obtain ⟨b, -, rfl⟩ := List.mem_map.mp hx
    refine ⟨rfl, fun c => ?_⟩
    simp only [performTick, State.setCompare_cmp, Vector.getElem_set]
    split
    · exact .inr rfl
    · exact .inl rfl

theorem blank_instants {s : State} (h : s.loadsNext = false) : ∀ u ∈ tickInstants s, u.rowen = s.rowen ∧
    ∀ c : Column, u.cmp[c.val] = s.cmp[c.val] ∨ u.cmp[c.val] = 0 := by
  refine tickInstants_induct ⟨rfl, fun _ => .inl rfl⟩ fun x hx u ⟨hrow, hcmp⟩ => ?_
  rw [tickSteps, if_neg (by simp [h])] at hx
  obtain ⟨hrow', hcmp'⟩ := performTick_blank hx u
  refine ⟨hrow'.trans hrow, fun c => ?_⟩
  rcases hcmp' c with hsame | hzero
  · rw [hsame]; exact hcmp c
  · exact .inr hzero

/-- A state after the first `n` of a load tick's 18 steps (R103). -/
def afterLoadSteps (n : Nat) (s : State) : State := (loadTickSteps.take n).foldl (fun t x => performTick x t) s

theorem load_instant {s u : State} {n : Nat} (h : s.loadsNext = true) (hu : (tickInstants s)[n]? = some u) :
    n ≤ 18 ∧ u = afterLoadSteps n s := by
  rw [tickInstants, tickSteps, if_pos h, List.getElem?_scanl] at hu
  split at hu
  · next hn => exact ⟨hn, (Option.some.inj hu).symm⟩
  · cases hu

/-- The row lines are off from t3b until t3d, and then the cursor's row is on. -/
theorem afterLoadSteps_rowen {n : Nat} (hn : n ≤ 18) (s : State) :
    (n < 4 → (afterLoadSteps n s).rowen = s.rowen) ∧ (4 ≤ n → n ≤ 16 → (afterLoadSteps n s).rowen = allRowsOff) ∧
      (16 < n → (afterLoadSteps n s).rowen = onehot s.sc) := by
  refine ⟨fun h => ?_, fun h h' => ?_, fun h => ?_⟩
  · interval_cases n <;> rfl
  · interval_cases n <;> rfl
  · interval_cases n <;> simp [afterLoadSteps, loadTickSteps, columns, performTick]

/-- The compare registers are as before until t3b, and as they will be from t3d on. -/
theorem afterLoadSteps_cmp {n : Nat} (hn : n ≤ 18) (s : State) :
    (n ≤ 4 → (afterLoadSteps n s).cmp = s.cmp) ∧ (16 ≤ n → (afterLoadSteps n s).cmp = (afterLoadSteps 18 s).cmp) := by
  refine ⟨fun h => ?_, fun h => ?_⟩
  · interval_cases n <;> rfl
  · interval_cases n <;> rfl

theorem onehot_ne_allRowsOff (r : Row) : onehot r ≠ allRowsOff := by revert r; decide

/-- While a row was lit, the lines are off exactly between t3b and t3d of a load tick. -/
theorem tickInstants_allRowsOff_iff {s u : State} {n : Nat} (hs : s.rowen ≠ allRowsOff)
    (hu : (tickInstants s)[n]? = some u) : u.rowen = allRowsOff ↔ s.loadsNext = true ∧ 4 ≤ n ∧ n ≤ 16 := by
  cases h : s.loadsNext with
  | false =>
    rw [(blank_instants h u (List.mem_of_getElem? hu)).1]
    simp [hs]
  | true =>
    obtain ⟨hn, rfl⟩ := load_instant h hu
    obtain ⟨hbefore, hoff, hon⟩ := afterLoadSteps_rowen hn s
    refine ⟨fun hu => ⟨rfl, ?_, ?_⟩, fun ⟨_, hlo, hhi⟩ => hoff hlo hhi⟩
    · by_contra hlt
      exact hs ((hbefore (by omega)).symm.trans hu)
    · by_contra hgt
      exact onehot_ne_allRowsOff s.sc ((hon (by omega)).symm.trans hu)

/-- At a load tick the compare registers change only between two instants at which the lines are off (C4). -/
theorem load_instants_cmp_changed {s u v : State} {n : Nat} (h : s.loadsNext = true)
    (hu : (tickInstants s)[n]? = some u) (hv : (tickInstants s)[n + 1]? = some v) (hne : u.cmp ≠ v.cmp) :
    u.rowen = allRowsOff ∧ v.rowen = allRowsOff := by
  obtain ⟨hn, rfl⟩ := load_instant h hu
  obtain ⟨hn', rfl⟩ := load_instant h hv
  obtain ⟨hbefore, hafter⟩ := afterLoadSteps_cmp hn s
  obtain ⟨hbefore', hafter'⟩ := afterLoadSteps_cmp hn' s
  have hlo : 4 ≤ n := by
    by_contra hlt
    exact hne ((hbefore (by omega)).trans (hbefore' (by omega)).symm)
  have hhi : n < 16 := by
    by_contra hge
    exact hne ((hafter (by omega)).trans (hafter' (by omega)).symm)
  obtain ⟨_, hoff, _⟩ := afterLoadSteps_rowen hn s
  obtain ⟨_, hoff', _⟩ := afterLoadSteps_rowen hn' s
  exact ⟨hoff hlo hhi.le, hoff' (by omega) hhi⟩

/-- Settles O37: the instants of the two kinds of tick, and the commands' frame. -/
theorem rowLinesWithinAndBetweenTicks : Obligations.RowLinesWithinAndBetweenTicks := by
  refine ⟨fun s hlegal => ⟨List.head?_scanl, List.getLast?_scanl, ?_, fun hs n u hu => tickInstants_allRowsOff_iff hs hu,
    fun hl n u v hu hv hne => load_instants_cmp_changed hl hu hv hne, blank_instants, fun hs => ?_⟩,
    fun s t c hc h => (exec_command_sc_rowen hc h).2⟩
  · exact tickInstants_induct hlegal fun x _ u hu => performTick_legalRowPattern x hu
  · rw [tick_rowen]
    split
    · exact onehot_ne_allRowsOff s.sc
    · next hl => exact hs.resolve_left hl

end Sys2Proof.Proofs
end

section
/-!
Proofs of the family 40_scan_pwm: what the outputs deliver (R107 to R109). A PWM period counts through all 256 values from any
phase, a frame of 16 ticks loads each row once, and a legal row pattern asserts one line.
-/

namespace Sys2Proof.Proofs

open Sys2Proof.Machine

/-! One row at an instant (R106, R108). -/

theorem onehot_getLsbD (r r' : Row) : (onehot r).getLsbD r'.toNat = true ↔ r = r' := by revert r r'; decide

theorem legalRowPattern_cases {m : BitVec 4} (h : legalRowPattern m = true) : m = allRowsOff ∨ ∃ r, m = onehot r := by
  revert m; decide

theorem conducts_iff (s : State) (r : Row) (c : Column) :
    s.conducts r c = true ↔ s.rowOnLine r = true ∧ s.columnOn c = true := Bool.and_eq_true_iff

theorem rowOnLine_unique {s : State} {r r' : Row} (hlegal : legalRowPattern s.rowen = true) (h : s.rowOnLine r = true)
    (h' : s.rowOnLine r' = true) : r = r' := by
  rw [State.rowOnLine] at h h'
  rcases legalRowPattern_cases hlegal with hoff | ⟨lit, hlit⟩
  · simp [hoff, allRowsOff] at h
  · rw [hlit, onehot_getLsbD] at h h'
    exact h.symm.trans h'

/-- Settles O41: two conducting positions have their row lines asserted, and only one line is. -/
theorem onlyOneRowConducts : Obligations.OnlyOneRowConducts := by
  intro s r r' c c' hlegal h h'
  exact rowOnLine_unique hlegal ((conducts_iff s r c).mp h).1 ((conducts_iff s r' c').mp h').1

/-! A frame (R109). -/

/-- After a tick a position receives its entry if the tick loaded its row, and nothing otherwise: the compare registers are 0
or another row is lit. -/
theorem tick_delivered (s : State) (r : Row) (c : Column) : (tick s).delivered r c =
    if s.loadsNext = true ∧ s.sc = r then (s.readLB (columnAddr r c)).toNat else 0 := by
  rw [State.delivered, State.rowOnLine, tick_rowen, tick_cmp_getElem]
  cases hl : s.loadsNext with
  | false => simp
  | true =>
    simp only [if_true, onehot_getLsbD, true_and]
    split
    · next hr => rw [hr]
    · rfl

/-- Settles O39: one of any 16 ticks in a row loads the position's row. -/
theorem frameDeliversEachEntryOnce : Obligations.FrameDeliversEachEntryOnce := by
  intro s r c hbc
  have hr := r.isLt
  have hpos := scanPosition_lt s
  have htick : ∀ n ∈ Finset.range 16, (ticks (n + 1) s).delivered r c =
      if n = (4 * r.toNat + 3 + (16 - scanPosition s)) % 16 then (s.readLB (columnAddr r c)).toNat else 0 := by
    intro n hn
    rw [Finset.mem_range] at hn
    simp only [ticks_succ, tick_delivered, ticks_load_iff hbc, State.readLB_congr (ticks_sameForeground n s).lb]
    exact if_congr (by omega) rfl rfl
  calc ((List.range 16).map fun n => (ticks (n + 1) s).delivered r c).sum
      = ∑ n ∈ Finset.range 16, (ticks (n + 1) s).delivered r c := rfl
    _ = (s.readLB (columnAddr r c)).toNat := by
      rw [Finset.sum_congr rfl htick, Finset.sum_ite_eq', if_pos (Finset.mem_range.mpr (Nat.mod_lt _ (by decide)))]

/-! A PWM period (R107). -/

/-- The comparator after `n` PWM clocks, as an equation of counts. -/
theorem pwmClocks_columnOn (n : Nat) (s : State) (c : Column) :
    (pwmClocks n s).columnOn c = decide ((s.pwmcnt.toNat + n) % 256 < (s.cmp[c.val]).toNat) := by
  rw [pwmClocks_eq, State.columnOn, BitVec.ult, BitVec.toNat_add, BitVec.toNat_ofNat, Nat.add_mod_mod]

theorem pwmClocks_rowOnLine (n : Nat) (s : State) (r : Row) : (pwmClocks n s).rowOnLine r = s.rowOnLine r := by
  rw [pwmClocks_eq]; rfl

theorem count_mod_lt {m v : Nat} (hv : v ≤ m) : Nat.count (fun n => n % m < v) m = v := by
  obtain ⟨d, rfl⟩ := Nat.exists_eq_add_of_le hv
  rw [Nat.count_add, Nat.count_of_forall fun n hn => by rwa [Nat.mod_eq_of_lt (by omega)],
    Nat.count_of_forall_not fun n hn => by rw [Nat.mod_eq_of_lt (by omega)]; omega, Nat.add_zero]

/-- A whole period has the same count from any phase: what is left out at its start comes again at its end. -/
theorem count_period_from_any_phase {m v : Nat} (hv : v ≤ m) (k : Nat) :
    Nat.count (fun n => (k + n) % m < v) m = v := by
  have hsplit := (Nat.count_add (fun n => n % m < v) k m).symm.trans
    ((congrArg _ (Nat.add_comm k m)).trans (Nat.count_add (fun n => n % m < v) m k))
  simp only [Nat.add_mod_left, count_mod_lt hv] at hsplit
  omega

theorem count_periods_from_any_phase {m v : Nat} (hv : v ≤ m) (k j : Nat) :
    Nat.count (fun n => (k + n) % m < v) (m * j) = j * v := by
  induction j with
  | zero => simp
  | succ j ih =>
    rw [Nat.mul_succ, Nat.count_add, ih, Nat.succ_mul]
    simp only [← Nat.add_assoc k, count_period_from_any_phase hv]

/-- In `j` PWM periods a column is asserted for `j` times its compare value. -/
theorem columnOn_count (s : State) (c : Column) (j : Nat) :
    ((List.range (256 * j)).filter fun n => (pwmClocks n s).columnOn c).length = j * (s.cmp[c.val]).toNat := by
  simp only [pwmClocks_columnOn, ← List.countP_eq_length_filter]
  exact count_periods_from_any_phase (s.cmp[c.val]).isLt.le _ _

/-- Settles O40: one PWM period. -/
theorem dutyIsTheCompareValue : Obligations.DutyIsTheCompareValue := fun s c =>
  (columnOn_count s c 1).trans (Nat.one_mul _)

/-- Settles O60: `PWM_PERIODS_PER_TICK` periods on the lit row, none of them elsewhere. -/
theorem tickIntervalDeliversTheCompareValue : Obligations.TickIntervalDeliversTheCompareValue := by
  intro p s r c
  simp only [State.conducts, pwmClocks_rowOnLine, State.delivered]
  cases s.rowOnLine r with
  | false => simp
  | true =>
    simp only [Bool.true_and, if_true]
    exact columnOn_count s c p.pwmPeriodsPerTick

end Sys2Proof.Proofs
end

section
/-!
Proofs of the family 41_accessors: SET_LED and the three SET_ch queue writes to the channels of one LED, one byte each. What a
queue of such writes does, up to any interruption point, is said once below; the statements on the stores are read off from it.
The last part shows that no accessor looks at `RUN` (R138).
-/

namespace Sys2Proof.Proofs

open Sys2Proof.Machine Sys2Proof.Safety

/-! The Light Buffer after writes to some of a LED's channels (R52, R130 to R133). -/

/-- The memory after one byte write per channel of the list, in its order: `colour ch` at `addr ch`. -/
def writeChannels (addr : Channel → BufferIndex) (colour : Channel → Byte) :
    List Channel → List Host.Cell → List Host.Cell
  | [], m => m
  | ch :: chs, m => writeChannels addr colour chs (Memory.write m (addr ch).val (colour ch))

section
variable {addr : Channel → BufferIndex} {colour : Channel → Byte} {chs : List Channel}

theorem read_writeChannels_of_forall_ne {a : Nat} (h : ∀ ch ∈ chs, a ≠ (addr ch).val) (m : List Host.Cell) :
    Memory.read (writeChannels addr colour chs m) a = Memory.read m a := by
  induction chs generalizing m with
  | nil => rfl
  | cons ch chs ih =>
    rw [List.forall_mem_cons] at h
    exact (ih h.2 _).trans (Memory.read_write_other _ _ h.1)

/-- A later write to another channel is at another index, and one to the same channel is of the same byte. -/
theorem read_writeChannels_of_mem (hinj : Function.Injective addr) {ch : Channel} (h : ch ∈ chs) (m : List Host.Cell) :
    Memory.read (writeChannels addr colour chs m) (addr ch).val = colour ch := by
  induction chs generalizing m with
  | nil => cases h
  | cons first chs ih =>
    by_cases hlater : ch ∈ chs
    · exact ih hlater _
    · obtain rfl : ch = first := (List.mem_cons.mp h).resolve_right hlater
      have hne : ∀ dh ∈ chs, (addr ch).val ≠ (addr dh).val := fun dh hdh he =>
        hlater (hinj (Fin.ext he) ▸ hdh)
      exact (read_writeChannels_of_forall_ne hne _).trans (Memory.read_write_same _ _ _)

theorem wf_writeChannels {m : List Host.Cell} (h : Memory.wf m = true) :
    Memory.wf (writeChannels addr colour chs m) = true := by
  induction chs generalizing m with
  | nil => exact h
  | cons ch chs ih => exact ih (Memory.wf_write h (addr ch).isLt _)

end

/-- The channels in the order SET_LED writes them (R130). -/
def orderChannels (order : ChannelOrder) : List Channel := [order.first, order.second, order.third]

/-- `SETLED_ORDER` is a permutation of (R, G, B) (R6). -/
theorem mem_orderChannels (order : ChannelOrder) (ch : Channel) : ch ∈ orderChannels order := by
  cases order <;> cases ch <;> decide

/-- In canonical form, neither the order of the writes nor anything else but the bytes they leave matters. -/
theorem writeChannels_orderChannels_eq {addr : Channel → BufferIndex} (colour : Channel → Byte)
    (hinj : Function.Injective addr) (o o' : ChannelOrder) {m : List Host.Cell} (hm : Memory.wf m = true) :
    writeChannels addr colour (orderChannels o) m = writeChannels addr colour (orderChannels o') m := by
  refine Memory.ext_of_wf (wf_writeChannels hm) (wf_writeChannels hm) fun a => ?_
  by_cases ha : ∃ ch, a = (addr ch).val
  · obtain ⟨ch, rfl⟩ := ha
    simp only [read_writeChannels_of_mem hinj (mem_orderChannels _ ch)]
  · have hne : ∀ chs : List Channel, ∀ ch ∈ chs, a ≠ (addr ch).val := fun _ ch _ he => ha ⟨ch, he⟩
    simp only [read_writeChannels_of_forall_ne (hne _)]

/-! Queued writes performed (R9, R55). -/

/-- One byte write per channel of the list, as micro-operations. -/
def writeOps (i : Led) (colour : Channel → Byte) (chs : List Channel) : List MicroOp :=
  chs.map fun ch => .write i ch (colour ch)

theorem setLedOps_eq_writeOps (order : ChannelOrder) (i : Led) (r g b : Byte) :
    setLedOps order i r g b = writeOps i (colourOf r g b) (orderChannels order) := rfl

theorem queueWork_writeOps (i : Led) (colour : Channel → Byte) (chs : List Channel) :
    queueWork (writeOps i colour chs) = chs.length := by
  induction chs with
  | nil => rfl
  | cons ch chs ih => rw [List.length_cons, ← ih, Nat.add_comm]; rfl

section
variable (p : Config.Params) (i : Led) (colour : Channel → Byte) (chs : List Channel)

/-- `n` micro-operations of a queue of writes are its first `n` writes. -/
theorem drain_writeOps (n : Nat) (s : State) : drain p n (s.setQueue (writeOps i colour chs)) =
    { s with
      lb := writeChannels (p.topo i) colour (chs.take n) s.lb
      fgq := writeOps i colour (chs.drop n) } := by
  induction chs generalizing n s with
  | nil => rw [drain_nil p n rfl, List.take_nil, List.drop_nil]; rfl
  | cons ch chs ih =>
    cases n with
    | zero => rfl
    | succ n =>
      rw [writeOps, List.map_cons, drain_cons p n (State.setQueue_fgq s _)]
      exact ih n (s.writeLB (p.topo i ch) (colour ch))

theorem runForeground_writeOps_cut {s : State} {n : Nat} (h : s.preempt = some n) :
    runForeground p (s.setQueue (writeOps i colour chs)) =
      { s with
        lb := writeChannels (p.topo i) colour (chs.take n) s.lb
        fgq := writeOps i colour (chs.drop n)
        preempt := none } := by
  rw [runForeground_cut p (s := s.setQueue (writeOps i colour chs)) h, drain_writeOps]
  rfl

theorem runForeground_writeOps_whole {s : State} (h : s.preempt = none) :
    runForeground p (s.setQueue (writeOps i colour chs)) =
      { s with lb := writeChannels (p.topo i) colour chs s.lb, fgq := [], preempt := none } := by
  rw [run_queue p _ h, queueWork_writeOps, drain_writeOps, List.take_length, List.drop_length]
  rfl

/-- Wherever it is interrupted, a queue of writes has performed a first part of them. -/
theorem runForeground_writeOps (s : State) : ∃ n,
    runForeground p (s.setQueue (writeOps i colour chs)) =
      { s with
        lb := writeChannels (p.topo i) colour (chs.take n) s.lb
        fgq := writeOps i colour (chs.drop n)
        preempt := none } := by
  cases h : s.preempt with
  | none =>
    refine ⟨chs.length, ?_⟩
    rw [runForeground_writeOps_whole p i colour chs h, List.take_length, List.drop_length]
    rfl
  | some n => exact ⟨n, runForeground_writeOps_cut p i colour chs h⟩

end

/-! A command accepted (R73). -/

theorem accepting_of_ready {s : State} (h : Ready s) : s.accepting = true :=
  (accepting_iff s).mpr ⟨h.noFault, h.queue, h.wait⟩

theorem ledOfIdx_idxOf (i : Led) : ledOfIdx (idxOf i) = some i := ledOfIdx_ofNat i

theorem exec_setInstr (ch : Channel) (idx : Nibble) (v : Byte) (s : State) :
    exec (setInstr ch idx v) s = issueIndexed Config.params idx (fun i => writeOps i (fun _ => v) [ch]) s := by
  cases ch <;> rfl

theorem exec_setLed (idx : Nibble) (r g b : Byte) (s : State) : exec (.setLed idx r g b) s =
    issueIndexed Config.params idx (fun i => writeOps i (colourOf r g b) (orderChannels Config.setLedOrder)) s := rfl

theorem exec_getInstr (ch : Channel) (idx : Nibble) (s : State) :
    exec (getInstr ch idx) s = issueIndexed Config.params idx (fun i => [.read i ch]) s := by
  cases ch <;> rfl

theorem setInstr_idx? (ch : Channel) (idx : Nibble) (v : Byte) : (setInstr ch idx v).idx? = some idx := by
  cases ch <;> rfl

theorem getInstr_idx? (ch : Channel) (idx : Nibble) : (getInstr ch idx).idx? = some idx := by cases ch <;> rfl

/-- A command with an index above 12 records `IndexFault` and changes nothing else (R82, R191). -/
theorem exec_index_above {c : Instr} {s : State} {idx : Nibble} (hs : Ready s) (hidx : c.idx? = some idx)
    (h : 12 < idx.toNat) : exec c s = .next { s with fault := .indexFault } := by
  rw [exec_illegal_index hidx (ledOfIdx_of_ge h) (accepting_of_ready hs), raiseFault, if_pos hs.noFault, ← hs.whole]

section
variable (p : Config.Params) (i : Led) (colour : Channel → Byte) (chs : List Channel) {s : State}

theorem issueIndexed_writeOps_whole (hs : Ready s) :
    issueIndexed p (idxOf i) (fun j => writeOps j colour chs) s =
      .next { s with lb := writeChannels (p.topo i) colour chs s.lb } := by
  rw [issueIndexed_accepted p _ (accepting_of_ready hs) (ledOfIdx_idxOf i), runForeground_writeOps_whole _ _ _ _ hs.whole,
    ← hs.queue, ← hs.whole]

theorem issueIndexed_writeOps_cut (hs : Ready s) (n : Nat) :
    issueIndexed p (idxOf i) (fun j => writeOps j colour chs) { s with preempt := some n } =
      .next { s with
        lb := writeChannels (p.topo i) colour (chs.take n) s.lb
        fgq := writeOps i colour (chs.drop n) } := by
  have ha := accepting_of_ready hs
  rw [issueIndexed_accepted p (s := { s with preempt := some n }) _ ha (ledOfIdx_idxOf i),
    runForeground_writeOps_cut (s := { s with preempt := some n }) _ _ _ _ rfl, ← hs.whole]

theorem issueIndexed_read (hs : Ready s) (ch : Channel) :
    issueIndexed p (idxOf i) (fun j => [.read j ch]) s = .next (s.latch (s.readLB (p.topo i ch))) := by
  rw [issueIndexed_accepted p _ (accepting_of_ready hs) (ledOfIdx_idxOf i), run_single p _ hs.whole rfl,
    State.setQueue_of_eq hs.queue]
  rfl

end

/-! The stores (R130 to R133). -/

/-- Settles O14: the queue is a single write, so an interruption point is before it or after it. -/
theorem setChannelWritesItsByte : Obligations.SetChannelWritesItsByte := by
  intro ch s v hs
  refine ⟨fun i => ⟨?_, ?_, fun k hk => ?_, fun n => ?_⟩, fun idx => ⟨exec_index_above hs (setInstr_idx? ch idx v), ?_⟩⟩
  · rw [exec_setInstr, issueIndexed_writeOps_whole _ _ _ _ hs]
    rfl
  · rw [State.readLB_writeLB, if_pos rfl]
  · rw [State.readLB_writeLB, if_neg hk]
  · rw [exec_setInstr, issueIndexed_writeOps_cut _ _ _ _ hs]
    cases n with
    | zero => rfl
    | succ n =>
      rw [if_neg (Nat.succ_ne_zero n), List.take_succ_cons, List.drop_succ_cons, List.take_nil, List.drop_nil,
        show writeOps i (fun _ => v) [] = s.fgq from hs.queue.symm]
      rfl
  · cases ch <;> rfl

/-- Settles O15: the queue is a single read. -/
theorem getChannelLatchesItsByte : Obligations.GetChannelLatchesItsByte := by
  intro ch s hs
  refine ⟨fun i => ?_, fun idx => ⟨exec_index_above hs (getInstr_idx? ch idx), ?_⟩⟩
  · rw [exec_getInstr, issueIndexed_read _ _ hs]
    rfl
  · cases ch <;> rfl

theorem topo_led_injective (i : Led) : Function.Injective (Config.topo i) := fun _ _ h => (topo_injective h).2

/-- Settles O16: every channel is among those written, whatever the order. -/
theorem setLedWritesItsThreeBytes : Obligations.SetLedWritesItsThreeBytes := by
  intro s i r g b hs
  have hwritten := fun ch => read_writeChannels_of_mem (colour := colourOf r g b) (topo_led_injective i)
    (mem_orderChannels Config.setLedOrder ch) s.lb
  rw [exec_setLed, issueIndexed_writeOps_whole _ _ _ _ hs]
  exact ⟨_, rfl, rfl, ⟨hwritten .red, hwritten .green, hwritten .blue⟩,
    fun k hk => read_writeChannels_of_forall_ne (fun ch _ => Fin.val_ne_of_ne (hk ch)) _⟩

/-- Settles O17: after `n` writes an index holds its colour if its channel is among the first `n`. -/
theorem interruptedSetLedHasWrittenAPrefix : Obligations.InterruptedSetLedHasWrittenAPrefix := by
  intro s i r g b n hs _
  rw [exec_setLed, issueIndexed_writeOps_cut _ _ _ _ hs]
  refine ⟨_, rfl, rfl, setLedOps_eq_writeOps _ i r g b ▸ List.map_drop, fun k => ?_⟩
  have hwritten := fun ch (hch : ch ∈ (orderChannels Config.setLedOrder).take n) =>
    read_writeChannels_of_mem (colour := colourOf r g b) (topo_led_injective i) hch s.lb
  split_ifs with h1 h2 h3
  · exact h1.2 ▸ hwritten _ (List.mem_take_iff_getElem.mpr ⟨0, lt_min h1.1 (by decide), rfl⟩)
  · exact h2.2 ▸ hwritten _ (List.mem_take_iff_getElem.mpr ⟨1, lt_min h2.1 (by decide), rfl⟩)
  · exact h3.2 ▸ hwritten _ (List.mem_take_iff_getElem.mpr ⟨2, lt_min h3.1 (by decide), rfl⟩)
  · refine read_writeChannels_of_forall_ne (fun ch hch hk => ?_) _
    obtain ⟨j, hj, rfl⟩ := List.mem_take_iff_getElem.mp hch
    obtain ⟨hjn, hj3⟩ := lt_min_iff.mp hj
    match j with
    | 0 => exact h1 ⟨hjn, Fin.ext hk⟩
    | 1 => exact h2 ⟨hjn, Fin.ext hk⟩
    | 2 => exact h3 ⟨hjn, Fin.ext hk⟩

/-- Settles O18: the two memories read alike. -/
theorem setLedOrderLeavesNoTrace : Obligations.SetLedOrderLeavesNoTrace := by
  intro p q s i r g b htopo hq hm hp
  have hinj : Function.Injective (p.topo i) := fun _ _ h => (htopo _ _ _ _ h).2
  have hrun := fun p' : Config.Params =>
    runForeground_writeOps_whole p' i (colourOf r g b) (orderChannels p'.setLedOrder) hp
  rw [setLedOps_eq_writeOps, setLedOps_eq_writeOps]
  refine (hrun p).trans (Eq.trans ?_ (hrun q).symm)
  rw [hq, writeChannels_orderChannels_eq _ hinj p.setLedOrder q.setLedOrder hm]

/-- Settles O19: the write leaves `v`, a tick leaves the Light Buffer, and the read latches what the entry holds. -/
theorem roundTripThroughTheTopologyTable : Obligations.RoundTripThroughTheTopologyTable := by
  refine ⟨fun p s i ch v hs => ?_, fun ch s idx v => ⟨exec_setInstr ch idx v s, exec_getInstr ch idx s⟩⟩
  refine ⟨_, issueIndexed_writeOps_whole p i (fun _ => v) [ch] hs,
    fun n => State.readLB_congr (ticks_sameForeground n _).lb _, fun u hu hentry => ?_⟩
  exact ⟨_, issueIndexed_read p i hu ch, hentry.trans (Memory.read_write_same _ _ _)⟩

/-- An indexed command of writes, accepted or turned away, whole or interrupted, writes only where its channels are. -/
theorem issueIndexed_writeOps_frame {p : Config.Params} {idx : Nibble} {colour : Channel → Byte} {chs : List Channel}
    {s t : State} (h : issueIndexed p idx (fun i => writeOps i colour chs) s = .next t) :
    t = { s with lb := t.lb, fault := t.fault, fgq := t.fgq, preempt := none } ∧
      ∀ k, (∀ i, ledOfIdx idx = some i → ∀ ch ∈ chs, k ≠ p.topo i ch) → t.readLB k = s.readLB k := by
  rcases issueIndexed_cases h with ⟨i, _, hi, rfl⟩ | ⟨_, _, rfl⟩ | ⟨_, rfl⟩
  · obtain ⟨n, hn⟩ := runForeground_writeOps p i colour chs s
    rw [hn]
    exact ⟨rfl, fun k hk => read_writeChannels_of_forall_ne
      (fun ch hch => Fin.val_ne_of_ne (hk i hi ch (List.mem_of_mem_take hch))) _⟩
  · exact ⟨rfl, fun _ _ => rfl⟩
  · exact ⟨rfl, fun _ _ => rfl⟩

/-- Settles O46: SET_ch and SET_LED are indexed commands of writes. -/
theorem frameOfTheStores : Obligations.FrameOfTheStores := by
  refine ⟨fun s t ch idx v h => ?_, fun s t idx r g b h => ?_⟩
  · rw [exec_setInstr] at h
    obtain ⟨hframe, hread⟩ := issueIndexed_writeOps_frame h
    exact ⟨hframe, fun k hk => hread k fun i hi _ hch => List.mem_singleton.mp hch ▸ hk i hi⟩
  · rw [exec_setLed] at h
    obtain ⟨hframe, hread⟩ := issueIndexed_writeOps_frame h
    exact ⟨hframe, fun k hk => hread k fun i hi ch _ => hk i ch hi⟩

/-- Settles O20: two (LED, channel) pairs have two places in the table, and the frame of the stores names the places. -/
theorem accessorsAreIndependent : Obligations.AccessorsAreIndependent := by
  obtain ⟨hset, hled⟩ := frameOfTheStores
  intro s t i j ch dh
  refine ⟨fun v hne h => (hset s t ch _ v h).2 _ fun i' hi' heq => ?_,
    fun r g b hne h => (hled s t _ r g b h).2 _ fun i' ch' hi' heq => ?_⟩
  all_goals
    obtain rfl := Option.some.inj ((ledOfIdx_idxOf i).symm.trans hi')
    obtain ⟨rfl, rfl⟩ := topo_injective heq
    exact hne rfl

/-! `RUN` is no input of an accessor (R138). -/

/-- The same state before START or after it. -/
def withRun (b : Bool) (s : State) : State := { s with run := b }

/-- START's micro-operation alone writes `RUN`, and none reads it (R30). -/
theorem perform_withRun (p : Config.Params) {op : MicroOp} (hop : op ≠ .setRun) (b : Bool) (s : State) :
    perform p op (withRun b s) = withRun b (perform p op s) := by
  cases op with
  | setRun => exact absurd rfl hop
  | fadeSelect i => simp only [perform, withRun]; cases fadeArgs i s.fs[i.val] <;> rfl
  | fadeF2 f v => simp only [perform]; split <;> rfl
  | fadeF5 f w => simp only [perform]; split <;> rfl
  | fadeF6 f =>
    simp only [perform, seededLed_congr f (show (withRun b s).fs = s.fs from rfl)]
    cases seededLed f s <;> rfl
  | _ => rfl

theorem drain_withRun (p : Config.Params) (n : Nat) (b : Bool) {s : State} (h : MicroOp.setRun ∉ s.fgq) :
    drain p n (withRun b s) = withRun b (drain p n s) := by
  induction n generalizing s with
  | zero => rfl
  | succ n ih =>
    cases hq : s.fgq with
    | nil => rw [drain_nil p _ hq, drain_nil p _ (s := withRun b s) hq]
    | cons op rest =>
      rw [hq, List.mem_cons, not_or] at h
      have hrest : MicroOp.setRun ∉ (perform p op (s.setQueue rest)).fgq := fun hm =>
        h.2 (mem_fgq_of_mem_perform (new := .setRun) rfl (fun _ _ _ => nofun) hm)
      rw [drain_cons p n hq, drain_cons p n (s := withRun b s) hq, ← ih hrest, ← perform_withRun p (Ne.symm h.1)]
      rfl

theorem runForeground_withRun (p : Config.Params) (b : Bool) {s : State} (h : MicroOp.setRun ∉ s.fgq) :
    runForeground p (withRun b s) = withRun b (runForeground p s) := by
  cases hp : s.preempt with
  | none =>
    rw [runForeground_whole p hp, runForeground_whole p (s := withRun b s) hp, drain_withRun p _ b h]
    rfl
  | some n =>
    rw [runForeground_cut p hp, runForeground_cut p (s := withRun b s) hp, drain_withRun p _ b h]
    rfl

/-- Neither acceptance nor the index check looks at `RUN` (R73, R82). -/
theorem issueIndexed_withRun {p : Config.Params} {idx : Nibble} {ops : Led → List MicroOp} {s t : State} (b : Bool)
    (hops : ∀ i, MicroOp.setRun ∉ ops i) (h : issueIndexed p idx ops s = .next t) :
    issueIndexed p idx ops (withRun b s) = .next (withRun b t) := by
  rcases issueIndexed_cases h with ⟨i, ha, hi, rfl⟩ | ⟨ha, hi, rfl⟩ | ⟨ha, rfl⟩
  · rw [issueIndexed_accepted p (s := withRun b s) ops ha hi, ← runForeground_withRun p b (hops i)]
    rfl
  · exact issueIndexed_fault p (s := withRun b s) ops ha hi
  · exact issueIndexed_turned_away p (s := withRun b s) idx ops ha

/-- An accessor is an indexed command that does not queue START's micro-operation. -/
theorem exec_accessor {c : Instr} (h : isAccessor c = true) :
    ∃ idx, (∀ s, exec c s = issueIndexed Config.params idx (commandOps c) s) ∧ ∀ i, MicroOp.setRun ∉ commandOps c i := by
  cases c with
  | start | wait | finit | fstep | tick => cases h
  | _ => exact ⟨_, fun _ => rfl, fun _ => by simp [commandOps, setLedOps]⟩

/-- Settles O49: issuing, checking the index and performing commute with setting `RUN`. -/
theorem accessorsDoNotDependOnRun : Obligations.AccessorsDoNotDependOnRun := by
  intro s t c b hc h
  obtain ⟨idx, hexec, hops⟩ := exec_accessor hc
  rw [hexec] at h ⊢
  exact issueIndexed_withRun b hops h

end Sys2Proof.Proofs
end

section
/-!
Proofs of the family 42_fade: what the arguments of a fade step are (R151), what its lines f1 to f9 leave in the two bytes they
work on (R157, R158), and which LED they seed (R159).
-/

namespace Sys2Proof.Proofs

open Sys2Proof.Machine Sys2Proof.Safety

/-! The byte arithmetic (R157, R158). -/

/-- f1 and f2 take one off unless the byte is 0. -/
theorem dec8_or_kept (b : Byte) : (if belowWrap (dec8 b) then dec8 b else b) = dimmed b := by
  by_cases hb : b = 0
  · subst hb; rfl
  · have hlt : belowWrap (dec8 b) = true := by
      simp only [belowWrap, dec8, BitVec.ult_iff_lt]
      bv_omega
    rw [dimmed, if_pos hlt, if_neg hb, dec8]

/-- f5 ends the state when the byte was 255 before f4. -/
theorem wrappedToZero_inc8 (b : Byte) : wrappedToZero (inc8 b) = true ↔ b = 255 := by
  simp only [wrappedToZero, inc8, beq_iff_eq]
  bv_omega

/-! The arguments of a fade step (R151, R153 to R155). -/

section
variable {i : Led} {x : FadeState} {f : FadeArgs} (h : fadeArgs i x = some f)
include h

theorem fadeArgs_state_ne_idle : x ≠ .idle := by rintro rfl; cases h

theorem fadeArgs_nextState : f.nextState = nextFade x := by cases x <;> cases h <;> rfl

theorem fadeArgs_dec_ne_inc : f.dec ≠ f.inc := by cases x <;> cases h <;> exact nofun

/-- The byte that goes up is not at the place of the one that goes down. -/
theorem fadeArgs_topo_ne : Config.topo i f.inc ≠ Config.topo i f.dec := topo_ne_of_channel (fadeArgs_dec_ne_inc h).symm i i

/-- State 1 is the only one whose exit propagates, and there red is the incrementing channel (R153, R159). -/
theorem fadeArgs_propagate_iff : f.propagate = true ↔ x = .blueToRed ∧ f.inc = .red := by
  cases x <;> cases h <;> simp

end

/-! The LED that is seeded (R152 f6, R159). -/

theorem nextLed_eq_some_iff {i j : Led} : nextLed i = some j ↔ j.val = i.val + 1 := by
  have hj := j.isLt
  simp only [nextLed, Option.dite_none_right_eq_some, Option.some.injEq, Fin.ext_iff, exists_prop]
  omega

/-- Writing one LED's fade state leaves another's (R9). -/
theorem fs_set_other (fs : Vector FadeState 13) {j k : Led} (h : k ≠ j) (x : FadeState) :
    (fs.set j.val x)[k.val] = fs[k.val] := Vector.getElem_set_ne _ _ (Fin.val_ne_of_ne h.symm)

theorem nextLed_ne {i j : Led} (h : nextLed i = some j) : j ≠ i := by
  rintro rfl
  exact absurd (nextLed_eq_some_iff.mp h) (by omega)

theorem seeds_ne {s : State} {i j : Led} : Seeds s i j → j ≠ i := fun ⟨_, _, hnext, _⟩ => nextLed_ne hnext

theorem seededLed_eq_some_iff {f : FadeArgs} {u : State} {j : Led} :
    seededLed f u = some j ↔ nextLed f.led = some j ∧ f.propagate = true ∧ u.fs[j.val] = .idle := by
  unfold seededLed
  cases nextLed f.led with
  | none => simp
  | some k =>
    rw [Option.ite_none_right_eq_some]
    constructor
    · rintro ⟨⟨hp, hidle⟩, hk⟩
      cases hk
      exact ⟨rfl, hp, hidle⟩
    · rintro ⟨hk, hp, hidle⟩
      cases hk
      exact ⟨⟨hp, hidle⟩, rfl⟩

/-- f6, reached when the incrementing channel was 255, seeds the LED that the premises of propagation name. -/
theorem seededLed_eq_some_iff_seeds {s u : State} {i j : Led} {f : FadeArgs} (hf : fadeArgs i s.fs[i.val] = some f)
    (hwrap : s.readLB (Config.topo i f.inc) = 255) (hfs : u.fs = s.fs.set i.val f.nextState) :
    seededLed f u = some j ↔ Seeds s i j := by
  have hother (hnext : nextLed i = some j) : u.fs[j.val] = s.fs[j.val] := by
    rw [hfs, fs_set_other _ (nextLed_ne hnext)]
  rw [seededLed_eq_some_iff, fadeArgs_led hf, fadeArgs_propagate_iff hf]
  constructor
  · rintro ⟨hnext, ⟨hx, hred⟩, hidle⟩
    exact ⟨hx, hred ▸ hwrap, hnext, (hother hnext).symm.trans hidle⟩
  · rintro ⟨hx, _, hnext, hidle⟩
    rw [hx] at hf
    cases hf
    exact ⟨hnext, ⟨hx, rfl⟩, (hother hnext).trans hidle⟩

/-- Nothing is seeded while the incrementing channel is below 255 (R159). -/
theorem inc_eq_of_seeds {s : State} {i j : Led} {f : FadeArgs} (hf : fadeArgs i s.fs[i.val] = some f) (h : Seeds s i j) :
    s.readLB (Config.topo i f.inc) = 255 := by
  obtain ⟨hx, hred, _⟩ := h
  rw [hx] at hf
  cases hf
  exact hred

/-! The lines of a fade step as a whole (R152). -/

section
variable (p : Config.Params) (f : FadeArgs) (s : State)

/-- f1 to f4: the two bytes of the LED. -/
def fadeRamp : State := fadeIncrement p f (fadeDecrement p f s)

theorem fadeDecrement_fs : (fadeDecrement p f s).fs = s.fs := by unfold fadeDecrement; split <;> rfl

theorem fadeRamp_fs : (fadeRamp p f s).fs = s.fs := fadeDecrement_fs p f s

theorem readLB_fadeDecrement (k : BufferIndex) :
    (fadeDecrement p f s).readLB k = if k = p.topo f.led f.dec then dimmed (s.readLB k) else s.readLB k := by
  unfold fadeDecrement
  split_ifs with hwrap hk hk
  · rw [State.readLB_writeLB, if_pos hk, ← dec8_or_kept, hk, if_pos hwrap]
  · rw [State.readLB_writeLB, if_neg hk]
  · rw [← dec8_or_kept, hk, if_neg hwrap]
  · rfl

theorem readLB_fadeRamp {k : BufferIndex} (hinc : k ≠ p.topo f.led f.inc) :
    (fadeRamp p f s).readLB k = if k = p.topo f.led f.dec then dimmed (s.readLB k) else s.readLB k := by
  rw [fadeRamp, fadeIncrement, State.readLB_writeLB, if_neg hinc, readLB_fadeDecrement]

theorem fadeSeed_of_none (h : seededLed f s = none) : fadeSeed p f s = s := by rw [fadeSeed, h]

theorem fadeSeed_of_some {j : Led} (h : seededLed f s = some j) : fadeSeed p f s =
    { s with
      fs := s.fs.set j.val .blueToRed
      lb := writeChannels (p.topo j) (fun _ => 0) (orderChannels p.setLedOrder) s.lb } := by
  rw [fadeSeed, h]
  rfl

end

end Sys2Proof.Proofs
end

section
/-!
Proofs of the family 42_fade: an FSTEP at every point at which it can be interrupted (R55, R152). What it has changed by then and
what it may still do is an invariant of its micro-operations; the frame of FSTEP and the moves of the fade states follow.
-/

namespace Sys2Proof.Proofs

open Sys2Proof.Machine Sys2Proof.Safety

/-- Seeding queues three writes of 0 (R152 f7 to f9). -/
theorem setLedOps_black (order : ChannelOrder) (j : Led) :
    setLedOps order j 0 0 0 = writeOps j (fun _ => 0) (orderChannels order) := by
  simp [setLedOps, writeOps, orderChannels]

/-- What an FSTEP of LED `i` issued in `s` leaves unchanged, at any point of it (R151, R152, R159). -/
structure FstepFrame (s : State) (i : Led) (t : State) : Prop where
  frame : t = { s with lb := t.lb, fs := t.fs, fgq := t.fgq, preempt := t.preempt }
  bytes : ∀ k, (∀ ch, k ≠ Config.topo i ch) → (∀ j ch, Seeds s i j → k ≠ Config.topo j ch) →
    t.readLB k = s.readLB k

section
variable {s t : State} {i : Led}

theorem FstepFrame.setQueue (h : FstepFrame s i t) (q : List MicroOp) : FstepFrame s i (t.setQueue q) :=
  ⟨congrArg (·.setQueue q) h.frame, h.bytes⟩

theorem FstepFrame.uncut (h : FstepFrame s i t) : FstepFrame s i t.uncut := ⟨congrArg State.uncut h.frame, h.bytes⟩

theorem FstepFrame.writeFS (h : FstepFrame s i t) (j : Led) (x : FadeState) : FstepFrame s i (t.writeFS j x) :=
  ⟨congrArg (·.writeFS j x) h.frame, h.bytes⟩

theorem FstepFrame.writeLB {j : Led} (h : FstepFrame s i t) (hj : j = i ∨ Seeds s i j) (ch : Channel) (v : Byte) :
    FstepFrame s i (t.writeLB (Config.topo j ch) v) where
  frame := congrArg (·.writeLB (Config.topo j ch) v) h.frame
  bytes k hown hseeded := by
    have hk : k ≠ Config.topo j ch := by
      rcases hj with rfl | hj
      · exact hown ch
      · exact hseeded j ch hj
    rw [State.readLB_writeLB, if_neg hk, h.bytes k hown hseeded]

end

/-- A line of FSTEP before the one that moves the LED on, queued in `t` by an FSTEP of LED `i` issued in `s`: until f4 the byte of
the incrementing channel is the one it was, and from f4 on `w` is the next one (R152). -/
def FadeLine (s : State) (i : Led) (t : State) : MicroOp → Prop
  | .fadeSelect j => j = i ∧ t.lb = s.lb
  | .fadeF1 f | .fadeF2 f _ | .fadeF3 f =>
    fadeArgs i s.fs[i.val] = some f ∧ t.readLB (Config.topo i f.inc) = s.readLB (Config.topo i f.inc)
  | .fadeF4 f w | .fadeF5 f w => fadeArgs i s.fs[i.val] = some f ∧ w = inc8 (s.readLB (Config.topo i f.inc))
  | _ => False

/-- How far an FSTEP of LED `i` issued in `s` has come in `t`. -/
inductive FstepStage (s : State) (i : Led) (t : State) : Prop where
  /-- no fade state is changed. -/
  | ramp (queue : t.fgq = [] ∨ ∃ op, t.fgq = [op] ∧ FadeLine s i t op) (fs : t.fs = s.fs)
  /-- the LED has moved on (f5). -/
  | moved (f : FadeArgs) (args : fadeArgs i s.fs[i.val] = some f) (wrap : s.readLB (Config.topo i f.inc) = 255)
      (queue : t.fgq = [] ∨ t.fgq = [.fadeF6 f]) (fs : t.fs = s.fs.set i.val f.nextState)
  /-- and the next LED has entered state 1 and is being made black (f6 to f9). -/
  | seeding (f : FadeArgs) (args : fadeArgs i s.fs[i.val] = some f) (j : Led) (seeds : Seeds s i j) (chs : List Channel)
      (queue : t.fgq = writeOps j (fun _ => 0) chs) (fs : t.fs = (s.fs.set i.val f.nextState).set j.val .blueToRed)

theorem FstepStage.uncut {s t : State} {i : Led} (h : FstepStage s i t) : FstepStage s i t.uncut := by
  cases h with
  | ramp queue fs => exact .ramp queue fs
  | moved f args wrap queue fs => exact .moved f args wrap queue fs
  | seeding f args j seeds chs queue fs => exact .seeding f args j seeds chs queue fs

section
variable {s u : State} {i : Led} (hframe : FstepFrame s i u) (hq : u.fgq = [])
include hframe hq

/-- The lines up to f5, each alone in the queue. -/
theorem fstepStage_perform_line {op : MicroOp} (hop : FadeLine s i u op) (hfs : u.fs = s.fs) :
    FstepFrame s i (perform Config.params op u) ∧ FstepStage s i (perform Config.params op u) := by
  cases op with
  | fadeSelect j =>
    obtain ⟨rfl, hlb⟩ := hop
    simp only [perform]
    cases hf : fadeArgs j u.fs[j.val] with
    | none => exact ⟨hframe, .ramp (.inl hq) hfs⟩
    | some f =>
      exact ⟨hframe.setQueue _,
        .ramp (.inr ⟨.fadeF1 f, congrArg _ hq, hfs ▸ hf, State.readLB_congr hlb _⟩) hfs⟩
  | fadeF1 f => exact ⟨hframe.setQueue _, .ramp (.inr ⟨_, congrArg _ hq, hop⟩) hfs⟩
  | fadeF2 f v =>
    obtain ⟨hf, hinc⟩ := hop
    have hled := fadeArgs_led hf
    simp only [perform, hled]
    split
    · refine ⟨(hframe.writeLB (.inl rfl) f.dec v).setQueue _, .ramp (.inr ⟨.fadeF3 f, congrArg _ hq, hf, ?_⟩) hfs⟩
      exact (State.readLB_writeLB u _ _ v).trans ((if_neg (fadeArgs_topo_ne hf)).trans hinc)
    · exact ⟨hframe.setQueue _, .ramp (.inr ⟨.fadeF3 f, congrArg _ hq, hf, hinc⟩) hfs⟩
  | fadeF3 f =>
    obtain ⟨hf, hinc⟩ := hop
    have hled := fadeArgs_led hf
    exact ⟨hframe.setQueue _, .ramp (.inr ⟨_, congrArg _ hq, hf, by rw [hled]; exact congrArg inc8 hinc⟩) hfs⟩
  | fadeF4 f w =>
    have hled := fadeArgs_led hop.1
    simp only [perform, hled]
    exact ⟨(hframe.writeLB (.inl rfl) f.inc w).setQueue _, .ramp (.inr ⟨_, congrArg _ hq, hop⟩) hfs⟩
  | fadeF5 f w =>
    obtain ⟨hf, rfl⟩ := hop
    simp only [perform, wrappedToZero_inc8, fadeArgs_led hf]
    split
    · next hwrap => exact ⟨(hframe.writeFS _ _).setQueue _, .moved f hf hwrap (.inr (congrArg _ hq)) (by simp [hfs])⟩
    · exact ⟨hframe, .ramp (.inl hq) hfs⟩
  | _ => exact hop.elim

/-- f6, which reads the Fade State Table after f5 has moved the LED on. -/
theorem fstepStage_perform_f6 {f : FadeArgs} (hf : fadeArgs i s.fs[i.val] = some f)
    (hwrap : s.readLB (Config.topo i f.inc) = 255) (hfs : u.fs = s.fs.set i.val f.nextState) :
    FstepFrame s i (perform Config.params (.fadeF6 f) u) ∧ FstepStage s i (perform Config.params (.fadeF6 f) u) := by
  simp only [perform]
  cases hj : seededLed f u with
  | none => exact ⟨hframe, .moved f hf hwrap (.inl hq) hfs⟩
  | some j =>
    have hseeds := (seededLed_eq_some_iff_seeds hf hwrap hfs).mp hj
    refine ⟨(hframe.writeFS _ _).setQueue _,
      .seeding f hf j hseeds (orderChannels Config.params.setLedOrder) ?_ (by simp [hfs])⟩
    rw [State.proceed_fgq, State.writeFS_fgq, hq, List.append_nil, setLedOps_black]

end

/-- Every micro-operation of an FSTEP keeps its frame and brings it to one of its stages. -/
theorem fstepStage_perform {s t : State} {i : Led} {op : MicroOp} {rest : List MicroOp} (hq : t.fgq = op :: rest)
    (hframe : FstepFrame s i t) (hstage : FstepStage s i t) :
    FstepFrame s i (perform Config.params op (t.setQueue rest)) ∧
      FstepStage s i (perform Config.params op (t.setQueue rest)) := by
  have hframe' := hframe.setQueue rest
  cases hstage with
  | ramp queue fs =>
    rcases queue with hnil | ⟨line, hline, hop⟩
    · cases hq.symm.trans hnil
    · obtain ⟨rfl, rfl⟩ := List.cons.inj (hq.symm.trans hline)
      exact fstepStage_perform_line hframe' rfl hop fs
  | moved f args wrap queue fs =>
    rcases queue with hnil | hf6
    · cases hq.symm.trans hnil
    · obtain ⟨rfl, rfl⟩ := List.cons.inj (hq.symm.trans hf6)
      exact fstepStage_perform_f6 hframe' rfl args wrap fs
  | seeding f args j seeds chs queue fs =>
    cases chs with
    | nil => cases hq.symm.trans queue
    | cons ch chs =>
      obtain ⟨rfl, rfl⟩ := List.cons.inj (hq.symm.trans queue)
      exact ⟨hframe'.writeLB (.inr seeds) ch 0, .seeding f args j seeds chs rfl fs⟩

theorem fstepStage_runForeground (s : State) (i : Led) :
    FstepFrame s i (runForeground Config.params (s.setQueue [.fadeSelect i])) ∧
      FstepStage s i (runForeground Config.params (s.setQueue [.fadeSelect i])) :=
  runForeground_induct (P := fun t => FstepFrame s i t ∧ FstepStage s i t) Config.params
    (fun _ _ _ hq ⟨hframe, hstage⟩ => fstepStage_perform hq hframe hstage)
    (fun _ ⟨hframe, hstage⟩ => ⟨hframe.uncut, hstage.uncut⟩)
    ⟨⟨rfl, fun _ _ _ => rfl⟩, .ramp (.inr ⟨_, rfl, rfl, rfl⟩) rfl⟩

/-- An FSTEP is turned away or faults on its index, or it runs to one of its stages. -/
theorem exec_fstep_cases {s t : State} {idx : Nibble} (h : exec (.fstep idx) s = .next t) :
    t = { s with fault := t.fault, preempt := none } ∨
      ∃ i, ledOfIdx idx = some i ∧ t.preempt = none ∧ FstepFrame s i t ∧ FstepStage s i t := by
  rcases issueIndexed_cases h with ⟨i, _, hi, rfl⟩ | ⟨_, _, rfl⟩ | ⟨_, rfl⟩
  · exact .inr ⟨i, hi, runForeground_preempt _ _, fstepStage_runForeground s i⟩
  · exact .inl rfl
  · exact .inl rfl

/-- f5 moves its LED on in the cycle 1, 2, 3, 1 and leaves the others (R161). -/
theorem fs_moved_cases {fs : Vector FadeState 13} {i : Led} {f : FadeArgs} (hf : fadeArgs i fs[i.val] = some f) (k : Led) :
    (fs.set i.val f.nextState)[k.val] = fs[k.val] ∨
      (k = i ∧ fs[k.val] ≠ .idle ∧ (fs.set i.val f.nextState)[k.val] = nextFade fs[k.val]) := by
  by_cases hk : k = i
  · subst hk
    exact .inr ⟨rfl, fadeArgs_state_ne_idle hf, (Vector.getElem_set_self _).trans (fadeArgs_nextState hf)⟩
  · exact .inl (fs_set_other _ hk _)

/-- The fade state of LED `k` at any point of an FSTEP of LED `i` (R153 to R156). -/
theorem FstepStage.fs_cases {s t : State} {i : Led} (h : FstepStage s i t) (k : Led) :
    t.fs[k.val] = s.fs[k.val] ∨ (k = i ∧ s.fs[k.val] ≠ .idle ∧ t.fs[k.val] = nextFade s.fs[k.val]) ∨
      Seeds s i k ∧ t.fs[k.val] = .blueToRed := by
  cases h with
  | ramp _ fs => exact .inl (congrArg (·[k.val]) fs)
  | moved f args _ _ fs => rw [fs]; exact (fs_moved_cases args k).imp_right .inl
  | seeding f args j seeds _ _ fs =>
    rw [fs]
    by_cases hk : k = j
    · exact .inr (.inr ⟨hk ▸ seeds, hk ▸ Vector.getElem_set_self _⟩)
    · rw [fs_set_other _ hk]
      exact (fs_moved_cases args k).imp_right .inl

/-- Settles O48: what an FSTEP changes at any point of it. -/
theorem frameOfFstep : Obligations.FrameOfFstep := by
  intro s t idx h
  rcases exec_fstep_cases h with ht | ⟨i, hi, hpreempt, ⟨hframe, hbytes⟩, hstage⟩
  · rw [ht]
    exact ⟨rfl, fun _ _ _ => rfl, fun _ _ _ => rfl⟩
  · have hfault : t.fault = s.fault := by rw [hframe]
    refine ⟨hfault ▸ hpreempt ▸ hframe,
      fun k hown hseeded => hbytes k (fun ch => hown i ch hi) fun j ch => hseeded i j ch hi, fun j hj hseeds => ?_⟩
    rcases hstage.fs_cases j with hsame | ⟨rfl, _⟩ | ⟨hs, _⟩
    · exact hsame
    · exact absurd hi hj
    · exact absurd hs (hseeds i hi)

/-! The fade states over every instruction (R156, R161). -/

/-- The micro-operations that neither write a fade state nor queue another. -/
def Passive : MicroOp → Prop
  | .setRun | .write _ _ _ | .read _ _ | .loadWait _ => True
  | _ => False

theorem perform_passive (p : Config.Params) {op : MicroOp} (h : Passive op) (s : State) :
    (perform p op s).fs = s.fs ∧ (perform p op s).fgq = s.fgq := by
  cases op with
  | setRun | write | read | loadWait => exact ⟨rfl, rfl⟩
  | _ => exact h.elim

theorem runForeground_fs_of_passive (p : Config.Params) {s : State} (h : ∀ op ∈ s.fgq, Passive op) :
    (runForeground p s).fs = s.fs :=
  (runForeground_induct (P := fun t => t.fs = s.fs ∧ ∀ op ∈ t.fgq, Passive op) p
    (fun op rest t hq ⟨hfs, hpassive⟩ => by
      rw [hq, List.forall_mem_cons] at hpassive
      obtain ⟨hfs', hfgq⟩ := perform_passive p hpassive.1 (t.setQueue rest)
      exact ⟨hfs'.trans hfs, hfgq ▸ hpassive.2⟩)
    (fun _ ht => ht) ⟨rfl, h⟩).1

/-- Only the two commands of the fade state machine queue anything else (R150, R151). -/
theorem passive_of_mem_commandOps {c : Instr} {i : Led} (hfinit : c ≠ .finit) (hfstep : ∀ idx, c ≠ .fstep idx) :
    ∀ op ∈ commandOps c i, Passive op := by
  cases c with
  | finit => exact absurd rfl hfinit
  | fstep idx => exact absurd rfl (hfstep idx)
  | _ => simp [commandOps, setLedOps, Passive]

/-- No instruction but FINIT and FSTEP writes the Fade State Table. -/
theorem exec_fs_of_ne_fade {c : Instr} {s t : State} (hfinit : c ≠ .finit) (hfstep : ∀ idx, c ≠ .fstep idx)
    (h : exec c s = .next t) : t.fs = s.fs := by
  by_cases hc : c = .tick
  · subst hc
    rcases exec_tick_cases h with ⟨_, rfl⟩ | ⟨_, rfl⟩
    · exact (tick_sameForeground s).fs
    · rfl
  · rcases exec_command_cases hc h with ⟨_, rfl⟩ | ⟨_, _, rfl⟩ | ⟨i, _, _, rfl⟩
    · rfl
    · rfl
    · exact runForeground_fs_of_passive _ (s := s.setQueue (commandOps c i)) (passive_of_mem_commandOps hfinit hfstep)

theorem eq_idxOf_of_ledOfIdx {idx : Nibble} {i : Led} (h : ledOfIdx idx = some i) : idx = idxOf i := by
  revert idx i
  decide

/-- Everything an instruction other than FINIT can do to the fade state of LED `k`. -/
theorem exec_fs_cases {c : Instr} {s t : State} (h : exec c s = .next t) (hfinit : c ≠ .finit) (k : Led) :
    t.fs[k.val] = s.fs[k.val] ∨
      (c = .fstep (idxOf k) ∧ s.fs[k.val] ≠ .idle ∧ t.fs[k.val] = nextFade s.fs[k.val]) ∨
      ∃ i, c = .fstep (idxOf i) ∧ Seeds s i k ∧ t.fs[k.val] = .blueToRed := by
  by_cases hfstep : ∃ idx, c = .fstep idx
  · obtain ⟨idx, rfl⟩ := hfstep
    rcases exec_fstep_cases h with ht | ⟨i, hi, _, _, hstage⟩
    · exact .inl (by rw [ht])
    · obtain rfl := eq_idxOf_of_ledOfIdx hi
      rcases hstage.fs_cases k with hsame | ⟨rfl, hmove⟩ | hseed
      · exact .inl hsame
      · exact .inr (.inl ⟨rfl, hmove⟩)
      · exact .inr (.inr ⟨i, rfl, hseed⟩)
  · exact .inl (congrArg (·[k.val]) (exec_fs_of_ne_fade hfinit (not_exists.mp hfstep) h))

/-- Settles O27: an FSTEP moves its own LED on by f5 or the next one by f6, and no other instruction but FINIT writes `FS`. -/
theorem fadeStatesCycle : Obligations.FadeStatesCycle := by
  intro s t c k h
  by_cases hfinit : c = .finit
  · exact .inr (.inl hfinit)
  · rcases exec_fs_cases h hfinit k with hsame | hown | ⟨i, hc, ⟨_, _, hnext, hidle⟩, ht⟩
    · exact .inl hsame
    · exact .inr (.inr (.inl hown))
    · exact .inr (.inr (.inr ⟨i, hnext, hc, hidle, ht⟩))

/-- At every point of a FINIT a LED other than LED 0 that was idle is idle (R150). -/
theorem runForeground_finit_idle (p : Config.Params) {s : State} {k : Led} (hk : k ≠ 0) (h : s.fs[k.val] = .idle) :
    (runForeground p (s.setQueue [.clearFade, .seedFirst])).fs[k.val] = .idle :=
  (runForeground_induct (P := fun t => t.fs[k.val] = .idle ∧ t.fgq ⊆ [.clearFade, .seedFirst]) p
    (s := s.setQueue [.clearFade, .seedFirst])
    (fun op rest t hq ⟨hidle, hsub⟩ => by
      rw [hq, List.cons_subset] at hsub
      obtain ⟨hop, hrest⟩ := hsub
      simp only [List.mem_cons, List.not_mem_nil, or_false] at hop
      rcases hop with rfl | rfl
      · exact ⟨Vector.getElem_replicate _, hrest⟩
      · exact ⟨(fs_set_other t.fs hk .blueToRed).trans hidle, hrest⟩)
    (fun _ ht => ht) ⟨h, List.Subset.refl _⟩).1

theorem exec_finit_idle {s t : State} {k : Led} (h : exec .finit s = .next t) (hk : k ≠ 0) (hidle : s.fs[k.val] = .idle) :
    t.fs[k.val] = .idle := by
  rcases issue_cases h with ⟨_, rfl⟩ | ⟨_, rfl⟩
  · exact runForeground_finit_idle _ hk hidle
  · exact hidle

/-- The second part of R156: an idle LED is started by FINIT or seeded. -/
theorem idle_left_cases {c : Instr} {s t : State} {k : Led} (h : exec c s = .next t) (hs : s.fs[k.val] = .idle)
    (ht : t.fs[k.val] ≠ .idle) : (c = .finit ∧ k = 0) ∨ ∃ i, c = .fstep (idxOf i) ∧ Seeds s i k := by
  by_cases hfinit : c = .finit
  · subst hfinit
    exact .inl ⟨rfl, by_contra fun hk => ht (exec_finit_idle h hk hs)⟩
  · rcases exec_fs_cases h hfinit k with hsame | ⟨_, hne, _⟩ | ⟨i, hc, hseeds, _⟩
    · exact absurd (hsame.trans hs) ht
    · exact absurd hs hne
    · exact .inr ⟨i, hc, hseeds⟩

/-- An FSTEP of LED `i`, at any point of it, changes another LED's state or colour only by seeding it (R159). -/
theorem seeds_of_changed {s t : State} {i j : Led} (h : exec (.fstep (idxOf i)) s = .next t) (hj : j ≠ i)
    (hchanged : t.fs[j.val] ≠ s.fs[j.val] ∨ ∃ ch, t.readLB (Config.topo j ch) ≠ s.readLB (Config.topo j ch)) :
    Seeds s i j := by
  obtain ⟨_, hbytes, hstates⟩ := frameOfFstep s t _ h
  have only {l : Led} (hl : ledOfIdx (idxOf i) = some l) : i = l := Option.some.inj ((ledOfIdx_idxOf i).symm.trans hl)
  by_contra hnot
  rcases hchanged with hfs | ⟨ch, hread⟩
  · exact hfs (hstates j (fun hl => hj (only hl).symm) fun l hl hseeds => hnot (only hl ▸ hseeds))
  · refine hread (hbytes _ (fun l dh hl => topo_ne_of_led (only hl ▸ hj) ch dh) fun l k dh hl hseeds heq => hnot ?_)
    rw [only hl, (topo_injective heq).1]
    exact hseeds

end Sys2Proof.Proofs
end

section
/-!
Proofs of the family 42_fade: FINIT and FSTEP accepted and not interrupted (R150 to R156), and the ramp of 256 FSTEPs (R160).
-/

namespace Sys2Proof.Proofs

open Sys2Proof.Machine Sys2Proof.Safety

/-- FINIT as a whole (R150). -/
theorem exec_finit {s : State} (hs : Ready s) : exec .finit s = .next ((s.fillFS .idle).writeFS 0 .blueToRed) :=
  calc exec .finit s = issue Config.params [.clearFade, .seedFirst] s := rfl
    _ = .next (((s.fillFS .idle).writeFS 0 .blueToRed).setQueue []) := by
      rw [issue_accepted _ _ (accepting_of_ready hs), run_finit _ hs.whole]
    _ = _ := congrArg Host.Outcome.next (State.setQueue_of_eq hs.queue)

/-- Settles O21: m2 writes LED 0 after m1 has written them all. -/
theorem finitSeedsLedZero : Obligations.FinitSeedsLedZero := fun _ hs =>
  ⟨_, exec_finit hs, rfl, Vector.getElem_set_self _, fun _ hi =>
    (fs_set_other _ hi _).trans (Vector.getElem_replicate _)⟩

/-- FSTEP as a whole (R151). -/
theorem exec_fstep {s : State} (hs : Ready s) (i : Led) :
    exec (.fstep (idxOf i)) s = .next ((fstepWhole Config.params i s).setQueue []) :=
  calc exec (.fstep (idxOf i)) s = issueIndexed Config.params (idxOf i) (fun j => [.fadeSelect j]) s := rfl
    _ = _ := by rw [issueIndexed_accepted _ _ (accepting_of_ready hs) (ledOfIdx_idxOf i), run_fstep _ i hs.whole]

/-- Settles O22: `fade` is not called in state 0. -/
theorem idleLedStaysIdle : Obligations.IdleLedStaysIdle := by
  refine ⟨fun s i hs hidle => ?_, fun _ _ _ _ h => idle_left_cases h⟩
  rw [exec_fstep hs, fstepWhole, hidle]
  exact congrArg Host.Outcome.next (State.setQueue_of_eq hs.queue)

section
variable {s : State} {i : Led} {f : FadeArgs} (hf : fadeArgs i s.fs[i.val] = some f)
include hf

/-- f1 and f2 leave the byte of the incrementing channel alone. -/
theorem readLB_fadeDecrement_inc :
    (fadeDecrement Config.params f s).readLB (Config.topo i f.inc) = s.readLB (Config.topo i f.inc) := by
  rw [readLB_fadeDecrement, fadeArgs_led hf]
  exact if_neg (fadeArgs_topo_ne hf)

theorem fstepWhole_of_started : fstepWhole Config.params i s =
    if s.readLB (Config.topo i f.inc) = 255 then
      fadeSeed Config.params f ((fadeRamp Config.params f s).writeFS i f.nextState)
    else fadeRamp Config.params f s := by
  rw [fstepWhole, hf]
  simp only [fadeWhole, wrappedToZero_inc8, fadeArgs_led hf, ← readLB_fadeDecrement_inc hf]
  rfl

theorem seededLed_fadeRamp_iff {j : Led} (hinc : s.readLB (Config.topo i f.inc) = 255) :
    seededLed f ((fadeRamp Config.params f s).writeFS i f.nextState) = some j ↔ Seeds s i j :=
  seededLed_eq_some_iff_seeds hf hinc (congrArg (·.set i.val f.nextState) (fadeRamp_fs _ _ _))

/-- Below 255 there is only the ramp. -/
theorem fstepWhole_of_inc_ne (hinc : s.readLB (Config.topo i f.inc) ≠ 255) :
    fstepWhole Config.params i s = fadeRamp Config.params f s := by
  rw [fstepWhole_of_started hf, if_neg hinc]

/-- At 255 with no LED to seed, the LED moves on. -/
theorem fstepWhole_of_no_seeds (hinc : s.readLB (Config.topo i f.inc) = 255) (hseeds : ∀ j, ¬ Seeds s i j) :
    fstepWhole Config.params i s = (fadeRamp Config.params f s).writeFS i f.nextState := by
  rw [fstepWhole_of_started hf, if_pos hinc]
  refine fadeSeed_of_none _ _ _ (Option.eq_none_iff_forall_ne_some.mpr fun j hj => ?_)
  exact hseeds j ((seededLed_fadeRamp_iff hf hinc).mp hj)

theorem fstepWhole_of_seeds {j : Led} (hseeds : Seeds s i j) : fstepWhole Config.params i s =
    { fadeRamp Config.params f s with
      fs := (s.fs.set i.val f.nextState).set j.val .blueToRed
      lb := writeChannels (Config.topo j) (fun _ => 0) (orderChannels Config.setLedOrder) (fadeRamp Config.params f s).lb } := by
  have hinc := inc_eq_of_seeds hf hseeds
  rw [fstepWhole_of_started hf, if_pos hinc, fadeSeed_of_some _ _ _ ((seededLed_fadeRamp_iff hf hinc).mpr hseeds),
    State.writeFS_fs, fadeRamp_fs]
  rfl

/-- Seeding leaves the bytes of the LED stepped as the ramp left them. -/
theorem readLB_fstepWhole_own (ch : Channel) : (fstepWhole Config.params i s).readLB (Config.topo i ch) =
    (fadeRamp Config.params f s).readLB (Config.topo i ch) := by
  by_cases hseeds : ∃ j, Seeds s i j
  · obtain ⟨j, hj⟩ := hseeds
    rw [fstepWhole_of_seeds hf hj]
    exact read_writeChannels_of_forall_ne (fun dh _ => Fin.val_ne_of_ne (topo_ne_of_led (seeds_ne hj).symm ch dh)) _
  · by_cases hinc : s.readLB (Config.topo i f.inc) = 255
    · rw [fstepWhole_of_no_seeds hf hinc (not_exists.mp hseeds)]
      rfl
    · rw [fstepWhole_of_inc_ne hf hinc]

end

/-- The result of an FSTEP of the started LED `i`, whose arguments for `fade` are `f` (R152 to R155). -/
structure FstepResult (s : State) (i : Led) (f : FadeArgs) (t : State) : Prop where
  frame : t = { s with lb := t.lb, fs := t.fs }
  inc : t.readLB (Config.topo i f.inc) = s.readLB (Config.topo i f.inc) + 1
  dec : t.readLB (Config.topo i f.dec) = dimmed (s.readLB (Config.topo i f.dec))
  other : ∀ ch, ch ≠ f.inc → ch ≠ f.dec → t.readLB (Config.topo i ch) = s.readLB (Config.topo i ch)
  elsewhere : ∀ k, (∀ ch, k ≠ Config.topo i ch) → (∀ j ch, Seeds s i j → k ≠ Config.topo j ch) →
    t.readLB k = s.readLB k
  stays : s.readLB (Config.topo i f.inc) ≠ 255 → t.fs = s.fs
  moves : s.readLB (Config.topo i f.inc) = 255 → (∀ j, ¬ Seeds s i j) → t.fs = s.fs.set i.val f.nextState
  seeds : ∀ j, Seeds s i j → t.fs = (s.fs.set i.val f.nextState).set j.val .blueToRed ∧ shows t j 0 0 0

theorem exec_fstep_result {s : State} {i : Led} {f : FadeArgs} (hs : Ready s) (hf : fadeArgs i s.fs[i.val] = some f) :
    ∃ t, exec (.fstep (idxOf i)) s = .next t ∧ FstepResult s i f t := by
  have hled := fadeArgs_led hf
  have hframe := (fstepStage_runForeground s i).1
  rw [run_fstep _ i hs.whole] at hframe
  have hwhole : (fstepWhole Config.params i s).preempt = s.preempt := by
    rw [fstepWhole, hf]
    exact fadeWhole_preempt _ _ _
  have hown {ch : Channel} (hch : ch ≠ f.inc) : (fstepWhole Config.params i s).readLB (Config.topo i ch) =
      if Config.topo i ch = Config.topo i f.dec then dimmed (s.readLB (Config.topo i ch))
      else s.readLB (Config.topo i ch) := by
    rw [readLB_fstepWhole_own hf, readLB_fadeRamp, hled]
    · rfl
    · exact hled ▸ topo_ne_of_channel hch i i
  refine ⟨_, exec_fstep hs i,
    { frame := hframe.frame.trans ?_
      inc := (readLB_fstepWhole_own hf f.inc).trans ?_
      dec := (hown (fadeArgs_dec_ne_inc hf)).trans (if_pos rfl)
      other := fun ch hinc hdec => (hown hinc).trans (if_neg (topo_ne_of_channel hdec i i))
      elsewhere := hframe.bytes
      stays := fun hinc => ?_
      moves := fun hinc hseeds => ?_
      seeds := fun j hseeds => ?_ }⟩
  · rw [State.setQueue_preempt, hwhole, State.setQueue_fgq, ← hs.queue]
  · rw [fadeRamp, fadeIncrement, hled, ← readLB_fadeDecrement_inc hf]
    exact (State.readLB_writeLB _ _ _ _).trans (if_pos rfl)
  · rw [fstepWhole_of_inc_ne hf hinc]
    exact fadeRamp_fs _ _ _
  · rw [fstepWhole_of_no_seeds hf hinc hseeds]
    exact congrArg (·.set i.val f.nextState) (fadeRamp_fs _ _ _)
  · rw [fstepWhole_of_seeds hf hseeds]
    have hblack := fun ch => read_writeChannels_of_mem (colour := fun _ => 0) (topo_led_injective j)
      (mem_orderChannels Config.setLedOrder ch) (fadeRamp Config.params f s).lb
    exact ⟨rfl, hblack .red, hblack .green, hblack .blue⟩

/-- Settles O23: in state 1 red goes up and blue goes down; another LED changes only by being seeded. -/
theorem fadeStepInStateOne : Obligations.FadeStepInStateOne := by
  refine ⟨fun s i hs hx => ?_, fun s t i j h hj hchanged => (seeds_of_changed h hj (.inl hchanged)).1⟩
  obtain ⟨t, hexec, r⟩ := exec_fstep_result (i := i) hs (by rw [hx]; rfl)
  exact ⟨t, hexec, r.frame, ⟨r.inc, r.other .green nofun nofun, r.dec⟩, r.stays, r.moves, r.seeds, r.elsewhere⟩

/-- The exits of states 2 and 3 seed no LED (R154, R155). -/
theorem FstepResult.of_ne_stateOne {s t : State} {i : Led} {f : FadeArgs} (r : FstepResult s i f t)
    (hx : s.fs[i.val] ≠ .blueToRed) :
    t.fs = (if s.readLB (Config.topo i f.inc) = 255 then s.fs.set i.val f.nextState else s.fs) ∧
      ∀ k, (∀ ch, k ≠ Config.topo i ch) → t.readLB k = s.readLB k := by
  have hseeds (j : Led) : ¬ Seeds s i j := fun h => hx h.1
  refine ⟨?_, fun k hk => r.elsewhere k hk fun j _ h => absurd h (hseeds j)⟩
  split_ifs with hinc
  · exact r.moves hinc hseeds
  · exact r.stays hinc

/-- Settles O24: in state 2 green goes up and red goes down. -/
theorem fadeStepInStateTwo : Obligations.FadeStepInStateTwo := by
  intro s i hs hx
  obtain ⟨t, hexec, r⟩ := exec_fstep_result (i := i) hs (by rw [hx]; rfl)
  exact ⟨t, hexec, r.frame, ⟨r.dec, r.inc, r.other .blue nofun nofun⟩, r.of_ne_stateOne (hx ▸ nofun)⟩

/-- Settles O25: in state 3 blue goes up and green goes down. -/
theorem fadeStepInStateThree : Obligations.FadeStepInStateThree := by
  intro s i hs hx
  obtain ⟨t, hexec, r⟩ := exec_fstep_result (i := i) hs (by rw [hx]; rfl)
  exact ⟨t, hexec, r.frame, ⟨r.other .red nofun nofun, r.dec, r.inc⟩, r.of_ne_stateOne (hx ▸ nofun)⟩

theorem nextFade_ne_idle {x : FadeState} (h : x ≠ .idle) : nextFade x ≠ .idle := by
  cases x with
  | idle => exact absurd rfl h
  | _ => exact nofun

/-- Settles O26: a started LED only moves on in its cycle, so it is not idle again until FINIT. -/
theorem propagationReachesOnlyTheNextLed : Obligations.PropagationReachesOnlyTheNextLed := by
  refine ⟨fun _ _ _ _ => seeds_of_changed, fun s i j hs hseeds => ?_,
    fun s i j ⟨_, _, hnext, hidle⟩ => ⟨nextLed_eq_some_iff.mp hnext, hidle⟩, fun s t c j h hfinit hj => ?_⟩
  · obtain ⟨t, hexec, r⟩ := exec_fstep_result (i := i) hs (by rw [hseeds.1]; rfl)
    obtain ⟨hfs, hblack⟩ := r.seeds j hseeds
    exact ⟨t, hexec, hfs ▸ Vector.getElem_set_self _, hblack⟩
  · rcases exec_fs_cases h hfinit j with hsame | ⟨_, _, hmove⟩ | ⟨i, _, _, hseed⟩
    · exact hsame ▸ hj
    · exact hmove ▸ nextFade_ne_idle hj
    · exact hseed ▸ nofun

/-! The ramp (R160). -/

theorem repeatExec_succ {c : Instr} {n : Nat} {s t : State} (h : repeatExec c n s = .next t) :
    repeatExec c (n + 1) s = exec c t := by
  induction n generalizing s with
  | zero =>
    obtain rfl := Host.Outcome.next.inj h
    rw [repeatExec]
    cases exec c s <;> rfl
  | succ n ih =>
    rw [repeatExec] at h ⊢
    cases hc : exec c s with
    | next u => rw [hc] at h; exact ih h
    | fault r => rw [hc] at h; cases h
    | refused r => rw [hc] at h; cases h

theorem FstepResult.ready {s t : State} {i : Led} {f : FadeArgs} (r : FstepResult s i f t) (hs : Ready s) : Ready t := by
  rw [r.frame]
  exact ⟨hs.noFault, hs.queue, hs.wait, hs.whole⟩

/-- LED `i` after `n` FSTEPs from black in the fade states `fs`: the incrementing channel is at `n`, the other two at 0. -/
structure OnRamp (fs : Vector FadeState 13) (i : Led) (f : FadeArgs) (n : Nat) (t : State) : Prop where
  ready : Ready t
  fs : t.fs = fs
  inc : t.readLB (Config.topo i f.inc) = BitVec.ofNat 8 n
  others : ∀ ch, ch ≠ f.inc → t.readLB (Config.topo i ch) = 0

section
variable {fs : Vector FadeState 13} {i : Led} {f : FadeArgs} (hf : fadeArgs i fs[i.val] = some f)
include hf

/-- One more FSTEP: the decrementing channel is held at 0 (R157). -/
theorem OnRamp.exec_fstep {n : Nat} {s : State} (h : OnRamp fs i f n s) : ∃ t, exec (.fstep (idxOf i)) s = .next t ∧
    FstepResult s i f t ∧ t.readLB (Config.topo i f.inc) = BitVec.ofNat 8 (n + 1) ∧
      ∀ ch, ch ≠ f.inc → t.readLB (Config.topo i ch) = 0 := by
  obtain ⟨t, hexec, r⟩ := exec_fstep_result h.ready (h.fs ▸ hf)
  refine ⟨t, hexec, r, by rw [r.inc, h.inc, BitVec.ofNat_add]; rfl, fun ch hch => ?_⟩
  by_cases hdec : ch = f.dec
  · rw [hdec, r.dec, h.others _ (fadeArgs_dec_ne_inc hf)]
    rfl
  · rw [r.other ch hch hdec, h.others ch hch]

/-- Below 256 FSTEPs the state does not end (R158). -/
theorem onRamp_repeatExec {s : State} (h : OnRamp fs i f 0 s) {n : Nat} (hn : n < 256) :
    ∃ t, repeatExec (.fstep (idxOf i)) n s = .next t ∧ OnRamp fs i f n t := by
  induction n with
  | zero => exact ⟨s, rfl, h⟩
  | succ n ih =>
    obtain ⟨u, hu, hramp⟩ := ih (Nat.lt_of_succ_lt hn)
    obtain ⟨t, hexec, r, hinc, hothers⟩ := hramp.exec_fstep hf
    have hbelow : u.readLB (Config.topo i f.inc) ≠ 255 := by
      rw [hramp.inc]
      bv_omega
    exact ⟨t, (repeatExec_succ hu).trans hexec, r.ready hramp.ready, (r.stays hbelow).trans hramp.fs, hinc, hothers⟩

end

/-- At 255 the LED moves on, whether it seeds another or not (R158). -/
theorem FstepResult.fs_of_wrap {s t : State} {i : Led} {f : FadeArgs} (r : FstepResult s i f t)
    (hinc : s.readLB (Config.topo i f.inc) = 255) : t.fs[i.val] = f.nextState := by
  by_cases hseeds : ∃ j, Seeds s i j
  · obtain ⟨j, hj⟩ := hseeds
    rw [(r.seeds j hj).1, fs_set_other _ (seeds_ne hj).symm, Vector.getElem_set_self]
  · rw [r.moves hinc (not_exists.mp hseeds), Vector.getElem_set_self]

theorem shows_black_iff {s : State} {i : Led} : shows s i 0 0 0 ↔ ∀ ch, s.readLB (Config.topo i ch) = 0 :=
  ⟨fun ⟨hr, hg, hb⟩ ch => by cases ch <;> assumption, fun h => ⟨h .red, h .green, h .blue⟩⟩

/-- Settles O29: the ramp up to 255, and one more FSTEP. -/
theorem fadeStateLasts256Steps : Obligations.FadeStateLasts256Steps := by
  intro s i f hs hf hblack
  have hblack := shows_black_iff.mp hblack
  have hstart : OnRamp s.fs i f 0 s := ⟨hs, rfl, hblack f.inc, fun ch _ => hblack ch⟩
  refine ⟨fun n hn => ?_, ?_⟩
  · obtain ⟨t, ht, hramp⟩ := onRamp_repeatExec hf hstart hn
    exact ⟨t, ht, hramp.fs, hramp.inc, hramp.others⟩
  · obtain ⟨u, hu, hramp⟩ := onRamp_repeatExec hf hstart (n := 255) (by decide)
    obtain ⟨t, hexec, r, hinc, hothers⟩ := hramp.exec_fstep hf
    refine ⟨t, (repeatExec_succ hu).trans hexec, (r.fs_of_wrap hramp.inc).trans (fadeArgs_nextState hf),
      shows_black_iff.mpr fun ch => ?_⟩
    by_cases hch : ch = f.inc
    · exact hch ▸ hinc
    · exact hothers ch hch

end Sys2Proof.Proofs
end

section
/-!
Proofs of the family 43_system: START (R180), and WAIT with the hold it puts on the foreground (R181, R183).
-/

namespace Sys2Proof.Proofs

open Sys2Proof.Machine Sys2Proof.Safety

/-! The hold (R181, R183). -/

/-- While `WAITCTR` is not 0, neither a word at the port nor an exhausted list gets the foreground any further. -/
theorem nextEvent_of_hold {s : State} (hfgq : s.fgq = []) (hwait : s.waitctr ≠ 0)
    (htrace : s.trace = [] ∨ ∃ w cut rest, s.trace = .command w cut :: rest) : nextEvent s = holdEvent s := by
  rcases htrace with htrace | ⟨w, cut, rest, htrace⟩
  · rw [nextEvent_of_exhausted htrace hfgq, if_pos hwait, holdEvent]
  · calc nextEvent s = portEvent w cut rest s := by rw [nextEvent, htrace]
      _ = holdEvent s := by rw [portEvent, if_neg (by simp [hfgq]), if_pos hwait]

/-- Settles O7: the hold's two branches. -/
theorem waitHoldsTheForeground : Obligations.WaitHoldsTheForeground := by
  intro s hfgq hwait htrace
  have he := nextEvent_of_hold hfgq hwait htrace
  refine ⟨fun hr => step_of_nextEvent_tick (he.trans (if_pos hr)) hr, fun hr => ?_⟩
  rw [step, he, holdEvent, if_neg (by simp [hr])]

/-- The premise of a hold that ticks lift: the tick runs, no command is in progress, and no input comes before the host's
next word. -/
structure TickLiftsHold (s : State) : Prop where
  run : s.run = true
  queue : s.fgq = []
  port : s.trace = [] ∨ ∃ w cut rest, s.trace = .command w cut :: rest

theorem tickInterval_fgq (s : State) : (tickInterval s).fgq = s.fgq := (tick_sameForeground _).fgq.trans (endInterval_fgq s)

theorem tickInterval_trace (s : State) : (tickInterval s).trace = s.trace :=
  (tick_sameForeground _).trace.trans (endInterval_trace s)

theorem TickLiftsHold.afterTick {s : State} (h : TickLiftsHold s) : TickLiftsHold (tickInterval s) where
  run := (tickInterval_run s).trans h.run
  queue := (tickInterval_fgq s).trans h.queue
  port := (tickInterval_trace s).symm ▸ h.port

/-- Each tick counts `WAITCTR` down by one, and at 0 it stays (R103 t0). -/
theorem intervals_waitctr_toNat (n : Nat) (s : State) : (intervals n s).waitctr.toNat = s.waitctr.toNat - n := by
  induction n generalizing s with
  | zero => rfl
  | succ n ih => rw [intervals, ih, tickInterval_waitctr, decNonzero_toNat]; omega

theorem core_run_succ {M : Host.Core} {s t : M.State} (k : Nat) (h : M.step s = .next t) :
    M.run (k + 1) s = M.run k t := by
  rw [Host.Core.run, h]

/-- As long as the hold lasts, the steps of a run are ticks and nothing else. -/
theorem core_run_of_hold {k : Nat} {s : State} (h : TickLiftsHold s) (hk : k ≤ s.waitctr.toNat) :
    Host.Core.run core k s = .next (intervals k s) := by
  induction k generalizing s with
  | zero => rfl
  | succ k ih =>
    have hwait : s.waitctr ≠ 0 := by
      intro h0
      simp [h0] at hk
    have hstep : core.step s = .next (tickInterval s) :=
      (waitHoldsTheForeground s h.queue hwait h.port).1 h.run
    have hleft : k ≤ (tickInterval s).waitctr.toNat := by
      rw [tickInterval_waitctr, decNonzero_toNat]
      omega
    exact (core_run_succ k hstep).trans (ih h.afterTick hleft)

/-- Settles O13: the counter reaches 0 with its last tick, and until then every step is one. -/
theorem waitEndsAfterExactlyItsTicks : Obligations.WaitEndsAfterExactlyItsTicks := by
  intro s hr hfgq htrace
  refine ⟨core_run_of_hold ⟨hr, hfgq, htrace⟩ le_rfl, fun n => ?_⟩
  rw [← BitVec.toNat_inj, intervals_waitctr_toNat]
  exact Nat.sub_eq_zero_iff_le

/-! START and WAIT, accepted and not interrupted (R180, R181). -/

/-- Settles O11: START is a single micro-operation, unless it is refused. -/
theorem startSetsRun : Obligations.StartSetsRun := by
  intro s hs
  have ha := accepting_of_ready hs
  refine ⟨fun hr => ?_, fun hr => if_pos (by simp [ha, hr])⟩
  calc exec .start s = issue Config.params [.setRun] s := if_neg (by simp [hr])
    _ = .next ((s.setQueue []).setRun) := by rw [issue_accepted _ _ ha, run_single _ _ hs.whole rfl, perform]
    _ = _ := by rw [State.setQueue_of_eq hs.queue, State.setRun]

theorem waitTicks_eq_ofNat (ms : Byte) : waitTicks ms = BitVec.ofNat 16 (2 * ms.toNat) := by
  rw [← waitTicks_toNat, BitVec.ofNat_toNat, BitVec.setWidth_eq]

/-- Settles O12: WAIT is a single micro-operation; the hold that follows is no part of it. -/
theorem waitLoadsTwiceTheMilliseconds : Obligations.WaitLoadsTwiceTheMilliseconds := by
  intro s ms hs
  calc exec (.wait ms) s = issue Config.params [.loadWait ms] s := rfl
    _ = .next ((s.setQueue []).setWait (waitTicks ms)) := by
      rw [issue_accepted _ _ (accepting_of_ready hs), run_single _ _ hs.whole rfl, perform]
    _ = _ := by rw [State.setQueue_of_eq hs.queue, waitTicks_eq_ofNat, State.setWait]

end Sys2Proof.Proofs
end

section
/-!
Proofs of the family 60_exceptions: the frame of any number of a queue's micro-operations (R200). A micro-operation changes only
what it may, and what it puts in front of the queue may change no more than itself.
-/

namespace Sys2Proof.Proofs

open Sys2Proof.Machine Sys2Proof.Safety

/-- No number of micro-operations moves the interruption point. -/
theorem drain_preempt (p : Config.Params) (n : Nat) (s : State) : (drain p n s).preempt = s.preempt :=
  drain_induct (P := fun t => t.preempt = s.preempt) p (fun op _ t _ ht => (perform_preempt p op (t.setQueue _)).trans ht) n rfl

/-- What agrees on the driver's elements differs in the foreground's alone (R200). -/
theorem frame_of_sameDriver {s t : State} (h : SameDriver s t) : t = { s with
    lb := t.lb, fs := t.fs, run := t.run, rdata := t.rdata, waitctr := t.waitctr, fgq := t.fgq, preempt := t.preempt } :=
  State.ext_fields rfl rfl h.sc h.bc h.cmp h.rowen rfl rfl rfl h.fault h.pwmcnt rfl h.trace rfl h.pwmLeft

/-- What every micro-operation of a kind leaves, a queue of that kind leaves, if they queue no other kind. -/
theorem drain_keeps {α : Type} {view : State → α} {kind : MicroOp → Prop} (p : Config.Params)
    (hqueue : ∀ op s, kind op → ∀ new ∈ (perform p op s).fgq, new ∈ s.fgq ∨ kind new)
    (hperform : ∀ op s, kind op → view (perform p op s) = view s) (hview : ∀ s q, view (s.setQueue q) = view s)
    {s : State} (h : ∀ op ∈ s.fgq, kind op) (n : Nat) : view (drain p n s) = view s :=
  (drain_induct (P := fun t => view t = view s ∧ ∀ op ∈ t.fgq, kind op) p
    (fun op rest t hq ⟨ht, hkind⟩ => by
      rw [hq, List.forall_mem_cons] at hkind
      obtain ⟨hop, hrest⟩ := hkind
      exact ⟨((hperform op _ hop).trans (hview t rest)).trans ht,
        fun new hnew => (hqueue op _ hop new hnew).elim (hrest new) id⟩)
    n ⟨rfl, h⟩).1

/-! How far a micro-operation reaches (R130 to R133, R150 to R152). -/

/-- `new` may store to no index and move no LED that `op` may not. -/
structure ReachesNoFurther (p : Config.Params) (op new : MicroOp) : Prop where
  store : ∀ k, mayStore p new k → mayStore p op k
  move : ∀ j, mayMove new j → mayMove op j

theorem reaches_of_mem_cons {p : Config.Params} {op next new : MicroOp} {q : List MicroOp}
    (h : new ∈ next :: q) (hnext : ReachesNoFurther p op next) : new ∈ q ∨ ReachesNoFurther p op new :=
  (List.mem_cons.mp h).elim (fun he => .inr (he ▸ hnext)) .inl

/-- f6 seeds only a LED it may reach (R159). -/
theorem mayReach_of_seededLed {f : FadeArgs} {s : State} {j : Led} (h : seededLed f s = some j) : mayReach f j := by
  obtain ⟨hnext, hpropagate, _⟩ := seededLed_eq_some_iff.mp h
  exact ⟨hpropagate, hnext⟩

/-- A fade step reaches no further than the FSTEP that begins it. -/
theorem fadeF1_reaches (p : Config.Params) {i : Led} {x : FadeState} {f : FadeArgs} (h : fadeArgs i x = some f) :
    ReachesNoFurther p (.fadeSelect i) (.fadeF1 f) := by
  obtain rfl := fadeArgs_led h
  constructor
  · rintro k (hk | hk | ⟨j, ch, ⟨_, hnext⟩, hk⟩)
    · exact .inl ⟨_, hk⟩
    · exact .inl ⟨_, hk⟩
    · exact .inr ⟨j, ch, hnext, hk⟩
  · rintro j (hj | ⟨_, hnext⟩)
    · exact .inl hj
    · exact .inr hnext

/-- What a micro-operation puts in front of the queue reaches no further than itself. -/
theorem reaches_of_mem_perform {p : Config.Params} {op new : MicroOp} {s : State} (h : new ∈ (perform p op s).fgq) :
    new ∈ s.fgq ∨ ReachesNoFurther p op new := by
  cases op with
  | fadeSelect i =>
    simp only [perform] at h
    split at h
    · exact .inl h
    · next f hf => exact reaches_of_mem_cons h (fadeF1_reaches p hf)
  | fadeF1 f => exact reaches_of_mem_cons h ⟨fun _ => id, fun _ => id⟩
  | fadeF2 f v =>
    simp only [perform] at h
    split at h <;> exact reaches_of_mem_cons h ⟨fun _ => .inr, fun _ => id⟩
  | fadeF3 f => exact reaches_of_mem_cons h ⟨fun _ => id, fun _ => id⟩
  | fadeF4 f w => exact reaches_of_mem_cons h ⟨fun _ => .inr, fun _ => id⟩
  | fadeF5 f w =>
    simp only [perform] at h
    split at h
    · exact reaches_of_mem_cons h ⟨fun _ => id, fun _ => .inr⟩
    · exact .inl h
  | fadeF6 f =>
    simp only [perform] at h
    split at h
    · exact .inl h
    · next j hj =>
      refine (List.mem_append.mp h).symm.imp_right fun hnew => ?_
      rw [setLedOps_black] at hnew
      obtain ⟨ch, _, rfl⟩ := List.mem_map.mp hnew
      exact ⟨fun k hk => ⟨j, ch, mayReach_of_seededLed hj, hk⟩, fun _ => False.elim⟩
  | _ => exact .inl h

/-- A micro-operation stores only where it may (R130 to R133, R152). -/
theorem perform_readLB_of_not_mayStore (p : Config.Params) {op : MicroOp} {k : BufferIndex} (h : ¬ mayStore p op k)
    (s : State) : (perform p op s).readLB k = s.readLB k := by
  cases op with
  | write i ch v => exact (State.readLB_writeLB s _ k v).trans (if_neg h)
  | fadeSelect i => simp only [perform]; split <;> rfl
  | fadeF2 f v =>
    simp only [perform]
    split
    · exact (State.readLB_writeLB s _ k v).trans (if_neg fun hk => h (.inl hk))
    · rfl
  | fadeF4 f w => exact (State.readLB_writeLB s _ k w).trans (if_neg fun hk => h (.inl hk))
  | fadeF5 f w => simp only [perform]; split <;> rfl
  | fadeF6 f => simp only [perform]; split <;> rfl
  | _ => rfl

/-- A micro-operation writes the Fade State Table by FINIT's m1, or the entry of a LED it may move (R150, R152). -/
theorem perform_fs_mayMove (p : Config.Params) (op : MicroOp) (s : State) :
    (perform p op s).fs = s.fs ∨ op = .clearFade ∨
      ∃ (i : Led) (x : FadeState), mayMove op i ∧ (perform p op s).fs = s.fs.set i.val x := by
  cases op with
  | clearFade => exact .inr (.inl rfl)
  | seedFirst => exact .inr (.inr ⟨0, .blueToRed, rfl, rfl⟩)
  | fadeF5 f w =>
    simp only [perform]
    split
    · exact .inr (.inr ⟨f.led, f.nextState, .inl rfl, rfl⟩)
    · exact .inl rfl
  | fadeF6 f =>
    simp only [perform]
    cases hj : seededLed f s with
    | none => exact .inl rfl
    | some j => exact .inr (.inr ⟨j, .blueToRed, mayReach_of_seededLed hj, rfl⟩)
  | _ => exact .inl (by simp only [perform]; (repeat' split) <;> rfl)

theorem perform_fs_of_not_mayMove (p : Config.Params) {op : MicroOp} {j : Led} (h : ¬ mayMove op j) (s : State) :
    (perform p op s).fs[j.val] = s.fs[j.val] := by
  rcases perform_fs_mayMove p op s with hfs | rfl | ⟨i, x, hi, hfs⟩
  · rw [hfs]
  · exact absurd trivial h
  · have hj : j ≠ i := fun he => h (he ▸ hi)
    rw [hfs, fs_set_other s.fs hj x]

theorem drain_readLB_of_not_mayStore (p : Config.Params) {s : State} {k : BufferIndex}
    (h : ∀ op ∈ s.fgq, ¬ mayStore p op k) (n : Nat) : (drain p n s).readLB k = s.readLB k :=
  drain_keeps (view := fun t => t.readLB k) (kind := fun op => ¬ mayStore p op k) p
    (fun _ _ hop _ hnew => (reaches_of_mem_perform hnew).imp_right fun hr hk => hop (hr.store k hk))
    (fun _ s hop => perform_readLB_of_not_mayStore p hop s) (fun _ _ => rfl) h n

theorem drain_fs_of_not_mayMove (p : Config.Params) {s : State} {j : Led} (h : ∀ op ∈ s.fgq, ¬ mayMove op j) (n : Nat) :
    (drain p n s).fs[j.val] = s.fs[j.val] :=
  drain_keeps (view := fun t => t.fs[j.val]) (kind := fun op => ¬ mayMove op j) p
    (fun _ _ hop _ hnew => (reaches_of_mem_perform hnew).imp_right fun hr hj => hop (hr.move j hj))
    (fun _ s hop => perform_fs_of_not_mayMove p hop s) (fun _ _ => rfl) h n

/-! The three registers that one command each writes (R31, R180, R181). -/

/-- GET alone writes `RDATA` (R31). -/
theorem perform_rdata (p : Config.Params) {op : MicroOp} (h : ∀ i ch, op ≠ .read i ch) (s : State) :
    (perform p op s).rdata = s.rdata := by
  cases op with
  | read i ch => exact absurd rfl (h i ch)
  | _ => simp only [perform]; (repeat' split) <;> rfl

/-- START alone writes `RUN` (R180). -/
theorem perform_run_eq (p : Config.Params) {op : MicroOp} (h : op ≠ .setRun) (s : State) :
    (perform p op s).run = s.run := by
  cases op with
  | setRun => exact absurd rfl h
  | _ => simp only [perform]; (repeat' split) <;> rfl

theorem drain_rdata (p : Config.Params) {s : State} (h : ∀ i ch, .read i ch ∉ s.fgq) (n : Nat) :
    (drain p n s).rdata = s.rdata :=
  drain_keeps (view := State.rdata) (kind := fun op => ∀ i ch, op ≠ .read i ch) p
    (fun _ _ _ new hnew => or_iff_not_imp_right.mpr fun hread => by
      obtain ⟨i, ch, rfl⟩ : ∃ i ch, new = .read i ch := by simpa using hread
      exact mem_fgq_of_mem_perform rfl nofun hnew)
    (fun _ s hop => perform_rdata p hop s) (fun _ _ => rfl) (fun op hop i ch he => h i ch (he ▸ hop)) n

theorem drain_run (p : Config.Params) {s : State} (h : .setRun ∉ s.fgq) (n : Nat) : (drain p n s).run = s.run :=
  drain_keeps (view := State.run) (kind := (· ≠ .setRun)) p
    (fun _ _ _ new hnew => or_iff_not_imp_right.mpr fun hset => by
      obtain rfl := not_not.mp hset
      exact mem_fgq_of_mem_perform rfl nofun hnew)
    (fun _ s hop => perform_run_eq p hop s) (fun _ _ => rfl) (fun _ hop he => h (he ▸ hop)) n

/-- Only a queued WAIT loads `WAITCTR`, with its own value (R181). -/
theorem drain_waitctr (p : Config.Params) (n : Nat) (s : State) :
    (drain p n s).waitctr = s.waitctr ∨ ∃ ms, .loadWait ms ∈ s.fgq ∧ (drain p n s).waitctr = waitTicks ms :=
  (drain_induct (P := fun t => (t.waitctr = s.waitctr ∨ ∃ ms, .loadWait ms ∈ s.fgq ∧ t.waitctr = waitTicks ms) ∧
      ∀ ms, .loadWait ms ∈ t.fgq → .loadWait ms ∈ s.fgq) p
    (fun op rest t hq ⟨ht, hqueue⟩ => by
      rw [hq] at hqueue
      refine ⟨?_, fun ms hm => hqueue ms (List.mem_cons_of_mem op
        (mem_fgq_of_mem_perform (s := t.setQueue rest) rfl nofun hm))⟩
      rcases perform_waitctr p op (t.setQueue rest) with hw | ⟨ms, rfl, hw⟩
      · rw [hw]; exact ht
      · exact .inr ⟨ms, hqueue ms List.mem_cons_self, hw⟩)
    n ⟨.inl rfl, fun _ => id⟩).1

/-- Settles O56: each clause by what a micro-operation may change and queue. -/
theorem frameOfTheForeground : Obligations.FrameOfTheForeground := by
  rintro p s _ n rfl
  refine ⟨?_, fun k h => drain_readLB_of_not_mayStore p h n, fun j h => drain_fs_of_not_mayMove p h n,
    fun h => drain_rdata p h n, fun h => (drain_waitctr p n s).resolve_right fun ⟨ms, hm, _⟩ => h ms hm,
    fun h => drain_run p h n⟩
  have hframe := frame_of_sameDriver (drain_sameDriver p n s)
  rwa [drain_preempt] at hframe

end Sys2Proof.Proofs
end

section
/-!
Proofs of the family 60_exceptions: a tick before START (R194), a fault and what goes on after it (R190, R191), the frame of the
instructions that store nothing (R197, R200), and which context a step belongs to and what it owns (R200, R201).
-/

namespace Sys2Proof.Proofs

open Sys2Proof.Machine Sys2Proof.Safety

theorem exec_tick_of_stopped {s : State} (hr : s.run = false) : exec .tick s = .next s := if_neg (by simp [hr])

/-- Settles O33: TICK's branch for `RUN = 0`. -/
theorem noTickBeforeStart : Obligations.NoTickBeforeStart := fun _ => exec_tick_of_stopped

/-! Faults (R190, R191). -/

/-- A command with a legal index records no fault (R82). -/
theorem exec_fault_of_legal_index {c : Instr} {s t : State} {i : Led} (h : exec c s = .next t)
    (hidx : c.idx? = some (idxOf i)) : t.fault = s.fault := by
  have hc : c ≠ .tick := by rintro rfl; cases hidx
  by_contra hf
  obtain ⟨idx, hidx', hlt, _⟩ := exec_command_fault hc h hf
  obtain rfl := Option.some.inj (hidx.symm.trans hidx')
  cases (ledOfIdx_idxOf i).symm.trans (ledOfIdx_of_ge hlt)

/-- Settles O42: the index check comes first, and it alone raises `IndexFault`. -/
theorem illegalIndexFaultsAndChangesNothingElse : Obligations.IllegalIndexFaultsAndChangesNothingElse :=
  ⟨fun _ _ _ hs hidx h => exec_index_above hs hidx h, rfl, fun _ _ _ h => exec_fault_of_legal_index h rfl⟩

/-- A command that is not accepted is turned away, whatever else is asked of it (R73, R190). -/
theorem exec_turned_away {c : Instr} {s : State} (hc : c ≠ .tick) (ha : s.accepting = false) :
    exec c s = .next s.uncut := by
  by_cases hs : c = .start
  · subst hs
    exact (if_neg (by simp [ha])).trans (issue_turned_away _ [.setRun] ha)
  · rcases exec_issues s hs hc with ⟨_, hi⟩ | ⟨idx, _, hi⟩
    · rw [hi 0, issue_turned_away _ _ ha]
    · rw [hi, issueIndexed_turned_away _ _ _ ha]

/-- Settles O43: a faulted block accepts nothing, and TICK does not look at `FAULT`. -/
theorem faultHaltsTheForegroundNotTheScan : Obligations.FaultHaltsTheForegroundNotTheScan := by
  intro s hf
  have ha : s.accepting = false := by simp [State.accepting, hf]
  exact ⟨fun c hc => exec_turned_away hc ha, exec_tick_of_run⟩

/-! The instructions that store no byte (R197, R200). -/

/-- However the foreground is interrupted, it drains some number of micro-operations. -/
theorem runForeground_eq_drain (p : Config.Params) (s : State) : ∃ n, runForeground p s = (drain p n s).uncut := by
  cases h : s.preempt with
  | none => exact ⟨_, runForeground_whole p h⟩
  | some n => exact ⟨n, runForeground_cut p h⟩

theorem runForeground_waitctr (p : Config.Params) (s : State) :
    (runForeground p s).waitctr = s.waitctr ∨ ∃ ms, .loadWait ms ∈ s.fgq ∧ (runForeground p s).waitctr = waitTicks ms := by
  obtain ⟨n, hn⟩ := runForeground_eq_drain p s
  rw [hn]
  exact drain_waitctr p n s

/-- A micro-operation that queues no other is still queued or performed. -/
theorem runForeground_single (p : Config.Params) {op : MicroOp} {s : State} (hq : (perform p op (s.setQueue [])).fgq = []) :
    runForeground p (s.setQueue [op]) = (s.setQueue [op]).uncut ∨
      runForeground p (s.setQueue [op]) = (perform p op (s.setQueue [])).uncut := by
  obtain ⟨n, hn⟩ := runForeground_eq_drain p (s.setQueue [op])
  rw [hn]
  cases n with
  | zero => exact .inl rfl
  | succ n => rw [drain_cons p n rfl, State.setQueue_setQueue, drain_nil p n hq]; exact .inr rfl

/-- At every point FINIT has changed only the Fade State Table (R150). -/
theorem runForeground_finit_frame (p : Config.Params) (s : State) :
    ∃ fs fgq, runForeground p (s.setQueue [.clearFade, .seedFirst]) = { s with fs := fs, fgq := fgq, preempt := none } := by
  obtain ⟨n, hn⟩ := runForeground_eq_drain p (s.setQueue [.clearFade, .seedFirst])
  rw [hn]
  match n with
  | 0 => exact ⟨_, _, rfl⟩
  | 1 => exact ⟨_, _, rfl⟩
  | n + 2 => rw [drain_cons p (n + 1) rfl, drain_cons p n rfl, drain_nil p n rfl]; exact ⟨_, _, rfl⟩

/-- A command without an index is turned away, or it queues its micro-operations and runs. -/
theorem exec_plain_cases {c : Instr} {s t : State} (h : exec c s = .next t) (hidx : c.idx? = none) (hc : c ≠ .tick) :
    t = s.uncut ∨ ∃ i, t = runForeground Config.params (s.setQueue (commandOps c i)) := by
  rcases exec_command_cases hc h with ⟨_, ht⟩ | ⟨_, ⟨idx, hsome, _⟩, _⟩ | ⟨i, _, _, ht⟩
  · exact .inl ht
  · cases hidx.symm.trans hsome
  · exact .inr ⟨i, ht⟩

/-- What agrees on the foreground's elements differs in the driver's alone (R197). -/
theorem frame_of_sameForeground {s t : State} (h : SameForeground s t) :
    t = { s with waitctr := t.waitctr, bc := t.bc, cmp := t.cmp, rowen := t.rowen, sc := t.sc } :=
  State.ext_fields h.lb h.fs rfl rfl rfl rfl rfl h.run h.rdata h.fault h.pwmcnt h.fgq h.trace h.preempt h.pwmLeft

/-- GET's frame (R138). -/
theorem exec_getInstr_frame {s t : State} {ch : Channel} {idx : Nibble} (h : exec (getInstr ch idx) s = .next t) :
    t = { s with rdata := t.rdata, fault := t.fault, fgq := t.fgq, preempt := none } := by
  rw [exec_getInstr] at h
  rcases issueIndexed_cases h with ⟨i, _, _, rfl⟩ | ⟨_, _, rfl⟩ | ⟨_, rfl⟩
  · rcases runForeground_single Config.params (op := .read i ch) (s := s) rfl with ht | ht <;> rw [ht] <;> rfl
  · rfl
  · rfl

/-- START's frame (R180). -/
theorem exec_start_frame {s t : State} (h : exec .start s = .next t) :
    t = { s with run := t.run, fgq := t.fgq, preempt := none } := by
  rcases exec_plain_cases h rfl nofun with rfl | ⟨_, rfl⟩
  · rfl
  · rcases runForeground_single Config.params (op := .setRun) (s := s) rfl with ht | ht <;> rw [commandOps, ht] <;> rfl

/-- WAIT's frame (R181). -/
theorem exec_wait_frame {s t : State} {ms : Byte} (h : exec (.wait ms) s = .next t) :
    t = { s with waitctr := t.waitctr, fgq := t.fgq, preempt := none } := by
  rcases exec_plain_cases h rfl nofun with rfl | ⟨_, rfl⟩
  · rfl
  · rcases runForeground_single Config.params (op := .loadWait ms) (s := s) rfl with ht | ht <;> rw [commandOps, ht] <;> rfl

/-- FINIT's frame (R150). -/
theorem exec_finit_frame {s t : State} (h : exec .finit s = .next t) :
    t = { s with fs := t.fs, fgq := t.fgq, preempt := none } := by
  rcases exec_plain_cases h rfl nofun with rfl | ⟨_, rfl⟩
  · rfl
  · obtain ⟨fs, fgq, ht⟩ := runForeground_finit_frame Config.params s
    rw [commandOps, ht]

/-- TICK's frame (R197). -/
theorem exec_tick_frame {s t : State} (h : exec .tick s = .next t) :
    t = { s with waitctr := t.waitctr, bc := t.bc, cmp := t.cmp, rowen := t.rowen, sc := t.sc } := by
  rcases exec_tick_cases h with ⟨_, rfl⟩ | ⟨_, rfl⟩
  · exact frame_of_sameForeground (tick_sameForeground s)
  · rfl

/-- Settles O47: each instruction's own frame. -/
theorem frameOfTheInstructionsThatStoreNothing : Obligations.FrameOfTheInstructionsThatStoreNothing :=
  ⟨fun _ _ _ _ h => exec_getInstr_frame h, fun _ _ h => exec_start_frame h, fun _ _ _ h => exec_wait_frame h,
    fun _ _ h => exec_finit_frame h, fun _ _ h => exec_tick_frame h⟩

/-! Who owns what (R200, R201). -/

/-- A step of the driver: a TICK with the tick interval it ends, or a tick that is dropped (R103, R109, R194). -/
structure DriverStep (s t : State) : Prop where
  frame : t = { s with
    waitctr := t.waitctr, bc := t.bc, cmp := t.cmp, rowen := t.rowen, sc := t.sc, trace := t.trace,
    pwmcnt := s.pwmcnt + BitVec.ofNat 8 (pwmClocksAt s), pwmLeft := t.pwmLeft }
  wait : t.waitctr = s.waitctr ∨ s.run = true ∧ t.waitctr.toNat + 1 = s.waitctr.toNat
  interval : s.run = true → t.pwmLeft = some (pwmClocksPerTick Config.params)
  stopped : s.run = false → t.pwmLeft = s.pwmLeft

/-- A step of the foreground (R200). -/
structure ForegroundStep (s t : State) : Prop where
  frame : t = { s with
    lb := t.lb, fs := t.fs, run := t.run, rdata := t.rdata, fault := t.fault, waitctr := t.waitctr, fgq := t.fgq,
    trace := t.trace, preempt := t.preempt }
  wait : t.waitctr = s.waitctr ∨ (∃ ms, .loadWait ms ∈ s.fgq ∧ t.waitctr = waitTicks ms) ∨
    ∃ w cut rest ms, s.trace = .command w cut :: rest ∧ decode w = .ok (.wait ms) ∧ s.waitctr = 0 ∧
      t.waitctr = waitTicks ms

/-- A tick interval with its TICK: the driver's elements and the PWM clock's two fields. -/
theorem tickInterval_frame (s : State) : tickInterval s = { s with
    waitctr := (tickInterval s).waitctr, bc := (tickInterval s).bc, cmp := (tickInterval s).cmp
    rowen := (tickInterval s).rowen, sc := (tickInterval s).sc
    pwmcnt := (tickInterval s).pwmcnt, pwmLeft := (tickInterval s).pwmLeft } := by
  have f := tick_sameForeground (endInterval s)
  exact State.ext_fields (f.lb.trans (endInterval_lb s)) (tickInterval_fs s) rfl rfl rfl rfl rfl (tickInterval_run s)
    (f.rdata.trans (endInterval_rdata s)) (tickInterval_fault s) rfl (tickInterval_fgq s) (tickInterval_trace s)
    (f.preempt.trans (endInterval_preempt s)) rfl

theorem decNonzero_eq_or_toNat_succ {n : Nat} (x : BitVec n) : decNonzero x = x ∨ (decNonzero x).toNat + 1 = x.toNat := by
  by_cases hx : x.toNat = 0
  · exact .inl (BitVec.eq_of_toNat_eq (by rw [decNonzero_toNat, hx]))
  · exact .inr (by rw [decNonzero_toNat]; omega)

theorem driverStep_of_tick {s t : State} (rest : List TraceItem) (hstep : step s = .next t)
    (h : exec .tick (endInterval (afterFetch s rest s.preempt)) = .next t) : DriverStep s t := by
  have hcount := step_pwmcnt hstep
  rcases exec_tick_endInterval_cases h with ⟨hr, rfl⟩ | ⟨hr, rfl⟩
  · have hs : s.run = true := hr
    refine ⟨?_, ?_, fun _ => (tickInterval_of_run hr).2, fun hn => absurd (hs.symm.trans hn) (by decide)⟩
    · rw [← hcount, tickInterval_trace]
      exact tickInterval_frame _
    · rw [tickInterval_waitctr]
      exact (decNonzero_eq_or_toNat_succ s.waitctr).imp_right fun hw => ⟨hs, hw⟩
  · have hs : s.run = false := hr
    exact ⟨by rw [← hcount]; rfl, .inl rfl, fun hn => absurd (hs.symm.trans hn) (by decide), fun _ => rfl⟩

/-- Running the foreground on a queue whose WAIT, if any, was queued before or has just been taken. -/
theorem foregroundStep_of_runForeground (s : State) (rest : List TraceItem) (cut : Option Nat) (q : List MicroOp)
    (hload : ∀ ms, .loadWait ms ∈ q → .loadWait ms ∈ s.fgq ∨
      ∃ w cut rest, s.trace = .command w cut :: rest ∧ decode w = .ok (.wait ms) ∧ s.waitctr = 0) :
    ForegroundStep s (runForeground Config.params ((afterFetch s rest cut).setQueue q)) where
  frame := by
    have d := runForeground_sameDriver Config.params ((afterFetch s rest cut).setQueue q)
    exact State.ext_fields rfl rfl d.sc d.bc d.cmp d.rowen rfl rfl rfl rfl d.pwmcnt rfl rfl rfl d.pwmLeft
  wait := by
    rcases runForeground_waitctr Config.params ((afterFetch s rest cut).setQueue q) with hw | ⟨ms, hm, hw⟩
    · exact .inl hw
    · rcases hload ms hm with hqueued | ⟨w, cut, rest, htrace, hdecode, hzero⟩
      · exact .inr (.inl ⟨ms, hqueued, hw⟩)
      · exact .inr (.inr ⟨w, cut, rest, ms, htrace, hdecode, hzero, hw⟩)

/-- WAIT alone queues a load of `WAITCTR` (R181). -/
theorem eq_wait_of_loadWait_mem {c : Instr} {i : Led} {ms : Byte} (h : .loadWait ms ∈ commandOps c i) : c = .wait ms := by
  cases c <;> simp_all [commandOps, setLedOps]

/-- A command taken from the port is turned away, faults or runs, and each is the foreground's. -/
theorem foregroundStep_of_command {s t : State} {w : CommandWord} {cut : Option Nat} {rest : List TraceItem} {c : Instr}
    (htrace : s.trace = .command w cut :: rest) (hwait : s.waitctr = 0) (hdecode : decodePort w = .ok c)
    (h : exec c (afterFetch s rest cut) = .next t) : ForegroundStep s t := by
  obtain ⟨hd, hc⟩ := (decodePort_eq_ok_iff w c).mp hdecode
  rcases exec_command_cases hc h with ⟨_, rfl⟩ | ⟨_, _, rfl⟩ | ⟨i, _, _, rfl⟩
  · exact ⟨rfl, .inl rfl⟩
  · exact ⟨rfl, .inl rfl⟩
  · exact foregroundStep_of_runForeground s rest cut _ fun ms hm =>
      .inr ⟨w, cut, rest, htrace, eq_wait_of_loadWait_mem hm ▸ hd, hwait⟩

/-- Every step is the driver's, the foreground's or one PWM clock. -/
theorem step_owner {s t : State} (h : step s = .next t) : DriverStep s t ∨ ForegroundStep s t ∨
    ∃ rest, (s.trace = .pwmClock :: rest ∨ s.trace = [] ∧ rest = []) ∧ t = pwmClock { s with trace := rest } := by
  cases step_cases h with
  | command w cut rest c htrace _ hwait hdecode hexec =>
    exact .inr (.inl (foregroundStep_of_command htrace hwait hdecode hexec))
  | reserved w cut rest e _ _ _ _ hnext => exact .inr (.inl (hnext ▸ ⟨rfl, .inl rfl⟩))
  | tickInput rest _ hexec => exact .inl (driverStep_of_tick rest h hexec)
  | tickForced _ _ _ hexec => exact .inl (driverStep_of_tick s.trace h hexec)
  | tickDue _ _ _ hexec => exact .inl (driverStep_of_tick s.trace h hexec)
  | foreground cut rest _ hnext =>
    exact .inr (.inl (hnext ▸ foregroundStep_of_runForeground s rest cut s.fgq fun _ => .inl))
  | resumed _ hnext =>
    exact .inr (.inl (hnext ▸ foregroundStep_of_runForeground s s.trace none s.fgq fun _ => .inl))
  | clock rest htrace _ hnext => exact .inr (.inr ⟨rest, .inl htrace, hnext⟩)
  | idle htrace _ _ _ _ hnext => exact .inr (.inr ⟨[], .inr ⟨htrace, rfl⟩, by rw [hnext, ← htrace]⟩)

/-- Settles O51: the owner of the step and what it may change. -/
theorem theTwoContextsOwnTheirState : Obligations.TheTwoContextsOwnTheirState := by
  intro s t h
  rcases step_owner h with ⟨hframe, hwait, hinterval, hstopped⟩ | ⟨hframe, hwait⟩ | hclock
  · exact .inl ⟨hframe, hwait, hinterval, hstopped⟩
  · exact .inr (.inl ⟨hframe, hwait⟩)
  · exact .inr (.inr hclock)

end Sys2Proof.Proofs
end

section
/-!
Proofs of the family 70_reset_and_hazards: a run that is over stays over (R236, D20). With no command listed, in progress or
waiting, what comes next is a tick, a PWM clock or a foreground with nothing to do, and at most inputs are taken off the trace
first.
-/

namespace Sys2Proof.Proofs

open Sys2Proof.Machine Sys2Proof.Safety

/-- Taking inputs off the trace does not begin a command when none is left among them. -/
theorem finished_afterFetch {s : State} {rest : List TraceItem} (cut : Option Nat) (h : Finished s)
    (hrest : commandsLeft rest = []) : Finished (afterFetch s rest cut) := by
  obtain ⟨_, hfgq, hwait, hfault⟩ := h
  exact ⟨hrest, hfgq, hwait, hfault⟩

theorem finished_tickInterval {s : State} (h : Finished s) : Finished (tickInterval s) := by
  obtain ⟨htrace, hfgq, hwait, hfault⟩ := h
  refine ⟨?_, (tickInterval_fgq s).trans hfgq, ?_, (tickInterval_fault s).trans hfault⟩
  · rw [tickInterval_trace, htrace]
  · rw [tickInterval_waitctr, hwait]
    rfl

theorem foregroundView_tickInterval (s : State) : foregroundView (tickInterval s) = foregroundView s := by
  rw [tickInterval_frame]
  rfl

/-- The tick event keeps a finished run finished, whether the TICK takes place or is dropped (R194). -/
theorem exec_tick_endInterval_of_finished {s : State} (h : Finished s) :
    ∃ t, exec .tick (endInterval s) = .next t ∧ Finished t ∧ foregroundView t = foregroundView s := by
  cases hr : s.run with
  | true =>
    exact ⟨tickInterval s, exec_tick_of_run ((endInterval_run s).trans hr), finished_tickInterval h,
      foregroundView_tickInterval s⟩
  | false => exact ⟨s, by rw [endInterval_of_stopped hr, exec_tick_of_stopped hr], h, rfl⟩

/-- Once every command has completed, the next event is a tick, a PWM clock, or a foreground that has nothing to do; inputs are
all that has changed when it happens. -/
theorem nextEvent_of_finished {s : State} (h : Finished s) : ∃ rest cut, commandsLeft rest = [] ∧
    (nextEvent s = .tick (afterFetch s rest cut) ∨ nextEvent s = .clock (afterFetch s rest cut) ∨
      nextEvent s = .move (afterFetch s rest cut)) := by
  obtain ⟨hleft, hfgq, hwait, hfault⟩ := h
  cases htrace : s.trace with
  | nil =>
    have he := nextEvent_of_exhausted htrace hfgq
    rw [if_neg (not_not.mpr hwait), if_neg (not_not.mpr hfault)] at he
    refine ⟨s.trace, s.preempt, hleft, ?_⟩
    cases hr : s.run with
    | true => exact .inl (he.trans (if_pos hr))
    | false => exact .inr (.inl (he.trans (if_neg (by simp [hr]))))
  | cons item rest =>
    rw [htrace] at hleft
    cases item with
    | command w cut => cases hleft
    | tick => exact ⟨rest, s.preempt, hleft, .inl (by rw [nextEvent, htrace]; rfl)⟩
    | pwmClock =>
      have he := nextEvent_of_pwmClock htrace
      cases hdue : s.tickDue with
      | true => exact ⟨s.trace, s.preempt, htrace ▸ hleft, .inl (he.trans (if_pos hdue))⟩
      | false => exact ⟨rest, s.preempt, hleft, .inr (.inl (he.trans (if_neg (by simp [hdue]))))⟩
    | foreground cut =>
      have hrun : runForeground Config.params (afterFetch s rest cut) = afterFetch s rest none :=
        runForeground_of_empty _ hfgq
      exact ⟨rest, none, hleft, .inr (.inr (by rw [nextEvent, htrace, ← hrun]; rfl))⟩

/-- Settles O57: none of the three events that are left touches what the foreground owns or begins a command. -/
theorem finishedRunStaysFinished : Obligations.FinishedRunStaysFinished := by
  intro s h
  obtain ⟨rest, cut, hrest, he⟩ := nextEvent_of_finished h
  have hu : Finished (afterFetch s rest cut) := finished_afterFetch cut h hrest
  rcases he with he | he | he
  · obtain ⟨t, ht, hfinished, hview⟩ := exec_tick_endInterval_of_finished hu
    exact ⟨t, by rw [step, he]; exact ht, hfinished, hview⟩
  · exact ⟨pwmClock (afterFetch s rest cut), by rw [step, he], hu, rfl⟩
  · exact ⟨afterFetch s rest cut, by rw [step, he], hu, rfl⟩

end Sys2Proof.Proofs
end
